-- ==== Sys2Proof/Word.lean ====
section
/-! DEFINITION. The words, codes, nodes and table entries of the LZW codec engine (spec/00_scope.md R8, R11; spec/10_state.md R30). -/

namespace Sys2Proof

/-- One byte, the unit of both ports (00 R6). -/
abbrev Byte := BitVec 8

/-- A 32-bit host word: a command word (30 R99) or a host register (10 R40). -/
abbrev Word := BitVec 32

/-- A trie node, named by its code; `none` is `ROOT`, and as a code it is `NONE` (00 R11). Arithmetic on
codes never wraps (00 R8), so a dictionary code is a natural number. -/
abbrev NodeId := Option Nat

/-- The two engines of the block (10 R20). -/
inductive EngineId where
  | enc
  | dec
  deriving DecidableEq, Repr

/-- A code-table entry (10 R30). -/
structure Entry where
  /-- the node this entry extends -/
  parent : NodeId
  /-- the byte by which it extends its parent -/
  last : Byte
  /-- the first byte of its sequence -/
  first : Byte
  /-- the length of its sequence -/
  len : Nat
  deriving DecidableEq, Repr

/-- The clear code, a constant in both engines (00 R6, 10 R24). -/
abbrev clearCode : Nat := 256

/-- `next_code` after initialisation (00 R6). -/
abbrev firstFree : Nat := 257

/-- `code_width` after initialisation (00 R6). -/
abbrev initWidth : Nat := 9

end Sys2Proof
end

