-- ==== Sys2Proof/Syntax.lean ====
section
/-! DEFINITION. The instructions: one constructor per row of spec/opcode_table.json (30 R90): host commands, reserved command words, code-word classes, internal primitives. -/

namespace Sys2Proof

/-- The operations of the block (00 R2). Every command and reserved row carries its 28-bit argument
field, ignored ones too (30 R99, R103), so that no bit of a command word is lost. -/
inductive Instr where
  -- format CMD: the eight host commands (30 R100)
  | encInit (maxCode : BitVec 28)
  | encChunk (maxBytes : BitVec 28)
  | encEnd (arg : BitVec 28)
  | encClear (arg : BitVec 28)
  | encDestroy (arg : BitVec 28)
  | decInit (maxCode : BitVec 28)
  | decChunk (maxCodes : BitVec 28)
  | decDestroy (arg : BitVec 28)
  -- format CMD: the eight reserved opcodes (30 R102)
  | reserved0 (arg : BitVec 28)
  | reserved6 (arg : BitVec 28)
  | reserved7 (arg : BitVec 28)
  | reserved8 (arg : BitVec 28)
  | reservedB (arg : BitVec 28)
  | reservedC (arg : BitVec 28)
  | reservedE (arg : BitVec 28)
  | reservedF (arg : BitVec 28)
  -- format CODEWORD: the classes of a pulled value `v` (30 R97)
  | literal (v : Byte)
  | clear
  | string (v : Nat)
  | kwkwk (v : Nat)
  | invalid (v : Nat)
  -- format PRIM: the internal primitives (30 R90); `z` is the engine whose part they act on
  | dictInit (z : EngineId)
  | dictExtend (z : EngineId) (node : NodeId) (byte : Byte)
  | dictGrow (z : EngineId)
  | dictSeq (z : EngineId) (k : Nat)
  | dictReset (z : EngineId)
  | bwPush (value width : Nat)
  | bwFlush
  | brPull (width : Nat)
  | encByte (c : Byte)
  | encPending
  | decStep
  | decGrow
  | decClear
  | srcRead (z : EngineId)
  | snkWrite (z : EngineId) (b : Byte)
  deriving DecidableEq, Repr

/-- The three formats of the opcode table (30 R90). -/
inductive Format where
  | cmd
  | codeword
  | prim
  deriving DecidableEq, Repr

/-- The format of an instruction's row. -/
def Instr.format : Instr → Format
  | .encInit _ | .encChunk _ | .encEnd _ | .encClear _ | .encDestroy _
  | .decInit _ | .decChunk _ | .decDestroy _
  | .reserved0 _ | .reserved6 _ | .reserved7 _ | .reserved8 _
  | .reservedB _ | .reservedC _ | .reservedE _ | .reservedF _ => .cmd
  | .literal _ | .clear | .string _ | .kwkwk _ | .invalid _ => .codeword
  | .dictInit _ | .dictExtend _ _ _ | .dictGrow _ | .dictSeq _ _ | .dictReset _
  | .bwPush _ _ | .bwFlush | .brPull _ | .encByte _ | .encPending
  | .decStep | .decGrow | .decClear | .srcRead _ | .snkWrite _ _ => .prim

/-- The engine an instruction acts on: bit 31 of a command word (30 R99); `D` for code words; the
owner of the part a primitive acts on (41 R140). -/
def Instr.engine : Instr → EngineId
  | .encInit _ | .encChunk _ | .encEnd _ | .encClear _ | .encDestroy _
  | .reserved0 _ | .reserved6 _ | .reserved7 _ => .enc
  | .decInit _ | .decChunk _ | .decDestroy _
  | .reserved8 _ | .reservedB _ | .reservedC _ | .reservedE _ | .reservedF _ => .dec
  | .literal _ | .clear | .string _ | .kwkwk _ | .invalid _ => .dec
  | .dictInit z | .dictExtend z _ _ | .dictGrow z | .dictSeq z _ | .dictReset z
  | .srcRead z | .snkWrite z _ => z
  | .bwPush _ _ | .bwFlush | .encByte _ | .encPending => .enc
  | .brPull _ | .decStep | .decGrow | .decClear => .dec

end Sys2Proof
end

