-- ==== Sys2Proof/WellFormed.lean ====
section
/-! DEFINITION. Which instruction terms are well formed: the operand ranges the spec states that hold of every build and state. -/

namespace Sys2Proof

/-- The largest `MAXW` a build may have (00 R7). -/
def widestCode : Nat := 27

/-- A value that a code word of class STRING, KWKWK or INVALID can carry: above the clear code (30 R97)
and within the widest code word (00 R7). -/
def learnedValue (v : Nat) : Bool := decide (firstFree ≤ v) && decide (v < 2 ^ widestCode)

/-- A node that can be in some table: the root, or a code other than 256 (10 R22, R30). -/
def nodeInRange : NodeId → Bool
  | none => true
  | some k => decide (k ≠ clearCode) && decide (k ≤ 2 ^ widestCode)

/-- The operand ranges. `BW.PUSH` has none: the spec gives it an effect on every operand (41 R143). -/
def Instr.wf : Instr → Bool
  | .string v => learnedValue v
  | .kwkwk v => learnedValue v
  | .invalid v => learnedValue v
  | .dictExtend _ n _ => nodeInRange n
  | .dictSeq _ k => nodeInRange (some k)
  | .brPull w => decide (1 ≤ w) && decide (w ≤ widestCode)
  | _ => true

end Sys2Proof
end

