-- ==== Sys2Proof/Decode.lean ====
section
/-! DEFINITION. Decoding and encoding: command words (30 R99 to R103), code words (30 R93, R97), and the opcode table's words. -/

namespace Sys2Proof

/-! ### Command words -/

/-- Bits 31:28 of a command word (30 R99). -/
def opField (w : Word) : BitVec 4 := w.extractLsb' 28 4

/-- Bits 27:0 of a command word, unsigned (30 R99, R101). -/
def argField (w : Word) : BitVec 28 := w.extractLsb' 0 28

/-- The command a word selects (30 R100, R102). Total: every word is a row of the table. The last arm
is `op = 0xF`, the only value of the 4-bit field left. -/
def decode (w : Word) : Instr :=
  match (opField w).toNat with
  | 0x0 => .reserved0 (argField w)
  | 0x1 => .encInit (argField w)
  | 0x2 => .encChunk (argField w)
  | 0x3 => .encEnd (argField w)
  | 0x4 => .encClear (argField w)
  | 0x5 => .encDestroy (argField w)
  | 0x6 => .reserved6 (argField w)
  | 0x7 => .reserved7 (argField w)
  | 0x8 => .reserved8 (argField w)
  | 0x9 => .decInit (argField w)
  | 0xA => .decChunk (argField w)
  | 0xB => .reservedB (argField w)
  | 0xC => .reservedC (argField w)
  | 0xD => .decDestroy (argField w)
  | 0xE => .reservedE (argField w)
  | _ => .reservedF (argField w)

/-- The command word of an instruction of format CMD (30 R100: `match | arg`); the other two formats
have no command word (30 R90). -/
def encode : Instr → Option Word
  | .reserved0 a => some (0x0#4 ++ a)
  | .encInit a => some (0x1#4 ++ a)
  | .encChunk a => some (0x2#4 ++ a)
  | .encEnd a => some (0x3#4 ++ a)
  | .encClear a => some (0x4#4 ++ a)
  | .encDestroy a => some (0x5#4 ++ a)
  | .reserved6 a => some (0x6#4 ++ a)
  | .reserved7 a => some (0x7#4 ++ a)
  | .reserved8 a => some (0x8#4 ++ a)
  | .decInit a => some (0x9#4 ++ a)
  | .decChunk a => some (0xA#4 ++ a)
  | .reservedB a => some (0xB#4 ++ a)
  | .reservedC a => some (0xC#4 ++ a)
  | .decDestroy a => some (0xD#4 ++ a)
  | .reservedE a => some (0xE#4 ++ a)
  | .reservedF a => some (0xF#4 ++ a)
  | .literal _ | .clear | .string _ | .kwkwk _ | .invalid _ => none
  | .dictInit _ | .dictExtend _ _ _ | .dictGrow _ | .dictSeq _ _ | .dictReset _ => none
  | .bwPush _ _ | .bwFlush | .brPull _ | .encByte _ | .encPending => none
  | .decStep | .decGrow | .decClear | .srcRead _ | .snkWrite _ _ => none

/-- The instruction read from a word of the opcode table of `nbits` bits (log 14). The only words the
table gives are the 32-bit command words; bits above `nbits` are 0. -/
def decodeTableWord (nbits w : Nat) : Option Instr :=
  if nbits ≤ 32 then some (decode (BitVec.ofNat 32 (w % 2 ^ nbits))) else none

/-! ### Code words -/

/-- The `width` stream bits of a code word, most significant first: `v[width-1], …, v[0]` (30 R93). -/
def codeBits (width : Nat) (v : Nat) : List Bool :=
  (List.range width).map fun i => v.testBit (width - 1 - i)

/-- The value of a run of stream bits, the first the most significant (20 R63). -/
def bitsValue (bits : List Bool) : Nat :=
  bits.foldl (fun acc b => 2 * acc + b.toNat) 0

/-- Why a run of stream bits is no code word. -/
inductive DecodeError where
  /-- fewer bits are left than the current width: the stream ends here (41 R147, not an error of the stream) -/
  | truncatedCodeword
  deriving DecidableEq, Repr

/-- The first code word of a bit stream at a width, and the bits after it (30 R93, R94). -/
def takeCode (width : Nat) (bits : List Bool) : Except DecodeError (Nat × List Bool) :=
  if bits.length < width then .error .truncatedCodeword
  else .ok (bitsValue (bits.take width), bits.drop width)

/-- The classes of a pulled value (30 R97). -/
inductive CodeClass where
  | literal
  | clear
  | string
  | kwkwk
  | invalid
  deriving DecidableEq, Repr

/-- The class of the pulled value `v`, decided in the order of 43 R178: `CLEAR`, then `v < next_code`,
then `KWKWK`, then `INVALID`. `kwOk` says that the three side conditions of class KWKWK hold (30 R97). -/
def classify (nextCode : Nat) (kwOk : Bool) (v : Nat) : CodeClass :=
  if v = clearCode then .clear
  else if v < nextCode then (if v ≤ 255 then .literal else .string)
  else if v = nextCode ∧ kwOk = true then .kwkwk
  else .invalid

/-- The instruction of a class with its value. -/
def classInstr (c : CodeClass) (v : Nat) : Instr :=
  match c with
  | .literal => .literal (BitVec.ofNat 8 v)
  | .clear => .clear
  | .string => .string v
  | .kwkwk => .kwkwk v
  | .invalid => .invalid v

/-- The value a code word of the row carries; the other formats carry none. -/
def codeValue : Instr → Option Nat
  | .literal v => some v.toNat
  | .clear => some clearCode
  | .string v => some v
  | .kwkwk v => some v
  | .invalid v => some v
  | _ => none

/-- The stream bits of a code-word instruction at a width (30 R93). -/
def encodeCodeword (width : Nat) (i : Instr) : Option (List Bool) :=
  (codeValue i).map (codeBits width)

/-- The code word at the head of a bit stream, as the decoder's state classifies it (30 R94, R97). -/
def decodeCodeword (width : Nat) (nextCode : Nat) (kwOk : Bool) (bits : List Bool) :
    Except DecodeError (Instr × List Bool) :=
  match takeCode width bits with
  | .error e => .error e
  | .ok (v, rest) => .ok (classInstr (classify nextCode kwOk v) v, rest)

end Sys2Proof
end

