-- ==== Sys2Proof/Config.lean ====
section
/-! DEFINITION. What an implementation fixes (spec/00_scope.md R7) and the free values: values the spec leaves open, which no proof can see. -/

namespace Sys2Proof.Config

/-- The build-time parameters of the block (00 R7). They are no engine state (10 R47); the model holds
them beside the engines, so that a statement about every state is a statement about every build. -/
structure Build where
  /-- `MAXW`, the largest value `code_width` may take -/
  maxw : Nat
  /-- `WBUFW`, the capacity in bits of `write_buffer`; not observable -/
  wbufw : Nat
  /-- `RBUFW`, the capacity in bits of `read_buffer`; not observable -/
  rbufw : Nat
  /-- `CTRW`, the width in bits of each byte counter -/
  ctrw : Nat
  deriving DecidableEq, Repr

/-- The stated defaults (00 R7). -/
def defaultBuild : Build := { maxw := 24, wbufw := 64, rbufw := 64, ctrw := 64 }

/-- The constraints 00 R7 puts on the parameters. -/
abbrev Build.Legal (B : Build) : Prop :=
  9 ≤ B.maxw ∧ B.maxw ≤ 27 ∧ 2 * B.maxw ≤ B.wbufw ∧ 2 * B.maxw ≤ B.rbufw ∧ 1 ≤ B.ctrw

/-- FREE VALUE (log 9): the sequence `seq(k)` of a code that has no entry; `DICT.SEQ` is a partial
function with domain `dom(tab)` (40 R130, R131). -/
opaque absentSeq : Nat → List Byte

/-- FREE VALUE (log 9): `tab[n].first` of a node that has no entry. -/
opaque absentFirst : NodeId → Byte

/-- FREE VALUE (log 9): `tab[n].len` of a node that has no entry. -/
opaque absentLen : NodeId → Nat

/-- FREE VALUE (log 3): the numbered scalar of a destroyed engine (10 R49, 93 U1), drawn at a count. -/
opaque freeNat : EngineId → Nat → Nat → Nat

/-- FREE VALUE (log 3): the cursor or previous code of a destroyed engine. -/
opaque freeNode : EngineId → Nat → NodeId

/-- FREE VALUE (log 3): what the code table of a destroyed engine holds. -/
opaque freeTable : EngineId → Nat → List (Nat × Entry)

/-- FREE VALUE (log 4): what a host register 3 to 12 of an engine in `UNINIT` reads as (10 R42). -/
opaque uninitRead : EngineId → Nat → BitVec 4 → Word

end Sys2Proof.Config
end

