-- ==== Sys2Proof/Machine/State.lean ====
section
/-! DEFINITION. The state of the block, all of it plain data (spec/10_state.md), the reasons a step can stop, and the state after hardware reset. -/

namespace Sys2Proof.Machine

/-- `ST`, the lifecycle state of an engine (10 R35). -/
inductive Lifecycle where
  | uninit
  | ready
  | done
  | error
  deriving DecidableEq, Repr

/-- `RSN`, the refusal reason (10 R37, 60 R211). -/
inductive Reason where
  | none
  | illegalOpcode
  | wrongState
  | badConfig
  deriving DecidableEq, Repr

/-- `ERR`, the error kind (60 R206). `resourceError` is named by the spec and never raised (60 R209). -/
inductive ErrKind where
  | none
  | protocolViolation
  | capacityViolation
  | resourceError
  deriving DecidableEq, Repr

/-- The code table: (code, entry) pairs, codes strictly rising (`Table.wf`); a code not listed has no entry (10 R30). -/
abbrev Table := List (Nat × Entry)

/-- A dictionary: its three scalars and its table (10 R21 to R23, R30). The edge map `child` is the same
relation as `tab` (10 R32, R46) and is computed from it. -/
structure Dict where
  codeWidth : Nat
  nextCode : Nat
  maxCode : Nat
  tab : Table
  deriving DecidableEq, Repr

/-- One event at an engine's byte ports: the order of these is host-visible (00 R16, 20 R73). -/
inductive PortEvent where
  /-- `SRC.read` returned this byte -/
  | gave (b : Byte)
  /-- `SRC.read` returned `None` -/
  | ended
  /-- `SNK.write` of this byte -/
  | wrote (b : Byte)
  deriving DecidableEq, Repr

/-- The far side of an engine's two byte ports (20 R66, R67): the source's bytes and read position, the
bytes the sink has received, and every event at the two ports in the order it happened (00 R16; log 22). -/
structure Port where
  src : List Byte
  pos : Nat
  snk : List Byte
  /-- oldest first; the events of one command are what it appends -/
  events : List PortEvent
  deriving DecidableEq, Repr

/-- The state of one engine (10 R20, R40, R41). -/
structure Engine where
  dict : Dict
  /-- `E.cursor` (10 R25), `D.prev_code` (10 R26) -/
  node : NodeId
  /-- `E.wbuf` (10 R27), `D.rbuf` (10 R28) -/
  buf : Nat
  /-- `E.wbits` (10 R27), `D.rbits` (10 R28) -/
  bits : Nat
  /-- `bytes_read` (10 R29), wraps modulo `2^CTRW` -/
  bytesRead : Nat
  /-- `bytes_written` (10 R29), wraps modulo `2^CTRW` -/
  bytesWritten : Nat
  st : Lifecycle
  eoi : Bool
  refused : Bool
  rsn : Reason
  err : ErrKind
  /-- `RESULT` (10 R38) -/
  result : Word
  /-- `ERRINFO` (10 R39) -/
  errinfo : Word
  port : Port
  deriving DecidableEq, Repr

/-- The tagged value an internal primitive returns (00 R14), kept when the primitive is run as an
instruction of its own (log 7). The model's own; no rule of the spec reads it. -/
inductive PrimResult where
  /-- no primitive has been run on its own yet -/
  | idle
  /-- the primitive returns no value -/
  | unit
  | matched (n : Nat)
  | inserted (k : Nat)
  | full
  | someVal (v : Nat)
  | noneVal
  | decoded
  | cleared
  | endOfStream
  /-- the byte sequence of `DICT.SEQ` -/
  | bytes (s : List Byte)
  /-- a `raise` ended the primitive (00 R13) -/
  | raised
  deriving DecidableEq, Repr

/-- The state: the two engines (10 R20, R46), the build parameters (00 R7), the command words that wait
on the command port (log 5), and the model's own `ret` (log 7) and `free` (log 3). -/
structure State where
  build : Config.Build
  enc : Engine
  dec : Engine
  cmds : List Word
  ret : PrimResult
  free : Nat
  deriving DecidableEq, Repr

/-- How an operation of one engine ends: with a value, or by a `raise` (00 R13), which has then already
entered the error state. -/
inductive Res (α : Type) where
  | ok (a : α) (g : Engine)
  | raised (g : Engine)

/-- The reasons the machine can stop. There is none: the spec gives every command one of three outcomes
(60 R205), a fatal error and a refusal of the block among them, and each is a next state. -/
inductive Fault where
  deriving DecidableEq, Repr

/-- The reasons the model gives no meaning. -/
inductive Refusal where
  /-- An arm of `exec` whose instruction has no meaning yet, by its mnemonic (safe). No arm is left so. -/
  | notModelled (mnemonic : String)
  deriving DecidableEq, Repr

/-- An engine after hardware reset: `ST = UNINIT`, flags, `RESULT` and `ERRINFO` zero (10 R49). Every
other field is unspecified there; the values here are the model's choice (log 2). -/
def Engine.reset : Engine where
  dict := { codeWidth := 0, nextCode := 0, maxCode := 0, tab := [] }
  node := none
  buf := 0
  bits := 0
  bytesRead := 0
  bytesWritten := 0
  st := .uninit
  eoi := false
  refused := false
  rsn := .none
  err := .none
  result := 0
  errinfo := 0
  port := { src := [], pos := 0, snk := [], events := [] }

/-- The machine right after hardware reset (10 R49), built with the default parameters (00 R7), empty
ports bound (log 6), no command waiting (log 5). -/
def State.reset : State where
  build := Config.defaultBuild
  enc := Engine.reset
  dec := Engine.reset
  cmds := []
  ret := .idle
  free := 0

end Sys2Proof.Machine
end

