-- ==== Sys2Proof/Machine/Ops.lean ====
section
/-! DEFINITION. The named operations on tables, ports and engines that every meaning is built from, entering the error state among them. -/

namespace Sys2Proof.Machine

/-! ### The code table (10 R30, R32) -/

/-- `tab[k]`, if `k` has an entry. -/
def Table.find : Table → Nat → Option Entry
  | [], _ => none
  | (j, e) :: t, k => if j = k then some e else Table.find t k

/-- `tab[k] <- e`, keeping the codes strictly rising. -/
def Table.put : Table → Nat → Entry → Table
  | [], k, e => [(k, e)]
  | (j, f) :: t, k, e =>
    if k < j then (k, e) :: (j, f) :: t
    else if k = j then (k, e) :: t
    else (j, f) :: Table.put t k e

/-- `child[n][b]`: the code whose entry extends node `n` by byte `b` (10 R32). -/
def Table.child : Table → NodeId → Byte → Option Nat
  | [], _, _ => none
  | (k, e) :: t, n, b => if e.parent = n ∧ e.last = b then some k else Table.child t n b

/-- The table's canonical form: codes strictly rising. -/
abbrev Table.wf (t : Table) : Prop := t.Pairwise fun p q => p.1 < q.1

/-- The table that holds the listed entries, in canonical form. -/
def Table.ofList (l : List (Nat × Entry)) : Table :=
  l.foldl (fun t p => Table.put t p.1 p.2) []

/-! ### The byte ports (20 R66, R67) -/

/-- `SRC.read()`: the next byte and the source after it; `None` at the end, for ever (20 R66). Either way it
is one event (00 R16). -/
def Port.read (p : Port) : Option Byte × Port :=
  match p.src[p.pos]? with
  | some b => (some b, { p with pos := p.pos + 1, events := p.events ++ [.gave b] })
  | none => (none, { p with events := p.events ++ [.ended] })

/-- `SNK.write(b)`: never fails (20 R67), and is one event (00 R16). -/
def Port.write (p : Port) (b : Byte) : Port :=
  { p with snk := p.snk ++ [b], events := p.events ++ [.wrote b] }

/-- A byte counter's increment, modulo `2^CTRW` (10 R29). -/
def countUp (B : Config.Build) (n : Nat) : Nat := (n + 1) % 2 ^ B.ctrw

/-- A read of the engine's source that counts the byte it gets in `bytes_read`; a `None` does not count (10 R29). -/
def Engine.takeByte (B : Config.Build) (g : Engine) : Option Byte × Engine :=
  match g.port.read with
  | (some b, p) => (some b, { g with port := p, bytesRead := countUp B g.bytesRead })
  | (none, p) => (none, { g with port := p })

/-- A write to the engine's sink, counted in `bytes_written` (10 R29). -/
def Engine.emit (B : Config.Build) (g : Engine) (b : Byte) : Engine :=
  { g with port := g.port.write b, bytesWritten := countUp B g.bytesWritten }

/-- The bytes of a sequence, written one by one, first byte first (43 R177, R179). -/
def Engine.emitAll (B : Config.Build) (g : Engine) (s : List Byte) : Engine :=
  s.foldl (Engine.emit B) g

/-! ### Entering the error state (60 R212)

The one way the block takes an exception. Nothing is saved and there is no handler to enter; there is no
return either: an engine leaves `ERROR` only by an `*_INIT` or `*_DESTROY` command (60 R218). -/

/-- `raise X(info)`: `ERR`, `ERRINFO` and `ST` are written, all else keeps its value (60 R212). -/
def Engine.raise (x : ErrKind) (info : Nat) (g : Engine) : Engine :=
  { g with err := x, errinfo := BitVec.ofNat 32 info, st := .error }

/-- The engine an operation leaves, however it ended. -/
def Res.engine {α : Type} : Res α → Engine
  | .ok _ g => g
  | .raised g => g

/-! ### The engines in the state -/

/-- One of the two engines. -/
def State.eng (s : State) : EngineId → Engine
  | .enc => s.enc
  | .dec => s.dec

/-- The state with one engine replaced; the other is untouched (10 R46). -/
def State.setEng (s : State) (z : EngineId) (g : Engine) : State :=
  match z with
  | .enc => { s with enc := g }
  | .dec => { s with dec := g }

/-- A host command on one engine. -/
def State.onEng (s : State) (z : EngineId) (f : Engine → Engine) : State :=
  s.setEng z (f (s.eng z))

/-- A code-word row run as an instruction: the decoder it leaves, the returned tag dropped (log 10). -/
def State.afterCode {α : Type} (s : State) (r : Res α) : State :=
  s.setEng .dec r.engine

/-- An internal primitive run as an instruction: the engine it leaves and the tagged value it returned (log 7, log 8). -/
def State.afterPrim (s : State) (z : EngineId) (r : Res PrimResult) : State :=
  match r with
  | .ok a g => { s.setEng z g with ret := a }
  | .raised g => { s.setEng z g with ret := .raised }

/-! ### Destruction and hardware reset (10 R49, R52, 70 R235, R236) -/

/-- The capacity in bits of an engine's bit buffer (00 R7). -/
def bufCapacity (B : Config.Build) : EngineId → Nat
  | .enc => B.wbufw
  | .dec => B.rbufw

/-- The hardware-reset state of an engine (10 R49): `ST`, flags, `RESULT`, `ERRINFO` as stated there,
every unspecified field a free value of its width (log 3). The ports are not touched (70 R236). -/
def Engine.unspecified (B : Config.Build) (z : EngineId) (count : Nat) (p : Port) : Engine where
  dict :=
    { codeWidth := Config.freeNat z count 0 % 2 ^ 5
      nextCode := Config.freeNat z count 1 % 2 ^ (B.maxw + 1)
      maxCode := Config.freeNat z count 2 % 2 ^ 28
      tab := Table.ofList (Config.freeTable z count) }
  node := Config.freeNode z count
  buf := Config.freeNat z count 3 % 2 ^ bufCapacity B z
  bits := Config.freeNat z count 4 % (bufCapacity B z + 1)
  bytesRead := Config.freeNat z count 5 % 2 ^ B.ctrw
  bytesWritten := Config.freeNat z count 6 % 2 ^ B.ctrw
  st := .uninit
  eoi := false
  refused := false
  rsn := .none
  err := .none
  result := 0
  errinfo := 0
  port := p

/-- `Z <- the hardware-reset state` (42 R164, 43 R190), and the count of free draws advanced. -/
def State.destroy (s : State) (z : EngineId) : State :=
  { s.setEng z (Engine.unspecified s.build z s.free (s.eng z).port) with free := s.free + 1 }

/-- Hardware reset of both engines, an event from outside (70 R235; log 15); no port is touched (70 R236). -/
def State.hwReset (s : State) : State := (s.destroy .enc).destroy .dec

/-! ### The command port (20 R60, 30 R99; log 5) -/

/-- The command word the host issues next, if any, and the state without it. -/
def State.takeCommand (s : State) : Option (Word × State) :=
  match s.cmds with
  | [] => none
  | w :: ws => some (w, { s with cmds := ws })

end Sys2Proof.Machine
end

