-- ==== Sys2Proof/Machine/Bitstream.lean ====
section
/-! DEFINITION. The Bit Stream Codec (spec/41_bitstream.md): BW.PUSH, BW.FLUSH on the encoder, BR.PULL on the decoder. -/

namespace Sys2Proof.Machine

/-! ### BitWriter -/

/-- The byte of the 8 oldest bits of an accumulator of `n` bits (41 R142). -/
def topByte (buf n : Nat) : Byte := BitVec.ofNat 8 (buf >>> (n - 8))

/-- The drain loop of `BW.PUSH` (41 R142): whole bytes leave, oldest first, at most `fuel` of them. -/
def Engine.drain (B : Config.Build) : Nat → Engine → Engine
  | 0, g => g
  | fuel + 1, g =>
    if 8 ≤ g.bits then
      Engine.drain B fuel
        { g.emit B (topByte g.buf g.bits) with
          bits := g.bits - 8
          buf := g.buf % 2 ^ (g.bits - 8) }
    else g

/-- `width` bits of `value` appended to the accumulator (41 R142). -/
def Engine.append (value width : Nat) (g : Engine) : Engine :=
  { g with buf := g.buf * 2 ^ width + value, bits := g.bits + width }

/-- `BW.PUSH(value, width)` (41 R142): `raise CapacityViolation(value)` on a violated precondition (41 R143).
The drain loop runs once for each whole byte held. -/
def Engine.push (B : Config.Build) (g : Engine) (value width : Nat) : Res Unit :=
  if width < 1 ∨ B.maxw < width ∨ 2 ^ width ≤ value then .raised (g.raise .capacityViolation value)
  else .ok () ((g.append value width).drain B ((g.bits + width) / 8))

/-- `BW.FLUSH` (41 R144): the valid bits on top, zeros below. -/
def Engine.flush (B : Config.Build) (g : Engine) : Engine :=
  if 0 < g.bits then
    { g.emit B (BitVec.ofNat 8 (g.buf * 2 ^ (8 - g.bits))) with bits := 0, buf := 0 }
  else g

/-! ### BitReader -/

/-- The refill loop of `BR.PULL` (41 R146): bytes are taken until `width` bits are held or the source ends. -/
def Engine.refill (B : Config.Build) (width : Nat) : Nat → Engine → Engine
  | 0, g => g
  | fuel + 1, g =>
    if g.bits < width then
      match g.takeByte B with
      | (none, g') => g'
      | (some b, g') =>
        Engine.refill B width fuel { g' with buf := g.buf * 256 + b.toNat, bits := g.bits + 8 }
    else g

/-- `BR.PULL(width)` (41 R146). At end-of-input the bytes already taken stay in the buffer and the result
is `None` (41 R147). Each round of the loop takes 8 bits, so `width` rounds suffice. -/
def Engine.pull (B : Config.Build) (width : Nat) (g : Engine) : Option Nat × Engine :=
  let g' := g.refill B width width
  if g'.bits < width then (none, g')
  else
    (some (g'.buf >>> (g'.bits - width)),
      { g' with bits := g'.bits - width, buf := g'.buf % 2 ^ (g'.bits - width) })

/-- The tagged value of `BR.PULL` and `SRC.read` (00 R14). -/
def pulledTag : Option Nat → PrimResult
  | some v => .someVal v
  | none => .noneVal

/-! ### The meanings of the rows -/

/-- `BW.PUSH` (41 R142). -/
def execBwPush (value width : Nat) (s : State) : Host.Outcome State Fault Refusal :=
  match s.enc.push s.build value width with
  | .ok _ g => .next (s.afterPrim .enc (.ok .unit g))
  | .raised g => .next (s.afterPrim .enc (.raised g))

/-- `BW.FLUSH` (41 R144). -/
def execBwFlush (s : State) : Host.Outcome State Fault Refusal :=
  .next (s.afterPrim .enc (.ok .unit (s.enc.flush s.build)))

/-- `BR.PULL` (41 R146, R147). -/
def execBrPull (width : Nat) (s : State) : Host.Outcome State Fault Refusal :=
  let r := s.dec.pull s.build width
  .next (s.afterPrim .dec (.ok (pulledTag r.1) r.2))

end Sys2Proof.Machine
end

