-- ==== Sys2Proof/Machine/Operands.lean ====
section
/-! DEFINITION. Operands: the command argument, the dictionary look-ups an operand goes through, and the host's view of a node. -/

namespace Sys2Proof.Machine

/-- The command argument as an unsigned integer (30 R101). -/
def argNat (a : BitVec 28) : Nat := a.toNat

/-- The values of `max_code` that are refused: 1 to 256 (40 R136). -/
abbrev badMaxCode (m : Nat) : Prop := 1 ≤ m ∧ m ≤ 256

/-- `full()`: `max_code ≠ 0 ∧ next_code ≥ max_code` (40 R126). -/
def Dict.full (d : Dict) : Bool := decide (d.maxCode ≠ 0 ∧ d.maxCode ≤ d.nextCode)

/-- `child[node][byte]` (10 R32). -/
def Dict.child (d : Dict) (node : NodeId) (byte : Byte) : Option Nat := Table.child d.tab node byte

/-- The entry of a node; the root has none (00 R11). -/
def Dict.entry (d : Dict) : NodeId → Option Entry
  | none => none
  | some k => Table.find d.tab k

/-- `tab[node].first`, which is `first(node)` (40 R131); a free value for a node without an entry (log 9). -/
def Dict.firstOf (d : Dict) (node : NodeId) : Byte :=
  match d.entry node with
  | some e => e.first
  | none => Config.absentFirst node

/-- `tab[node].len`; a free value for a node without an entry (log 9). -/
def Dict.lenOf (d : Dict) (node : NodeId) : Nat :=
  match d.entry node with
  | some e => e.len
  | none => Config.absentLen node

/-- The walk along the parent links (40 R131), at most `fuel` of them: `seq(ROOT) = []` and
`seq(k) = seq(tab[k].parent) ++ [tab[k].last]`. A code without an entry has a free sequence (log 9). -/
def Dict.walk (d : Dict) : Nat → NodeId → List Byte
  | _, none => []
  | 0, some k => Config.absentSeq k
  | fuel + 1, some k =>
    match Table.find d.tab k with
    | some e => Dict.walk d fuel e.parent ++ [e.last]
    | none => Config.absentSeq k

/-- `seq(k)` (40 R131). The parents of an entry have strictly smaller codes, so `k + 1` links suffice. -/
def Dict.seq (d : Dict) (k : Nat) : List Byte := d.walk (k + 1) (some k)

/-- The host's 32-bit view of a node: the code zero-extended, `0xFFFFFFFF` for `ROOT` and `NONE` (00 R11, 10 R25). -/
def nodeWord : NodeId → Word
  | none => 0xFFFFFFFF#32
  | some k => BitVec.ofNat 32 k

end Sys2Proof.Machine
end

