-- ==== Sys2Proof/Machine/Dictionary.lean ====
section
/-! DEFINITION. The Dictionary operations (spec/40_dictionary.md): DICT.INIT, DICT.EXTEND, DICT.GROW, DICT.SEQ, DICT.RESET. -/

namespace Sys2Proof.Machine

/-! ### DICT.INIT (40 R121, R122) -/

/-- The 256 one-byte entries, code `b` for the sequence `[b]` (10 R43 item 2). -/
def literalEntry (b : Nat) : Entry :=
  { parent := none, last := BitVec.ofNat 8 b, first := BitVec.ofNat 8 b, len := 1 }

/-- The table after `DICT.INIT` (10 R50). -/
def literalTable : Table := (List.range 256).map fun b => (b, literalEntry b)

/-- `DICT.INIT` in the closed form 40 R122 allows (log 12); `max_code` is not touched (40 R121). -/
def Dict.init (d : Dict) : Dict :=
  { d with codeWidth := initWidth, nextCode := firstFree, tab := literalTable }

/-! ### DICT.GROW (40 R127) -/

/-- `DICT.GROW` on the dictionary alone; `none` where it raises. -/
def Dict.grow (maxw : Nat) (d : Dict) : Option Dict :=
  if 2 ^ d.codeWidth < d.nextCode then
    if d.codeWidth = maxw then none else some { d with codeWidth := d.codeWidth + 1 }
  else some d

/-- `DICT.GROW`: `raise CapacityViolation(next_code)` where the width would exceed `MAXW` (40 R127). -/
def Engine.grow (B : Config.Build) (g : Engine) : Res Unit :=
  match g.dict.grow B.maxw with
  | some d => .ok () { g with dict := d }
  | none => .raised (g.raise .capacityViolation g.dict.nextCode)

/-- One round of `DICT.INIT`'s loop: the literal `b` takes the next code, then `DICT.GROW` (40 R121). -/
def Dict.insertLiteral (maxw : Nat) (d : Dict) (b : Nat) : Option Dict :=
  Dict.grow maxw
    { d with tab := Table.put d.tab d.nextCode (literalEntry b), nextCode := d.nextCode + 1 }

/-- `DICT.INIT` as the loop of 40 R121, which the closed form `Dict.init` replaces; `none` where it raises. -/
def Dict.initByLoop (maxw : Nat) (d : Dict) : Option Dict :=
  match (List.range 256).foldlM (Dict.insertLiteral maxw) { d with codeWidth := 1, nextCode := 0, tab := [] } with
  | some d' => Dict.grow maxw { d' with nextCode := d'.nextCode + 1 }
  | none => none

/-! ### DICT.EXTEND (40 R123) -/

/-- The three results of `DICT.EXTEND` (40 R123). -/
inductive ExtendResult where
  | matched (n : Nat)
  | inserted (k : Nat)
  | full
  deriving DecidableEq, Repr

/-- `DICT.EXTEND(node, byte)`: the three tests in the order of 40 R123. It does not change `code_width`. -/
def Dict.extend (d : Dict) (node : NodeId) (byte : Byte) : ExtendResult × Dict :=
  match d.child node byte with
  | some n => (.matched n, d)
  | none =>
    if d.full then (.full, d)
    else
      (.inserted d.nextCode,
        { d with
          tab := Table.put d.tab d.nextCode
            { parent := node, last := byte, first := d.firstOf node, len := d.lenOf node + 1 }
          nextCode := d.nextCode + 1 })

/-- The tagged value of `DICT.EXTEND` (00 R14). -/
def ExtendResult.tag : ExtendResult → PrimResult
  | .matched n => .matched n
  | .inserted k => .inserted k
  | .full => .full

/-! ### DICT.RESET (40 R133) -/

/-- `DICT.RESET: DICT.INIT`; `max_code` is kept (40 R133). -/
def Dict.reset (d : Dict) : Dict := d.init

/-! ### The meanings of the rows -/

/-- `DICT.INIT` (40 R121). -/
def execDictInit (z : EngineId) (s : State) : Host.Outcome State Fault Refusal :=
  .next (s.afterPrim z (.ok .unit { s.eng z with dict := (s.eng z).dict.init }))

/-- `DICT.EXTEND` (40 R123). -/
def execDictExtend (z : EngineId) (node : NodeId) (byte : Byte) (s : State) :
    Host.Outcome State Fault Refusal :=
  let r := (s.eng z).dict.extend node byte
  .next (s.afterPrim z (.ok r.1.tag { s.eng z with dict := r.2 }))

/-- `DICT.GROW` (40 R127). -/
def execDictGrow (z : EngineId) (s : State) : Host.Outcome State Fault Refusal :=
  match (s.eng z).grow s.build with
  | .ok _ g => .next (s.afterPrim z (.ok .unit g))
  | .raised g => .next (s.afterPrim z (.raised g))

/-- `DICT.SEQ` (40 R131): a pure function of the state; its value goes to `ret`. -/
def execDictSeq (z : EngineId) (k : Nat) (s : State) : Host.Outcome State Fault Refusal :=
  .next (s.afterPrim z (.ok (.bytes ((s.eng z).dict.seq k)) (s.eng z)))

/-- `DICT.RESET` (40 R133). -/
def execDictReset (z : EngineId) (s : State) : Host.Outcome State Fault Refusal :=
  .next (s.afterPrim z (.ok .unit { s.eng z with dict := (s.eng z).dict.reset }))

end Sys2Proof.Machine
end

