-- ==== Sys2Proof/Machine/Flags.lean ====
section
/-! DEFINITION. The flags of an engine: acceptance and refusal of a command, the EOI latch, and the STATUS word (spec/10_state.md R36, R37; spec/60_exceptions.md R211, R215). -/

namespace Sys2Proof.Machine

/-- What every accepted command does first: `REFUSED <- 0`, `RSN <- 0` (42 R155, 43 R175). -/
def Engine.accept (g : Engine) : Engine := { g with refused := false, rsn := .none }

/-- `refuse(reason)`: `REFUSED <- 1`, `RSN <- reason`, nothing else (60 R215). -/
def Engine.refuse (r : Reason) (g : Engine) : Engine := { g with refused := true, rsn := r }

/-- Flags, `RESULT` and `ERRINFO` at the values hardware reset gives them (10 R49); in `UNINIT` all but
`REFUSED` and `RSN` hold those values already. -/
def Engine.zeroFlags (g : Engine) : Engine :=
  { g with eoi := false, refused := false, rsn := .none, err := .none, result := 0, errinfo := 0 }

/-- A command whose precondition is `ST = READY`: refused `WRONG_STATE` in every other state (60 R211). -/
def Engine.whenReady (f : Engine → Engine) (g : Engine) : Engine :=
  if g.st = .ready then f g.accept else g.refuse .wrongState

/-- `EOI <- 1` (42 R162, 43 R188). -/
def Engine.latchEoi (g : Engine) : Engine := { g with eoi := true }

/-- The value of `ST` (10 R35). -/
def Lifecycle.code : Lifecycle → BitVec 2
  | .uninit => 0
  | .ready => 1
  | .done => 2
  | .error => 3

/-- The value of `RSN` (10 R37). -/
def Reason.code : Reason → BitVec 2
  | .none => 0
  | .illegalOpcode => 1
  | .wrongState => 2
  | .badConfig => 3

/-- The value of `ERR` (10 R37, 60 R206). -/
def ErrKind.code : ErrKind → BitVec 4
  | .none => 0
  | .protocolViolation => 1
  | .capacityViolation => 2
  | .resourceError => 3

/-- `STATUS` (10 R37): `ST` in 1:0, `EOI` in 2, `REFUSED` in 3, `RSN` in 5:4, `ERR` in 11:8, the rest 0. -/
def Engine.status (g : Engine) : Word :=
  0#20 ++ g.err.code ++ 0#2 ++ g.rsn.code ++ BitVec.ofBool g.refused ++ BitVec.ofBool g.eoi ++ g.st.code

end Sys2Proof.Machine
end

