-- ==== Sys2Proof/Machine/Encoder.lean ====
section
/-! DEFINITION. The Encoder (spec/42_encoder.md): ENC.BYTE, ENC.PENDING, ENC_INIT, ENC_CHUNK, ENC_END, ENC_DESTROY; and the initial engine state both INIT commands give. -/

namespace Sys2Proof.Machine

/-! ### What `ENC_INIT` and `DEC_INIT` leave (10 R50, 42 R156, 43 R176) -/

/-- A fresh engine with the given `max_code`: everything but the ports is written (10 R50, 70 R236). -/
def Engine.fresh (m : Nat) (g : Engine) : Engine where
  dict := Dict.init { g.dict with maxCode := m }
  node := none
  buf := 0
  bits := 0
  bytesRead := 0
  bytesWritten := 0
  st := .ready
  eoi := false
  refused := false
  rsn := .none
  err := .none
  result := 0
  errinfo := 0
  port := g.port

/-- An `*_INIT` command: refused `BAD_CONFIG` for 1 to 256, accepted in every lifecycle state (42 R156). -/
def Engine.initCmd (m : Nat) (g : Engine) : Engine :=
  if badMaxCode m then g.refuse .badConfig else g.fresh m

/-! ### ENC.BYTE (42 R157, R158) -/

/-- The emission of the cursor's code at the current width; skipped at the root (42 R157, R159, R160). -/
def Engine.emitCursor (B : Config.Build) (g : Engine) : Res Unit :=
  match g.node with
  | some k => g.push B k g.dict.codeWidth
  | none => .ok () g

/-- `DICT.GROW` where the extend inserted, nothing where it did not (42 R157). -/
def Engine.growIfInserted (B : Config.Build) (r : ExtendResult) (g : Engine) : Res Unit :=
  match r with
  | .inserted _ => g.grow B
  | .matched _ => .ok () g
  | .full => .ok () g

/-- The restart of the match at `c`: `cursor <- ROOT`, `DICT.EXTEND(ROOT, c)`, `cursor <- c` (42 R157). -/
def Engine.restart (c : Byte) (g : Engine) : Engine :=
  { g with dict := (g.dict.extend none c).2, node := some c.toNat }

/-- The emission step of `ENC.BYTE` after an extend that did not match: emission at the width before any
growth, growth, restart, in that order (42 R158). A `raise` stops it where it stands (00 R13). -/
def Engine.emitAndRestart (B : Config.Build) (r : ExtendResult) (c : Byte) (g : Engine) : Res Unit :=
  match g.emitCursor B with
  | .raised g1 => .raised g1
  | .ok _ g1 =>
    match g1.growIfInserted B r with
    | .raised g2 => .raised g2
    | .ok _ g2 => .ok () (g2.restart c)

/-- `ENC.BYTE(c)` (42 R157). -/
def Engine.encByte (B : Config.Build) (c : Byte) (g : Engine) : Res Unit :=
  match g.dict.extend g.node c with
  | (.matched n, _) => .ok () { g with node := some n }
  | (r, d) => ({ g with dict := d } : Engine).emitAndRestart B r c

/-! ### ENC.PENDING (42 R160) -/

/-- `ENC.PENDING` (42 R160): the emission of the cursor's code, if any, and `cursor <- ROOT`; no insertion
and no growth accompany it. -/
def Engine.encPending (B : Config.Build) (g : Engine) : Res Unit :=
  match g.emitCursor B with
  | .ok _ g' => .ok () { g' with node := none }
  | .raised g' => .raised g'

/-! ### ENC_CHUNK (42 R161) -/

/-- The loop of `ENC_CHUNK` with `left` rounds to go and `count` bytes done. A `None` latches `EOI`,
which ends the loop; a `raise` ends the command (42 R161, R162). -/
def Engine.encLoop (B : Config.Build) : Nat → Nat → Engine → Engine
  | 0, _, g => g
  | left + 1, count, g =>
    if g.eoi then g
    else
      match g.takeByte B with
      | (none, g1) => g1.latchEoi
      | (some c, g1) =>
        match g1.encByte B c with
        | .raised g2 => g2
        | .ok _ g2 =>
          Engine.encLoop B left (count + 1) { g2 with result := BitVec.ofNat 32 (count + 1) }

/-- `ENC_CHUNK n` in `READY` (42 R161). -/
def Engine.encChunk (B : Config.Build) (n : Nat) (g : Engine) : Engine :=
  Engine.encLoop B n 0 { g with result := 0 }

/-! ### ENC_END (42 R163) -/

/-- `ENC_END` in `READY`: pending code, pad, `ST <- DONE` (42 R163). -/
def Engine.encEnd (B : Config.Build) (g : Engine) : Engine :=
  match g.encPending B with
  | .raised g' => g'
  | .ok _ g' => { g'.flush B with st := .done }

/-! ### The meanings of the rows -/

/-- `ENC_INIT max_code` (42 R156). -/
def execEncInit (maxCode : BitVec 28) (s : State) : Host.Outcome State Fault Refusal :=
  .next (s.onEng .enc (Engine.initCmd (argNat maxCode)))

/-- `ENC_CHUNK max_bytes` (42 R161). -/
def execEncChunk (maxBytes : BitVec 28) (s : State) : Host.Outcome State Fault Refusal :=
  .next (s.onEng .enc (Engine.whenReady (Engine.encChunk s.build (argNat maxBytes))))

/-- `ENC_END` (42 R163); the argument is ignored (30 R103). -/
def execEncEnd (_arg : BitVec 28) (s : State) : Host.Outcome State Fault Refusal :=
  .next (s.onEng .enc (Engine.whenReady (Engine.encEnd s.build)))

/-- `ENC_DESTROY` (42 R164): accepted in every lifecycle state; the argument is ignored (30 R103). In
`UNINIT` it changes only `REFUSED` and `RSN` (42 R164), so the unspecified fields are not drawn again. -/
def execEncDestroy (_arg : BitVec 28) (s : State) : Host.Outcome State Fault Refusal :=
  if s.enc.st = .uninit then .next (s.onEng .enc Engine.zeroFlags)
  else .next (s.destroy .enc)

/-- `ENC.BYTE` (42 R157). -/
def execEncByte (c : Byte) (s : State) : Host.Outcome State Fault Refusal :=
  match s.enc.encByte s.build c with
  | .ok _ g => .next (s.afterPrim .enc (.ok .unit g))
  | .raised g => .next (s.afterPrim .enc (.raised g))

/-- `ENC.PENDING` (42 R160). -/
def execEncPending (s : State) : Host.Outcome State Fault Refusal :=
  match s.enc.encPending s.build with
  | .ok _ g => .next (s.afterPrim .enc (.ok .unit g))
  | .raised g => .next (s.afterPrim .enc (.raised g))

end Sys2Proof.Machine
end

