-- ==== Sys2Proof/Machine/ClearCode.lean ====
section
/-! DEFINITION. The clear-code protocol (spec/44_clear_code.md): ENC_CLEAR and DEC.CLEAR. -/

namespace Sys2Proof.Machine

/-- `ENC_CLEAR` in `READY` (44 R196): no effect once the input is exhausted (44 R197); else the pending
code, the code 256 at the current width, the pad (44 R198), the dictionary reset. -/
def Engine.encClear (B : Config.Build) (g : Engine) : Engine :=
  if g.eoi then g
  else
    match g.encPending B with
    | .raised g1 => g1
    | .ok _ g1 =>
      match g1.push B clearCode g1.dict.codeWidth with
      | .raised g2 => g2
      | .ok _ g2 =>
        let g3 := g2.flush B
        { g3 with dict := g3.dict.reset, node := none }

/-- `DEC.CLEAR` (44 R199): the dictionary reset, `prev_code <- NONE`, the pad discarded. -/
def Engine.decClear (g : Engine) : Engine :=
  { g with dict := g.dict.reset, node := none, buf := 0, bits := 0 }

/-- `ENC_CLEAR` (44 R196); the argument is ignored (30 R103). -/
def execEncClear (_arg : BitVec 28) (s : State) : Host.Outcome State Fault Refusal :=
  .next (s.onEng .enc (Engine.whenReady (Engine.encClear s.build)))

/-- The code word `CLEAR` received by the decoder (44 R199). -/
def execClear (s : State) : Host.Outcome State Fault Refusal :=
  .next (s.afterCode (.ok () s.dec.decClear))

/-- `DEC.CLEAR` (44 R199). -/
def execDecClear (s : State) : Host.Outcome State Fault Refusal :=
  .next (s.afterPrim .dec (.ok .unit s.dec.decClear))

end Sys2Proof.Machine
end

