-- ==== Sys2Proof/Machine/Decoder.lean ====
section
/-! DEFINITION. The Decoder (spec/43_decoder.md): DEC.STEP and the code-word classes, DEC.GROW, DEC_INIT, DEC_CHUNK, DEC_DESTROY. -/

namespace Sys2Proof.Machine

/-! ### DEC.GROW (43 R182, R183) -/

/-- `DEC.GROW`: one insertion earlier than `DICT.GROW`, and not when the dictionary is full (43 R182, R183). -/
def Engine.decGrow (B : Config.Build) (g : Engine) : Res Unit :=
  if g.dict.full = false ∧ 2 ^ g.dict.codeWidth ≤ g.dict.nextCode then
    if g.dict.codeWidth = B.maxw then .raised (g.raise .capacityViolation g.dict.nextCode)
    else .ok () { g with dict := { g.dict with codeWidth := g.dict.codeWidth + 1 } }
  else .ok () g

/-! ### The code-word classes (30 R97) -/

/-- `first(prev_code)` (40 R131). -/
def Engine.firstPrev (g : Engine) : Byte := g.dict.firstOf g.node

/-- The three side conditions of class KWKWK (30 R97, 43 R181). -/
def Engine.kwkwkAllowed (g : Engine) : Bool :=
  g.node.isSome && !g.dict.full && (g.dict.child g.node g.firstPrev).isNone

/-- The class of a pulled value against the decoder's state before the step (43 R178). -/
def Engine.classOf (g : Engine) (v : Nat) : CodeClass :=
  classify g.dict.nextCode g.kwkwkAllowed v

/-- The result of `DEC.STEP` (00 R14). -/
inductive StepResult where
  | decoded
  | cleared
  | endOfStream
  deriving DecidableEq, Repr

/-- The end of a step that decoded the data code `v`: `prev_code <- v` (43 R184), `DEC.GROW` (43 R182). -/
def Engine.finishCode (B : Config.Build) (v : Nat) (g : Engine) : Res StepResult :=
  match ({ g with node := some v } : Engine).decGrow B with
  | .ok _ g' => .ok .decoded g'
  | .raised g' => .raised g'

/-- The mirrored insertion `DICT.EXTEND(prev_code, b)`, if there is a previous code (43 R180). -/
def Engine.mirror (b : Byte) (g : Engine) : Engine :=
  match g.node with
  | none => g
  | some p => { g with dict := (g.dict.extend (some p) b).2 }

/-- Classes LITERAL and STRING: a table look-up (43 R177, R179, R180). `s[0]` of an empty sequence, which
only a code without an entry can have, is a free value (log 9). -/
def Engine.lookupCode (B : Config.Build) (v : Nat) (g : Engine) : Res StepResult :=
  let s := g.dict.seq v
  ((g.emitAll B s).mirror (s.headD (Config.absentFirst (some v)))).finishCode B v

/-- Class KWKWK: `seq(prev_code) ++ [first(prev_code)]` is written and inserted (43 R177, R181). With no
previous code `seq(ROOT) = []`; the class does not occur then (30 R97). -/
def Engine.kwkwkCode (B : Config.Build) (v : Nat) (g : Engine) : Res StepResult :=
  let s := (match g.node with
    | some p => g.dict.seq p
    | none => []) ++ [g.firstPrev]
  ((g.emitAll B s).mirror g.firstPrev).finishCode B v

/-- Class INVALID: `raise ProtocolViolation(v)`, before every effect of the code (43 R185, R186). -/
def Engine.invalidCode (v : Nat) (g : Engine) : Res StepResult :=
  .raised (g.raise .protocolViolation v)

/-- The decoder's step on the pulled value `v`, after the pull (43 R177). -/
def Engine.codeWord (B : Config.Build) (v : Nat) (g : Engine) : Res StepResult :=
  match g.classOf v with
  | .clear => .ok .cleared g.decClear
  | .literal => g.lookupCode B v
  | .string => g.lookupCode B v
  | .kwkwk => g.kwkwkCode B v
  | .invalid => g.invalidCode v

/-! ### DEC.STEP (43 R177, R178) -/

/-- `DEC.STEP`: the pull at `code_width`, end of stream if there is none (43 R188), else the code word. -/
def Engine.decStep (B : Config.Build) (g : Engine) : Res StepResult :=
  match g.pull B g.dict.codeWidth with
  | (none, g') => .ok .endOfStream g'
  | (some v, g') => g'.codeWord B v

/-- The tagged value of `DEC.STEP` (00 R14). -/
def StepResult.tag : StepResult → PrimResult
  | .decoded => .decoded
  | .cleared => .cleared
  | .endOfStream => .endOfStream

/-! ### DEC_CHUNK (43 R189) -/

/-- The loop of `DEC_CHUNK` with `left` rounds to go and `count` code words done (43 R188, R189). -/
def Engine.decLoop (B : Config.Build) : Nat → Nat → Engine → Engine
  | 0, _, g => g
  | left + 1, count, g =>
    if g.st = .ready then
      match g.decStep B with
      | .raised g' => g'
      | .ok .endOfStream g' => { g'.latchEoi with st := .done }
      | .ok .decoded g' =>
        Engine.decLoop B left (count + 1) { g' with result := BitVec.ofNat 32 (count + 1) }
      | .ok .cleared g' =>
        Engine.decLoop B left (count + 1) { g' with result := BitVec.ofNat 32 (count + 1) }
    else g

/-- `DEC_CHUNK n` in `READY` (43 R189). -/
def Engine.decChunk (B : Config.Build) (n : Nat) (g : Engine) : Engine :=
  Engine.decLoop B n 0 { g with result := 0 }

/-! ### The meanings of the rows -/

/-- `DEC_INIT max_code` (43 R176). -/
def execDecInit (maxCode : BitVec 28) (s : State) : Host.Outcome State Fault Refusal :=
  .next (s.onEng .dec (Engine.initCmd (argNat maxCode)))

/-- `DEC_CHUNK max_codes` (43 R189). -/
def execDecChunk (maxCodes : BitVec 28) (s : State) : Host.Outcome State Fault Refusal :=
  .next (s.onEng .dec (Engine.whenReady (Engine.decChunk s.build (argNat maxCodes))))

/-- `DEC_DESTROY` (43 R190): accepted in every lifecycle state; the argument is ignored (30 R103). -/
def execDecDestroy (_arg : BitVec 28) (s : State) : Host.Outcome State Fault Refusal :=
  .next (s.destroy .dec)

/-- The code word `LITERAL v` (43 R179). Every value up to 255 is a LITERAL while `next_code` is above
it, which 10 R43 item 1 secures; in a state without that, the value's own class decides (log 10). -/
def execLiteral (v : Byte) (s : State) : Host.Outcome State Fault Refusal :=
  if s.dec.classOf v.toNat = .literal then .next (s.afterCode (s.dec.lookupCode s.build v.toNat))
  else .next (s.afterCode (s.dec.codeWord s.build v.toNat))

/-- The code word `STRING v` (43 R179). A value that is no STRING in this state has the class 30 R97 gives it (log 10). -/
def execString (v : Nat) (s : State) : Host.Outcome State Fault Refusal :=
  if s.dec.classOf v = .string then .next (s.afterCode (s.dec.lookupCode s.build v))
  else .next (s.afterCode (s.dec.codeWord s.build v))

/-- The code word `KWKWK v` (43 R181). A value that is no KWKWK in this state has the class 30 R97 gives it (log 10). -/
def execKwkwk (v : Nat) (s : State) : Host.Outcome State Fault Refusal :=
  if s.dec.classOf v = .kwkwk then .next (s.afterCode (s.dec.kwkwkCode s.build v))
  else .next (s.afterCode (s.dec.codeWord s.build v))

/-- The code word `INVALID v` (43 R185, R186). A value that is not INVALID in this state has the class 30 R97 gives it (log 10). -/
def execInvalid (v : Nat) (s : State) : Host.Outcome State Fault Refusal :=
  if s.dec.classOf v = .invalid then .next (s.afterCode (s.dec.invalidCode v))
  else .next (s.afterCode (s.dec.codeWord s.build v))

/-- `DEC.STEP` (43 R177). -/
def execDecStep (s : State) : Host.Outcome State Fault Refusal :=
  match s.dec.decStep s.build with
  | .ok r g => .next (s.afterPrim .dec (.ok r.tag g))
  | .raised g => .next (s.afterPrim .dec (.raised g))

/-- `DEC.GROW` (43 R182). -/
def execDecGrow (s : State) : Host.Outcome State Fault Refusal :=
  match s.dec.decGrow s.build with
  | .ok _ g => .next (s.afterPrim .dec (.ok .unit g))
  | .raised g => .next (s.afterPrim .dec (.raised g))

end Sys2Proof.Machine
end

