-- ==== Sys2Proof/Machine/Ports.lean ====
section
/-! DEFINITION. The port primitives run on their own (spec/20_memory.md R66, R67); each records its event (spec/00_scope.md R16). The counters are written by the operations that call them (spec/10_state.md R29), not by the primitives. -/

namespace Sys2Proof.Machine

/-- `SRC.read` (20 R66). -/
def execSrcRead (z : EngineId) (s : State) : Host.Outcome State Fault Refusal :=
  let r := (s.eng z).port.read
  .next (s.afterPrim z (.ok (pulledTag (r.1.map BitVec.toNat)) { s.eng z with port := r.2 }))

/-- `SNK.write` (20 R67). -/
def execSnkWrite (z : EngineId) (b : Byte) (s : State) : Host.Outcome State Fault Refusal :=
  .next (s.afterPrim z (.ok .unit { s.eng z with port := (s.eng z).port.write b }))

end Sys2Proof.Machine
end

