-- ==== Sys2Proof/Machine/Reserved.lean ====
section
/-! DEFINITION. The reserved command opcodes (spec/30_encoding.md R102): refused with ILLEGAL_OPCODE in the engine that bit 31 selects, nothing else. -/

namespace Sys2Proof.Machine

/-- The refusal of a reserved opcode in engine `z` (30 R102, 60 R215). -/
def State.refuseOpcode (s : State) (z : EngineId) : State :=
  s.onEng z (Engine.refuse .illegalOpcode)

/-- `RESERVED_0` (30 R102), op `0x0`, recorded in `E`. -/
def execReserved0 (_arg : BitVec 28) (s : State) : Host.Outcome State Fault Refusal :=
  .next (s.refuseOpcode .enc)

/-- `RESERVED_6` (30 R102), op `0x6`, recorded in `E`. -/
def execReserved6 (_arg : BitVec 28) (s : State) : Host.Outcome State Fault Refusal :=
  .next (s.refuseOpcode .enc)

/-- `RESERVED_7` (30 R102), op `0x7`, recorded in `E`. -/
def execReserved7 (_arg : BitVec 28) (s : State) : Host.Outcome State Fault Refusal :=
  .next (s.refuseOpcode .enc)

/-- `RESERVED_8` (30 R102), op `0x8`, recorded in `D`. -/
def execReserved8 (_arg : BitVec 28) (s : State) : Host.Outcome State Fault Refusal :=
  .next (s.refuseOpcode .dec)

/-- `RESERVED_B` (30 R102), op `0xB`, recorded in `D`. -/
def execReservedB (_arg : BitVec 28) (s : State) : Host.Outcome State Fault Refusal :=
  .next (s.refuseOpcode .dec)

/-- `RESERVED_C` (30 R102), op `0xC`, recorded in `D`. -/
def execReservedC (_arg : BitVec 28) (s : State) : Host.Outcome State Fault Refusal :=
  .next (s.refuseOpcode .dec)

/-- `RESERVED_E` (30 R102), op `0xE`, recorded in `D`. -/
def execReservedE (_arg : BitVec 28) (s : State) : Host.Outcome State Fault Refusal :=
  .next (s.refuseOpcode .dec)

/-- `RESERVED_F` (30 R102), op `0xF`, recorded in `D`. -/
def execReservedF (_arg : BitVec 28) (s : State) : Host.Outcome State Fault Refusal :=
  .next (s.refuseOpcode .dec)

end Sys2Proof.Machine
end

