-- ==== Sys2Proof/Machine/Dispatch.lean ====
section
/-! DEFINITION. exec: one arm per row of spec/opcode_table.json, each a direct call of the row's meaning. -/

namespace Sys2Proof.Machine

-- One instruction on one state.
def exec (i : Instr) (s : State) : Host.Outcome State Fault Refusal :=
  match i with
  | .encInit maxCode => Sys2Proof.Machine.execEncInit maxCode s
  | .encChunk maxBytes => Sys2Proof.Machine.execEncChunk maxBytes s
  | .encEnd arg => Sys2Proof.Machine.execEncEnd arg s
  | .encClear arg => Sys2Proof.Machine.execEncClear arg s
  | .encDestroy arg => Sys2Proof.Machine.execEncDestroy arg s
  | .decInit maxCode => Sys2Proof.Machine.execDecInit maxCode s
  | .decChunk maxCodes => Sys2Proof.Machine.execDecChunk maxCodes s
  | .decDestroy arg => Sys2Proof.Machine.execDecDestroy arg s
  | .reserved0 arg => Sys2Proof.Machine.execReserved0 arg s
  | .reserved6 arg => Sys2Proof.Machine.execReserved6 arg s
  | .reserved7 arg => Sys2Proof.Machine.execReserved7 arg s
  | .reserved8 arg => Sys2Proof.Machine.execReserved8 arg s
  | .reservedB arg => Sys2Proof.Machine.execReservedB arg s
  | .reservedC arg => Sys2Proof.Machine.execReservedC arg s
  | .reservedE arg => Sys2Proof.Machine.execReservedE arg s
  | .reservedF arg => Sys2Proof.Machine.execReservedF arg s
  | .literal v => Sys2Proof.Machine.execLiteral v s
  | .clear => Sys2Proof.Machine.execClear s
  | .string v => Sys2Proof.Machine.execString v s
  | .kwkwk v => Sys2Proof.Machine.execKwkwk v s
  | .invalid v => Sys2Proof.Machine.execInvalid v s
  | .dictInit z => Sys2Proof.Machine.execDictInit z s
  | .dictExtend z node byte => Sys2Proof.Machine.execDictExtend z node byte s
  | .dictGrow z => Sys2Proof.Machine.execDictGrow z s
  | .dictSeq z k => Sys2Proof.Machine.execDictSeq z k s
  | .dictReset z => Sys2Proof.Machine.execDictReset z s
  | .bwPush value width => Sys2Proof.Machine.execBwPush value width s
  | .bwFlush => Sys2Proof.Machine.execBwFlush s
  | .brPull width => Sys2Proof.Machine.execBrPull width s
  | .encByte c => Sys2Proof.Machine.execEncByte c s
  | .encPending => Sys2Proof.Machine.execEncPending s
  | .decStep => Sys2Proof.Machine.execDecStep s
  | .decGrow => Sys2Proof.Machine.execDecGrow s
  | .decClear => Sys2Proof.Machine.execDecClear s
  | .srcRead z => Sys2Proof.Machine.execSrcRead z s
  | .snkWrite z b => Sys2Proof.Machine.execSnkWrite z b s

end Sys2Proof.Machine
end

