-- ==== Sys2Proof/Machine/Step.lean ====
section
/-! DEFINITION. One step of the block: the next command word the host issues runs to completion (spec/00_scope.md R16); with none waiting the block is idle (spec/60_exceptions.md R225). -/

namespace Sys2Proof.Machine

/-- One step: a command word is taken from the command port and its command runs (log 5). -/
def step (s : State) : Host.Outcome State Fault Refusal :=
  match s.takeCommand with
  | none => .next s
  | some (w, s') => exec (decode w) s'

/-- The state with a word of the opcode table as the next one on the command port (log 14). -/
def State.withFetchWord (s : State) (nbits w : Nat) : State :=
  { s with cmds := BitVec.ofNat 32 (w % 2 ^ nbits) :: s.cmds }

end Sys2Proof.Machine
end

