-- ==== Sys2Proof/Machine/Registers.lean ====
section
/-! DEFINITION. The host register file of an engine (spec/10_state.md R40 to R42). A read has no side effect and is no instruction: it is a function of the state. -/

namespace Sys2Proof.Machine

/-- The sixteen registers outside `UNINIT` (10 R40, R41); the reserved indices read 0. -/
def Engine.reg (g : Engine) (i : BitVec 4) : Word :=
  match i.toNat with
  | 0 => g.status
  | 1 => g.result
  | 2 => g.errinfo
  | 3 => BitVec.ofNat 32 g.dict.codeWidth
  | 4 => BitVec.ofNat 32 g.dict.nextCode
  | 5 => BitVec.ofNat 32 g.dict.maxCode
  | 6 => nodeWord g.node
  | 7 => BitVec.ofNat 32 g.bits
  | 8 => BitVec.ofNat 32 g.buf
  | 9 => BitVec.ofNat 32 g.bytesRead
  | 10 => BitVec.ofNat 32 (g.bytesRead / 2 ^ 32)
  | 11 => BitVec.ofNat 32 g.bytesWritten
  | 12 => BitVec.ofNat 32 (g.bytesWritten / 2 ^ 32)
  | _ => 0

/-- A host register read (10 R42): in `UNINIT` the indices 3 to 12 return an unspecified value, a free
value of the model (log 4). -/
def State.readReg (s : State) (z : EngineId) (i : BitVec 4) : Word :=
  if (s.eng z).st = .uninit ∧ 3 ≤ i.toNat ∧ i.toNat ≤ 12 then Config.uninitRead z s.free i
  else (s.eng z).reg i

end Sys2Proof.Machine
end

