-- ==== Sys2Proof/Safety.lean ====
section
/-! DEFINITION. What counts as a sound state of the block: the invariants of spec/10_state.md R43 to R45 and of the flag rules, the clear-code hazard, the width schedule, the bit streams, the port events, and host programs. -/

namespace Sys2Proof.Machine

/-- The dictionary invariants (10 R43; 10 R30 for the domain). Items 5, 7 and 9 of 10 R43 follow from these. -/
structure Dict.Inv (maxw : Nat) (d : Dict) : Prop where
  /-- item 1 -/
  width : 9 ≤ d.codeWidth ∧ d.codeWidth ≤ maxw
  /-- item 1 -/
  next : 257 ≤ d.nextCode ∧ d.nextCode ≤ 2 ^ d.codeWidth
  /-- the table's canonical form -/
  sorted : Table.wf d.tab
  /-- 10 R30: `dom(tab) = {k | 0 ≤ k < next_code, k ≠ 256}`; item 3 is the case `k = 256` -/
  domain : ∀ k, (Table.find d.tab k).isSome = true ↔ k < d.nextCode ∧ k ≠ 256
  /-- item 2 -/
  literals : ∀ b : Byte, Table.find d.tab b.toNat = some { parent := none, last := b, first := b, len := 1 }
  /-- item 4 -/
  parents : ∀ k e, 257 ≤ k → Table.find d.tab k = some e →
    ∃ p f, e.parent = some p ∧ p < k ∧ Table.find d.tab p = some f ∧ e.len = f.len + 1 ∧ e.first = f.first
  /-- item 6 -/
  unique : ∀ j k e f, Table.find d.tab j = some e → Table.find d.tab k = some f →
    e.parent = f.parent → e.last = f.last → j = k
  /-- item 8 -/
  cap : d.maxCode = 0 ∨ 257 ≤ d.maxCode
  /-- item 8 -/
  capNext : d.maxCode ≠ 0 → d.nextCode ≤ d.maxCode

/-- A node that is the root or has an entry (10 R44, R45). -/
def Engine.nodeResident (g : Engine) : Prop :=
  g.node = none ∨ ∃ k, g.node = some k ∧ (Table.find g.dict.tab k).isSome = true

/-- A stream is live or finished: the states in which 10 R43 to R45 are claimed. -/
abbrev Engine.live (g : Engine) : Prop := g.st = .ready ∨ g.st = .done

/-- What holds of the flags, results, counters and ports of an engine in every lifecycle state. -/
structure Engine.FlagInv (B : Config.Build) (g : Engine) : Prop where
  /-- 60 R212, R218: `ERR` is set exactly in `ERROR` -/
  errState : g.err ≠ .none ↔ g.st = .error
  /-- 60 R213 -/
  errInfo : g.err = .none → g.errinfo = 0
  /-- 60 R209: `RESOURCE_ERROR` is never raised -/
  noResource : g.err ≠ .resourceError
  /-- 10 R36, 60 R211: a reason is recorded exactly with a refusal -/
  reason : g.refused = true ↔ g.rsn ≠ .none
  /-- 10 R49 -/
  uninit : g.st = .uninit → g.eoi = false ∧ g.result = 0
  /-- 10 R38 -/
  result : g.result.toNat ≤ 2 ^ 28 - 1
  /-- 10 R29 -/
  counters : g.bytesRead < 2 ^ B.ctrw ∧ g.bytesWritten < 2 ^ B.ctrw
  /-- 10 R23 -/
  maxCode : g.dict.maxCode < 2 ^ 28
  /-- the table's canonical form -/
  sorted : Table.wf g.dict.tab
  /-- 20 R66 -/
  source : g.port.pos ≤ g.port.src.length

/-- The encoder invariants (10 R44, 41 R141, 60 R216). -/
structure Engine.EncInv (B : Config.Build) (g : Engine) : Prop extends Engine.FlagInv B g where
  dict : g.live → g.dict.Inv B.maxw
  cursor : g.st = .ready → g.nodeResident
  buffer : g.st ≠ .uninit → g.bits ≤ 7 ∧ g.buf < 2 ^ g.bits
  finished : g.st = .done → g.node = none ∧ g.bits = 0 ∧ g.buf = 0
  /-- 60 R207: only the decoder raises it -/
  noProtocol : g.err ≠ .protocolViolation

/-- The decoder invariants (10 R45, 41 R148, 60 R216). -/
structure Engine.DecInv (B : Config.Build) (g : Engine) : Prop extends Engine.FlagInv B g where
  dict : g.live → g.dict.Inv B.maxw
  prev : g.live → g.nodeResident
  buffer : g.st ≠ .uninit → g.buf < 2 ^ g.bits
  ready : g.st = .ready → g.bits ≤ 7
  /-- 41 R147: the residue of a finished stream is shorter than a code -/
  residue : g.st = .done → g.bits < g.dict.codeWidth
  /-- 10 R45: what lets the KwKwK code be transmitted in `code_width` bits -/
  room : g.live → g.dict.full = false → g.dict.nextCode < 2 ^ g.dict.codeWidth
  /-- 10 R36, 43 R188: the decoder latches `EOI` exactly when it finishes -/
  eoiDone : g.eoi = true ↔ g.st = .done

/-- The invariant of the block: a legal build, and each engine's own. -/
structure State.Inv (s : State) : Prop where
  legal : s.build.Legal
  enc : s.enc.EncInv s.build
  dec : s.dec.DecInv s.build

/-- `W(n)`: the least `w ≥ 9` with `n ≤ 2^w` (00 R15). -/
def leastWidth (n : Nat) : Nat := max 9 (Nat.clog 2 n)

/-- `min(n, M)` with `M = max_code`, or infinite for 0 (43 R183). -/
def capped (maxCode n : Nat) : Nat := if maxCode = 0 then n else min n maxCode

/-- The width schedule of both engines (42 R167, 43 R183). -/
structure State.WidthInv (s : State) : Prop where
  enc : s.enc.live → s.enc.dict.codeWidth = leastWidth s.enc.dict.nextCode
  dec : s.dec.live → s.dec.dict.codeWidth = leastWidth (capped s.dec.dict.maxCode (s.dec.dict.nextCode + 1))

/-- The states in which software must not issue `ENC_CLEAR` (70 R241, 44 R201). -/
abbrev Engine.clearHazard (g : Engine) : Prop :=
  g.node ≠ none ∧ g.dict.nextCode = 2 ^ g.dict.codeWidth ∧ g.dict.full = false

/-! ### The bit streams -/

/-- The stream bits of bytes: bit 7 of a byte first (00 R9, 20 R63). -/
def streamBits (bytes : List Byte) : List Bool := bytes.flatMap fun b => codeBits 8 b.toNat

/-- Every bit the encoder has emitted: those in the sink, then the residue, oldest first (10 R27, R48). -/
def Engine.writtenBits (g : Engine) : List Bool := streamBits g.port.snk ++ codeBits g.bits g.buf

/-- Every bit the decoder has still to take: the residue, oldest first, then the rest of the source (10 R28). -/
def Engine.unreadBits (g : Engine) : List Bool :=
  codeBits g.bits g.buf ++ streamBits (g.port.src.drop g.port.pos)

/-- The bits of the pending code at the current width; none at the root (42 R160). -/
def Engine.pendingBits (g : Engine) : List Bool :=
  match g.node with
  | none => []
  | some k => codeBits g.dict.codeWidth k

/-- Pushes of (value, width) pairs, one after the other. -/
def Engine.pushAll (B : Config.Build) : List (Nat × Nat) → Engine → Res Unit
  | [], g => .ok () g
  | (v, w) :: rest, g =>
    match g.push B v w with
    | .ok _ g' => Engine.pushAll B rest g'
    | .raised g' => .raised g'

/-- Pulls of the given widths, one after the other, and what each returned. -/
def Engine.pullAll (B : Config.Build) : List Nat → Engine → List (Option Nat) × Engine
  | [], g => ([], g)
  | w :: ws, g =>
    let r := g.pull B w
    let rest := Engine.pullAll B ws r.2
    (r.1 :: rest.1, rest.2)

/-! ### The port events (00 R16) -/

/-- A port after the bytes of `out` were written to its sink, first byte first (20 R67). -/
def Port.gained (p : Port) (out : List Byte) : Port :=
  { p with snk := p.snk ++ out, events := p.events ++ out.map .wrote }

/-- A port after its source gave the next `m` bytes (20 R66). -/
def Port.advanced (p : Port) (m : Nat) : Port :=
  { p with pos := p.pos + m, events := p.events ++ ((p.src.drop p.pos).take m).map .gave }

/-- A port after its source answered `None` (20 R66). -/
def Port.answeredNone (p : Port) : Port := { p with events := p.events ++ [.ended] }

/-- The port after these events, if they can happen there in this order: a byte is given only if it is the
source's next one, and `None` only at its end (20 R66, R67). -/
def Port.replay : List PortEvent → Port → Option Port
  | [], p => some p
  | .gave b :: ev, p => if p.src[p.pos]? = some b then Port.replay ev (p.advanced 1) else none
  | .ended :: ev, p => if p.src[p.pos]? = none then Port.replay ev p.answeredNone else none
  | .wrote b :: ev, p => Port.replay ev (p.gained [b])

/-! ### Host programs -/

/-- The commands of `ENCODE m`, with the chunk sizes the host chooses (30 R105). -/
def encodeProgram (m : BitVec 28) (chunks : List (BitVec 28)) : List Word :=
  [0x1#4 ++ m] ++ chunks.map (fun n => 0x2#4 ++ n) ++ [0x3#4 ++ 0#28]

/-- A host action on a live encoder: `ENC_CHUNK n` or `ENC_CLEAR`. -/
inductive EncAction where
  | chunk (n : BitVec 28)
  | clear
  deriving DecidableEq, Repr

/-- The command word of an encoder action (30 R100). -/
def EncAction.word : EncAction → Word
  | .chunk n => 0x2#4 ++ n
  | .clear => 0x4#4 ++ 0#28

/-- `ENC_INIT m` and then the actions, the stream left open. -/
def openProgram (m : BitVec 28) (acts : List EncAction) : List Word :=
  (0x1#4 ++ m) :: acts.map EncAction.word

/-- The commands of `DECODE m`, with the chunk sizes the host chooses (30 R105). -/
def decodeProgram (m : BitVec 28) (chunks : List (BitVec 28)) : List Word :=
  [0x9#4 ++ m] ++ chunks.map (fun n => 0xA#4 ++ n)

/-- A run of command words from a state, one step a word. -/
def runCommands (ws : List Word) (s : State) : Host.Outcome State Fault Refusal :=
  Sys2Proof.core.run ws.length { s with cmds := ws }

/-- A state with bytes bound to the encoder's source, an empty sink and no event yet (20 R66, R67, 70 R238). -/
def State.bindEnc (s : State) (bytes : List Byte) : State :=
  { s with enc := { s.enc with port := { src := bytes, pos := 0, snk := [], events := [] } } }

/-- A state with bytes bound to the decoder's source, an empty sink and no event yet. -/
def State.bindDec (s : State) (bytes : List Byte) : State :=
  { s with dec := { s.dec with port := { src := bytes, pos := 0, snk := [], events := [] } } }

end Sys2Proof.Machine
end

