-- ==== Sys2Proof/Certificates/Slice0/Obligations.lean ====
section
/-! DEFINITION. The statements for the provers, taken from the numbered rules of the spec. -/

open Sys2Proof Sys2Proof.Machine

/-! ### Encodings -/

/-- 30 R99, R100, R102: a command word decodes to the row it encodes, and every word is the word of the row
it decodes to: no bit of a command word is dropped. -/
def Obligations.CommandWordsRoundTrip : Prop :=
  (∀ (i : Instr) (w : Word), encode i = some w → decode w = i) ∧
  (∀ w : Word, encode (decode w) = some w)

/-- 30 R100, R102: words written out from the table of 30 R100, and 30 R104's `match | arg`. -/
def Obligations.CommandWordsOfTheTable : Prop :=
  decode 0x10001000#32 = .encInit 4096#28 ∧ decode 0x20000003#32 = .encChunk 3#28 ∧
  decode 0x3ABCDEF0#32 = .encEnd 0xABCDEF0#28 ∧ decode 0x40000000#32 = .encClear 0#28 ∧
  decode 0x50000000#32 = .encDestroy 0#28 ∧ decode 0x90000102#32 = .decInit 258#28 ∧
  decode 0xAFFFFFFF#32 = .decChunk 268435455#28 ∧ decode 0xD0000000#32 = .decDestroy 0#28 ∧
  decode 0x00000000#32 = .reserved0 0#28 ∧ decode 0xB0000001#32 = .reservedB 1#28

/-- 30 R93, R94: a code word of `w` bits puts `v[i]` at stream position `w - 1 - i`, and is read back, value
and rest, as the instruction the decoder's state classifies it as; a run shorter than `w` is no code word. -/
def Obligations.CodeWordsRoundTrip : Prop :=
  (∀ w v i : Nat, i < w → (codeBits w v)[w - 1 - i]? = some (v.testBit i)) ∧
  (∀ (w v : Nat) (rest : List Bool), v < 2 ^ w → takeCode w (codeBits w v ++ rest) = .ok (v, rest)) ∧
  (∀ (w : Nat) (bits : List Bool), bits.length < w → takeCode w bits = .error .truncatedCodeword) ∧
  (∀ (i : Instr) (v w nc : Nat) (kw : Bool) (bits rest : List Bool),
    codeValue i = some v → v < 2 ^ w → classInstr (classify nc kw v) v = i →
    encodeCodeword w i = some bits → decodeCodeword w nc kw (bits ++ rest) = .ok (i, rest))

/-- 30 R97: the class of a pulled value, for a decoder whose `next_code` is at least 257 (10 R22). -/
def Obligations.ClassOfEveryCodeValue : Prop :=
  ∀ (g : Engine) (v : Nat), 257 ≤ g.dict.nextCode →
    (g.classOf v = .literal ↔ v ≤ 255) ∧
    (g.classOf v = .clear ↔ v = 256) ∧
    (g.classOf v = .string ↔ 257 ≤ v ∧ v < g.dict.nextCode) ∧
    (g.classOf v = .kwkwk ↔ v = g.dict.nextCode ∧ g.node ≠ none ∧ g.dict.full = false ∧
      g.dict.child g.node (g.dict.firstOf g.node) = none) ∧
    (g.classOf v = .invalid ↔ g.dict.nextCode < v ∨
      (v = g.dict.nextCode ∧ ¬(g.node ≠ none ∧ g.dict.full = false ∧
        g.dict.child g.node (g.dict.firstOf g.node) = none)))

/-! ### The step -/

/-- The model's command port (log 5) with 00 R16: a step runs the command of the word it takes; with no
word waiting nothing changes (60 R225). -/
def Obligations.StepRunsTheDecodedCommand : Prop :=
  (∀ (s : State) (w : Word) (ws : List Word), s.cmds = w :: ws →
    step s = exec (decode w) { s with cmds := ws }) ∧
  (∀ s : State, s.cmds = [] → step s = .next s) ∧
  (∀ (s : State) (w : Nat), w < 2 ^ 32 →
    step (s.withFetchWord 32 w) = exec (decode (BitVec.ofNat 32 w)) s ∧
    decodeTableWord 32 w = some (decode (BitVec.ofNat 32 w)))

/-- 60 R205, 10 R46, 20 R74: every instruction completes from every state; it changes nothing in the engine
it is not addressed to, and neither the build nor the commands that wait. A command or a code word does not
write the tagged value of a primitive (log 7). -/
def Obligations.EveryInstructionTouchesOneEngine : Prop :=
  ∀ (i : Instr) (s : State), ∃ t, exec i s = .next t ∧
    (∀ z, z ≠ i.engine → t.eng z = s.eng z) ∧ t.build = s.build ∧ t.cmds = s.cmds ∧
    (i.format ≠ .prim → t.ret = s.ret)

/-- 20 R74, 60 R223, 10 R46: what an instruction does to its engine, and the tagged value a primitive
returns, depend on that engine alone (with the build and the count of the free values); the other engine and
the waiting commands are not read. -/
def Obligations.OtherEngineIsNotRead : Prop :=
  ∀ (i : Instr) (s₁ s₂ : State), s₁.build = s₂.build → s₁.free = s₂.free →
    s₁.eng i.engine = s₂.eng i.engine →
    ∃ t₁ t₂, exec i s₁ = .next t₁ ∧ exec i s₂ = .next t₂ ∧ t₁.eng i.engine = t₂.eng i.engine ∧
      (i.format = .prim → t₁.ret = t₂.ret)

/-- 00 R16, 20 R66, R67, R72, R73: what an instruction does at the ports is a sequence of events, recorded in
their order: a byte is given only as the source's next one, `None` is answered only at the source's end, and a
byte written is appended to the sink. So no source changes or goes back, and no sink loses a byte. -/
def Obligations.PortsOnlyAdvance : Prop :=
  ∀ (i : Instr) (s : State) (z : EngineId), ∃ t ev, exec i s = .next t ∧
    Port.replay ev (s.eng z).port = some (t.eng z).port ∧
    (t.eng z).port.events = (s.eng z).port.events ++ ev ∧
    (t.eng z).port.src = (s.eng z).port.src ∧ (s.eng z).port.pos ≤ (t.eng z).port.pos ∧
    ((s.eng z).port.pos ≤ (s.eng z).port.src.length → (t.eng z).port.pos ≤ (t.eng z).port.src.length) ∧
    (s.eng z).port.snk <+: (t.eng z).port.snk

/-- 10 R23: only `*_INIT` writes `max_code` (`*_DESTROY` leaves it unspecified, 10 R52): every other
instruction keeps both engines' values. -/
def Obligations.MaxCodeIsConfiguration : Prop :=
  ∀ (i : Instr) (s : State), (∀ a, i ≠ .encInit a ∧ i ≠ .decInit a ∧ i ≠ .encDestroy a ∧ i ≠ .decDestroy a) →
    ∃ t, exec i s = .next t ∧ t.enc.dict.maxCode = s.enc.dict.maxCode ∧
      t.dec.dict.maxCode = s.dec.dict.maxCode
/-! ### Resets -/

/-- 10 R49, 70 R235, R236: the values the spec gives after hardware reset, in `State.reset` and after the
event from any state, which touches no port; `STATUS` is 0. -/
def Obligations.HardwareReset : Prop :=
  (∀ z : EngineId,
    let g := State.reset.eng z
    g.st = .uninit ∧ g.eoi = false ∧ g.refused = false ∧ g.rsn = .none ∧ g.err = .none ∧
    g.result = 0 ∧ g.errinfo = 0 ∧ g.status = 0) ∧
  (∀ (s : State) (z : EngineId),
    let g := s.hwReset.eng z
    g.st = .uninit ∧ g.eoi = false ∧ g.refused = false ∧ g.rsn = .none ∧ g.err = .none ∧
    g.result = 0 ∧ g.errinfo = 0 ∧ g.status = 0 ∧ g.port = (s.eng z).port ∧
    s.hwReset.cmds = s.cmds ∧ s.hwReset.build = s.build)
/-- 10 R50: the state after an accepted `*_INIT(m)`, whatever the state before; the ports and the other
engine are untouched. -/
def Obligations.InitGivesAFreshEngine : Prop :=
  ∀ (s : State) (m : BitVec 28) (z : EngineId) (i : Instr),
    ((z = .enc ∧ i = .encInit m) ∨ (z = .dec ∧ i = .decInit m)) → (m = 0 ∨ 257 ≤ m.toNat) →
    ∃ d : Dict, d.codeWidth = 9 ∧ d.nextCode = 257 ∧ d.maxCode = m.toNat ∧
      (∀ k, Table.find d.tab k =
        if k < 256 then
          some { parent := none, last := BitVec.ofNat 8 k, first := BitVec.ofNat 8 k, len := 1 }
        else none) ∧
      (∀ b : Byte, d.child none b = some b.toNat) ∧
      (∀ (k : Nat) (b : Byte), d.child (some k) b = none) ∧
      exec i s = .next (s.setEng z
        { dict := d, node := none, buf := 0, bits := 0, bytesRead := 0, bytesWritten := 0,
          st := .ready, eoi := false, refused := false, rsn := .none, err := .none,
          result := 0, errinfo := 0, port := (s.eng z).port })

/-- 10 R52, 42 R164, 43 R190: `*_DESTROY` leaves the hardware-reset values in its engine, in every lifecycle
state; ports and the other engine are untouched. In `UNINIT`, `ENC_DESTROY` changes only `REFUSED` and `RSN`. -/
def Obligations.DestroyGivesTheResetState : Prop :=
  (∀ (s : State) (a : BitVec 28) (z : EngineId) (i : Instr),
    ((z = .enc ∧ i = .encDestroy a) ∨ (z = .dec ∧ i = .decDestroy a)) →
    ∃ t, exec i s = .next t ∧
      (t.eng z).st = .uninit ∧ (t.eng z).eoi = false ∧ (t.eng z).refused = false ∧ (t.eng z).rsn = .none ∧
      (t.eng z).err = .none ∧ (t.eng z).result = 0 ∧ (t.eng z).errinfo = 0 ∧
      (t.eng z).port = (s.eng z).port ∧ (∀ y, y ≠ z → t.eng y = s.eng y) ∧
      t.build = s.build ∧ t.cmds = s.cmds ∧ t.ret = s.ret) ∧
  (∀ (s : State) (a : BitVec 28), s.enc.st = .uninit → s.enc.eoi = false → s.enc.err = .none →
    s.enc.result = 0 → s.enc.errinfo = 0 →
    exec (.encDestroy a) s = .next { s with enc := { s.enc with refused := false, rsn := .none } })

/-! ### Refusals -/

/-- 30 R102: a word with a reserved `op` is refused `ILLEGAL_OPCODE` in the engine that bit 31 selects, and
nothing else changes; the eight reserved rows are exactly those words. -/
def Obligations.ReservedOpcodesRefused : Prop :=
  (∀ (s : State) (w : Word), (opField w).toNat ∈ [0x0, 0x6, 0x7, 0x8, 0xB, 0xC, 0xE, 0xF] →
    exec (decode w) s =
      .next (s.setEng (if w.getLsbD 31 then .dec else .enc)
        { s.eng (if w.getLsbD 31 then .dec else .enc) with refused := true, rsn := .illegalOpcode })) ∧
  (∀ (s : State) (a : BitVec 28) (z : EngineId) (i : Instr),
    ((z = .enc ∧ (i = .reserved0 a ∨ i = .reserved6 a ∨ i = .reserved7 a)) ∨
     (z = .dec ∧ (i = .reserved8 a ∨ i = .reservedB a ∨ i = .reservedC a ∨ i = .reservedE a ∨
       i = .reservedF a))) →
    exec i s = .next (s.setEng z { s.eng z with refused := true, rsn := .illegalOpcode }))

/-- 60 R211, R215, 40 R136: an `*_INIT` with 1 to 256 is refused `BAD_CONFIG`, a stream command outside `READY`
is refused `WRONG_STATE`, and nothing else changes. -/
def Obligations.RefusedCommandsChangeNothingElse : Prop :=
  (∀ (s : State) (m : BitVec 28) (z : EngineId) (i : Instr),
    ((z = .enc ∧ i = .encInit m) ∨ (z = .dec ∧ i = .decInit m)) → 1 ≤ m.toNat → m.toNat ≤ 256 →
    exec i s = .next (s.setEng z { s.eng z with refused := true, rsn := .badConfig })) ∧
  (∀ (s : State) (a : BitVec 28) (z : EngineId) (i : Instr),
    ((z = .enc ∧ (i = .encChunk a ∨ i = .encEnd a ∨ i = .encClear a)) ∨ (z = .dec ∧ i = .decChunk a)) →
    (s.eng z).st ≠ .ready →
    exec i s = .next (s.setEng z { s.eng z with refused := true, rsn := .wrongState }))
/-- 30 R103: the argument of the four commands without an operand is ignored. -/
def Obligations.IgnoredArguments : Prop :=
  ∀ (s : State) (a b : BitVec 28),
    exec (.encEnd a) s = exec (.encEnd b) s ∧ exec (.encClear a) s = exec (.encClear b) s ∧
    exec (.encDestroy a) s = exec (.encDestroy b) s ∧ exec (.decDestroy a) s = exec (.decDestroy b) s

/-! ### The Dictionary -/

/-- 40 R123 to R126: the three results of `DICT.EXTEND`, tested in the order Matched, Full, Inserted; the
node is the root (which has no third case, 40 R123) or a resident code. -/
def Obligations.DictExtendResults : Prop :=
  ∀ (s : State) (z : EngineId) (n : NodeId) (b : Byte),
    (∀ k, (s.eng z).dict.child n b = some k →
      exec (.dictExtend z n b) s = .next { s with ret := .matched k }) ∧
    ((s.eng z).dict.child n b = none →
      ((s.eng z).dict.maxCode ≠ 0 ∧ (s.eng z).dict.maxCode ≤ (s.eng z).dict.nextCode) →
      exec (.dictExtend z n b) s = .next { s with ret := .full }) ∧
    (∀ k e, (s.eng z).dict.child n b = none →
      ¬((s.eng z).dict.maxCode ≠ 0 ∧ (s.eng z).dict.maxCode ≤ (s.eng z).dict.nextCode) →
      n = some k → Table.find (s.eng z).dict.tab k = some e →
      exec (.dictExtend z n b) s =
        .next { s.setEng z { s.eng z with dict := { (s.eng z).dict with
          tab := Table.put (s.eng z).dict.tab (s.eng z).dict.nextCode
            { parent := some k, last := b, first := e.first, len := e.len + 1 }
          nextCode := (s.eng z).dict.nextCode + 1 } } with
          ret := .inserted (s.eng z).dict.nextCode })

/-- 40 R124: `Matched` changes nothing, and `DICT.EXTEND(ROOT, b)` is `Matched(b)`, in every dictionary that
meets the invariants of 10 R43. -/
def Obligations.DictExtendRootMatches : Prop :=
  ∀ (s : State) (z : EngineId) (b : Byte),
    (∀ n k, (s.eng z).dict.child n b = some k →
      exec (.dictExtend z n b) s = .next { s with ret := .matched k }) ∧
    ((s.eng z).dict.Inv s.build.maxw →
      exec (.dictExtend z none b) s = .next { s with ret := .matched b.toNat })
/-- 40 R127, 60 R212: `DICT.GROW` widens by one exactly when `next_code > 2^code_width`, and raises
`CapacityViolation(next_code)` where that would pass `MAXW`. -/
def Obligations.DictGrowRule : Prop :=
  ∀ (s : State) (z : EngineId),
    ((s.eng z).dict.nextCode ≤ 2 ^ (s.eng z).dict.codeWidth →
      exec (.dictGrow z) s = .next { s with ret := .unit }) ∧
    (2 ^ (s.eng z).dict.codeWidth < (s.eng z).dict.nextCode → (s.eng z).dict.codeWidth ≠ s.build.maxw →
      exec (.dictGrow z) s = .next { s.setEng z { s.eng z with dict := { (s.eng z).dict with
        codeWidth := (s.eng z).dict.codeWidth + 1 } } with ret := .unit }) ∧
    (2 ^ (s.eng z).dict.codeWidth < (s.eng z).dict.nextCode → (s.eng z).dict.codeWidth = s.build.maxw →
      exec (.dictGrow z) s = .next { s.setEng z { s.eng z with
        err := .capacityViolation
        errinfo := BitVec.ofNat 32 (s.eng z).dict.nextCode
        st := .error } with ret := .raised })

/-- 40 R121, R133, 10 R51, 44 R203: `DICT.INIT` and `DICT.RESET` give the same initial dictionary, keep
`max_code`, and touch nothing else. -/
def Obligations.DictInitAndReset : Prop :=
  ∀ (s : State) (z : EngineId) (i : Instr), (i = .dictInit z ∨ i = .dictReset z) →
    ∃ d : Dict, d.codeWidth = 9 ∧ d.nextCode = 257 ∧ d.maxCode = (s.eng z).dict.maxCode ∧
      (∀ k, Table.find d.tab k =
        if k < 256 then
          some { parent := none, last := BitVec.ofNat 8 k, first := BitVec.ofNat 8 k, len := 1 }
        else none) ∧
      exec i s = .next { s.setEng z { s.eng z with dict := d } with ret := .unit }

/-- 40 R122: the loop of 40 R121, with its growth test after every increment, ends in the closed form, for
every legal build and whatever the dictionary held before. -/
def Obligations.DictInitLoopIsClosedForm : Prop :=
  ∀ (B : Config.Build) (d : Dict), B.Legal → Dict.initByLoop B.maxw d = some d.init

/-- 40 R131: `DICT.SEQ` returns `seq(k)`, changes nothing, and `seq` is the walk along the parent links, of
length `tab[k].len` and first byte `tab[k].first`. -/
def Obligations.DictSeqWalksTheParents : Prop :=
  ∀ (s : State) (z : EngineId) (k : Nat) (e : Entry), (s.eng z).dict.Inv s.build.maxw →
    Table.find (s.eng z).dict.tab k = some e →
    exec (.dictSeq z k) s = .next { s with ret := .bytes ((s.eng z).dict.seq k) } ∧
    (s.eng z).dict.seq k =
      (match e.parent with
        | none => []
        | some p => (s.eng z).dict.seq p) ++ [e.last] ∧
    ((s.eng z).dict.seq k).length = e.len ∧ ((s.eng z).dict.seq k).head? = some e.first

/-- 10 R43 items 6 and 7: every resident sequence has one code, and the resident sequences are closed under
non-empty prefixes. -/
def Obligations.ResidentSequencesDistinctAndClosed : Prop :=
  ∀ (maxw : Nat) (d : Dict), d.Inv maxw →
    (∀ j k, (Table.find d.tab j).isSome = true → (Table.find d.tab k).isSome = true →
      d.seq j = d.seq k → j = k) ∧
    (∀ k p, (Table.find d.tab k).isSome = true → p ≠ [] → p <+: d.seq k →
      ∃ j, (Table.find d.tab j).isSome = true ∧ d.seq j = p)

/-- 40 R135: an extend of a resident node followed by its growth step keeps the dictionary invariants, or
raises; where the extend leaves item 1 intact it keeps them alone. -/
def Obligations.ExtendAndGrowKeepTheDictionary : Prop :=
  ∀ (maxw : Nat) (d : Dict) (n : NodeId) (b : Byte), d.Inv maxw →
    (n = none ∨ ∃ k, n = some k ∧ (Table.find d.tab k).isSome = true) →
    ((d.extend n b).2.nextCode ≤ 2 ^ d.codeWidth → (d.extend n b).2.Inv maxw) ∧
    (∀ d', (d.extend n b).2.grow maxw = some d' → d'.Inv maxw)

/-! ### The Bit Stream Codec -/

/-- 41 R142: a push within its precondition appends the code's bits to the written bits, most significant
first; `(bits + width) div 8` whole bytes leave and are counted; nothing else changes. -/
def Obligations.BwPushAppendsTheCode : Prop :=
  ∀ (s : State) (v w : Nat), 1 ≤ w → w ≤ s.build.maxw → v < 2 ^ w →
    s.enc.bits ≤ 7 → s.enc.buf < 2 ^ s.enc.bits → s.enc.bytesWritten < 2 ^ s.build.ctrw →
    ∃ (out : List Byte) (buf : Nat),
      let g : Engine :=
        { s.enc with
          bits := (s.enc.bits + w) % 8
          buf := buf
          bytesWritten := (s.enc.bytesWritten + (s.enc.bits + w) / 8) % 2 ^ s.build.ctrw
          port := s.enc.port.gained out }
      exec (.bwPush v w) s = .next { s with enc := g, ret := .unit } ∧
      out.length = (s.enc.bits + w) / 8 ∧ buf < 2 ^ ((s.enc.bits + w) % 8) ∧
      g.writtenBits = s.enc.writtenBits ++ codeBits w v

/-- 41 R143: a push outside its precondition raises `CapacityViolation(value)`, appends nothing, emits nothing. -/
def Obligations.BwPushRejectsABadOperand : Prop :=
  ∀ (s : State) (v w : Nat), (w < 1 ∨ s.build.maxw < w ∨ 2 ^ w ≤ v) →
    exec (.bwPush v w) s =
      .next { s with
        enc := { s.enc with err := .capacityViolation, errinfo := BitVec.ofNat 32 v, st := .error }
        ret := .raised }

/-- 41 R144: a flush pads the written bits with fewer than 8 zero bits up to a byte boundary and empties the
buffer; with an empty buffer it is a no-op; twice is once. -/
def Obligations.BwFlushPadsWithZeros : Prop :=
  ∀ s : State, s.enc.bits ≤ 7 → s.enc.buf < 2 ^ s.enc.bits →
    (s.enc.bits = 0 → exec .bwFlush s = .next { s with ret := .unit }) ∧
    (0 < s.enc.bits → ∃ b : Byte,
      let g : Engine :=
        { s.enc with
          bits := 0
          buf := 0
          bytesWritten := (s.enc.bytesWritten + 1) % 2 ^ s.build.ctrw
          port := s.enc.port.gained [b] }
      exec .bwFlush s = .next { s with enc := g, ret := .unit } ∧
      g.writtenBits = s.enc.writtenBits ++ List.replicate (8 - s.enc.bits) false) ∧
    (∀ t, exec .bwFlush s = .next t → exec .bwFlush t = .next t)

/-- 41 R146, R147: a pull takes the next `w` unread bits, reading only the bytes it needs; with fewer than
`w` left it takes the rest of the source into the buffer, its next read answers `None`, and it returns `None`.
41 R146 has `w ≤ MAXW`; that a wider pull does the same is the model's reading (log 18, DEDUCED). -/
def Obligations.BrPullTakesTheNextBits : Prop :=
  ∀ (s : State) (w : Nat), 1 ≤ w → s.dec.buf < 2 ^ s.dec.bits → s.dec.port.pos ≤ s.dec.port.src.length →
    s.dec.bytesRead < 2 ^ s.build.ctrw →
    (w ≤ s.dec.unreadBits.length → ∃ buf : Nat,
      let m := (w - s.dec.bits + 7) / 8
      let g : Engine :=
        { s.dec with
          bits := s.dec.bits + 8 * m - w
          buf := buf
          bytesRead := (s.dec.bytesRead + m) % 2 ^ s.build.ctrw
          port := s.dec.port.advanced m }
      exec (.brPull w) s =
        .next { s with dec := g, ret := .someVal (bitsValue (s.dec.unreadBits.take w)) } ∧
      buf < 2 ^ (s.dec.bits + 8 * m - w) ∧ g.unreadBits = s.dec.unreadBits.drop w) ∧
    (s.dec.unreadBits.length < w → ∃ buf : Nat,
      let m := s.dec.port.src.length - s.dec.port.pos
      let g : Engine :=
        { s.dec with
          bits := s.dec.bits + 8 * m
          buf := buf
          bytesRead := (s.dec.bytesRead + m) % 2 ^ s.build.ctrw
          port := (s.dec.port.advanced m).answeredNone }
      exec (.brPull w) s = .next { s with dec := g, ret := .noneVal } ∧
      buf < 2 ^ (s.dec.bits + 8 * m) ∧ g.unreadBits = s.dec.unreadBits)

/-- 41 R151: what an empty writer pushes and flushes, an empty reader over exactly those bytes pulls back at
the same widths, and is left with `(-Σw) mod 8` zero bits. -/
def Obligations.WriterReaderDuality : Prop :=
  ∀ (B : Config.Build) (l : List (Nat × Nat)) (g : Engine),
    (∀ p ∈ l, 1 ≤ p.2 ∧ p.2 ≤ B.maxw ∧ p.1 < 2 ^ p.2) →
    g.bits = 0 → g.buf = 0 → g.port.snk = [] →
    ∃ g', g.pushAll B l = .ok () g' ∧
      ∀ h : Engine, h.bits = 0 → h.buf = 0 → h.port.src = (g'.flush B).port.snk → h.port.pos = 0 →
        (h.pullAll B (l.map Prod.snd)).1 = l.map (fun p => some p.1) ∧
        (h.pullAll B (l.map Prod.snd)).2.bits = (8 - (l.map Prod.snd).sum % 8) % 8 ∧
        (h.pullAll B (l.map Prod.snd)).2.buf = 0

/-! ### The ports -/

/-- 20 R66, 00 R16: a read takes the next byte of the source, or returns `None` and leaves the source as it is,
for ever; either way it is one event. -/
def Obligations.SourceReadIsDestructive : Prop :=
  ∀ (s : State) (z : EngineId),
    (∀ b, (s.eng z).port.src[(s.eng z).port.pos]? = some b →
      exec (.srcRead z) s = .next { s.setEng z { s.eng z with
        port := (s.eng z).port.advanced 1 } with ret := .someVal b.toNat }) ∧
    ((s.eng z).port.pos = (s.eng z).port.src.length →
      exec (.srcRead z) s =
        .next { s.setEng z { s.eng z with port := (s.eng z).port.answeredNone } with ret := .noneVal })

/-- 20 R67, 00 R16: a write appends one byte to the sink and is one event, and nothing else changes. -/
def Obligations.SinkWriteAppends : Prop :=
  ∀ (s : State) (z : EngineId) (b : Byte),
    exec (.snkWrite z b) s = .next { s.setEng z { s.eng z with
      port := (s.eng z).port.gained [b] } with ret := .unit }

/-! ### The Encoder -/

/-- 42 R157, case Matched: the cursor moves to the child and nothing else changes. -/
def Obligations.EncByteMatched : Prop :=
  ∀ (s : State) (c : Byte) (k : Nat), s.enc.dict.child s.enc.node c = some k →
    exec (.encByte c) s = .next { s with enc := { s.enc with node := some k }, ret := .unit }

/-- 42 R157, R158, R166, cases Inserted and Full: the cursor's code is written at the width before any
growth, the entry is made unless the dictionary is full, growth is tested only for an insertion, and the
match restarts at `c`. -/
def Obligations.EncByteEmits : Prop :=
  ∀ (s : State) (c : Byte) (k : Nat), s.enc.EncInv s.build → s.enc.st = .ready → s.build.Legal →
    s.enc.node = some k → s.enc.dict.child (some k) c = none →
    ¬(s.enc.dict.full = false ∧ s.enc.dict.codeWidth = s.build.maxw ∧
      s.enc.dict.nextCode = 2 ^ s.build.maxw) →
    ∃ (out : List Byte) (buf : Nat),
      let d := s.enc.dict
      let g : Engine :=
        { s.enc with
          dict :=
            if d.full then d
            else
              { d with
                tab := Table.put d.tab d.nextCode
                  { parent := some k, last := c, first := d.firstOf (some k), len := d.lenOf (some k) + 1 }
                nextCode := d.nextCode + 1
                codeWidth := if 2 ^ d.codeWidth < d.nextCode + 1 then d.codeWidth + 1 else d.codeWidth }
          node := some c.toNat
          bits := (s.enc.bits + d.codeWidth) % 8
          buf := buf
          bytesWritten := (s.enc.bytesWritten + (s.enc.bits + d.codeWidth) / 8) % 2 ^ s.build.ctrw
          port := s.enc.port.gained out }
      exec (.encByte c) s = .next { s with enc := g, ret := .unit } ∧
      buf < 2 ^ ((s.enc.bits + d.codeWidth) % 8) ∧
      g.writtenBits = s.enc.writtenBits ++ codeBits d.codeWidth k

/-- 42 R169, 60 R212, R216: at `MAXW` the insertion of code `2^MAXW` and its emission happen, then
`CapacityViolation(2^MAXW + 1)`; the cursor still names the emitted code. -/
def Obligations.EncByteCapacityViolation : Prop :=
  ∀ (s : State) (c : Byte) (k : Nat), 1 ≤ s.build.maxw → s.enc.dict.codeWidth = s.build.maxw →
    s.enc.dict.nextCode = 2 ^ s.build.maxw → s.enc.dict.full = false →
    s.enc.node = some k → k < 2 ^ s.build.maxw → s.enc.dict.child (some k) c = none →
    s.enc.bits ≤ 7 → s.enc.buf < 2 ^ s.enc.bits →
    ∃ t, exec (.encByte c) s = .next t ∧ t.ret = .raised ∧ t.dec = s.dec ∧
      t.enc.st = .error ∧ t.enc.err = .capacityViolation ∧
      t.enc.errinfo = BitVec.ofNat 32 (2 ^ s.build.maxw + 1) ∧
      t.enc.node = some k ∧ t.enc.dict.codeWidth = s.build.maxw ∧
      t.enc.dict.nextCode = 2 ^ s.build.maxw + 1 ∧
      Table.find t.enc.dict.tab (2 ^ s.build.maxw) =
        some { parent := some k, last := c, first := s.enc.dict.firstOf (some k),
               len := s.enc.dict.lenOf (some k) + 1 } ∧
      t.enc.writtenBits = s.enc.writtenBits ++ codeBits s.build.maxw k

/-- 42 R160: the pending code is written at the current width and the cursor goes to the root; at the root
nothing happens; no insertion, no growth. -/
def Obligations.EncPendingEmitsTheCursor : Prop :=
  (∀ s : State, s.enc.node = none → exec .encPending s = .next { s with ret := .unit }) ∧
  (∀ (s : State) (k : Nat), s.enc.EncInv s.build → s.enc.st = .ready → s.enc.node = some k →
    ∃ (out : List Byte) (buf : Nat),
      let w := s.enc.dict.codeWidth
      let g : Engine :=
        { s.enc with
          node := none
          bits := (s.enc.bits + w) % 8
          buf := buf
          bytesWritten := (s.enc.bytesWritten + (s.enc.bits + w) / 8) % 2 ^ s.build.ctrw
          port := s.enc.port.gained out }
      exec .encPending s = .next { s with enc := g, ret := .unit } ∧
      g.writtenBits = s.enc.writtenBits ++ codeBits w k)

/-- 42 R161, R162: `ENC_CHUNK 0`, and `ENC_CHUNK n` once `EOI` is latched, only set `RESULT` to 0; at the end of
the source one read answers `None` and the latch is set; `ENC_CHUNK 1` with a byte to read is that counted read followed by `ENC.BYTE`, and
`RESULT` is 1, or 0 where the byte's step raised. -/
def Obligations.EncChunkByUnits : Prop :=
  ∀ s : State, s.enc.st = .ready →
    (∀ n : BitVec 28, (n = 0 ∨ s.enc.eoi = true) →
      exec (.encChunk n) s =
        .next { s with enc := { s.enc with refused := false, rsn := .none, result := 0 } }) ∧
    (∀ n : BitVec 28, n ≠ 0 → s.enc.eoi = false → s.enc.port.src.length ≤ s.enc.port.pos →
      exec (.encChunk n) s =
        .next { s with enc := { s.enc with
          refused := false
          rsn := .none
          result := 0
          eoi := true
          port := s.enc.port.answeredNone } }) ∧
    (∀ c : Byte, s.enc.eoi = false → s.enc.port.src[s.enc.port.pos]? = some c →
      ∃ t, exec (.encByte c) { s with enc := { s.enc with
            refused := false
            rsn := .none
            result := 0
            bytesRead := (s.enc.bytesRead + 1) % 2 ^ s.build.ctrw
            port := s.enc.port.advanced 1 } } = .next t ∧
        exec (.encChunk 1) s = .next { t with
          ret := s.ret
          enc := { t.enc with result := if t.ret = .raised then 0 else 1 } })
/-- 42 R168: a chunk of `a + b` bytes is a chunk of `a` followed by a chunk of `b`, with the counts added; if
the first raises, it is the whole. -/
def Obligations.EncChunksCompose : Prop :=
  ∀ (s : State) (a b : BitVec 28), a.toNat + b.toNat < 2 ^ 28 → s.enc.st = .ready →
    ∃ t, exec (.encChunk a) s = .next t ∧
      (t.enc.st ≠ .ready → exec (.encChunk (a + b)) s = .next t) ∧
      (t.enc.st = .ready → ∃ u, exec (.encChunk b) t = .next u ∧
        exec (.encChunk (a + b)) s =
          .next { u with enc := { u.enc with result := t.enc.result + u.enc.result } })
/-- 42 R161, R162, 70 R246: a chunk that cannot outgrow `MAXW` consumes `min(n, bytes left)` bytes, returns
that count, latches `EOI` exactly when it asked past the end, and stays `READY`. -/
def Obligations.EncChunkCountsItsBytes : Prop :=
  ∀ (s : State) (n : BitVec 28), s.build.Legal → s.enc.EncInv s.build → s.enc.st = .ready →
    s.enc.eoi = false →
    ((s.enc.dict.maxCode ≠ 0 ∧ s.enc.dict.maxCode ≤ 2 ^ s.build.maxw) ∨
      s.enc.dict.nextCode + n.toNat ≤ 2 ^ s.build.maxw) →
    ∃ t, exec (.encChunk n) s = .next t ∧
      let left := s.enc.port.src.length - s.enc.port.pos
      t.enc.st = .ready ∧ t.enc.err = .none ∧ t.enc.refused = false ∧
      t.enc.result = BitVec.ofNat 32 (min n.toNat left) ∧
      t.enc.port.pos = s.enc.port.pos + min n.toNat left ∧
      t.enc.bytesRead = (s.enc.bytesRead + min n.toNat left) % 2 ^ s.build.ctrw ∧
      t.enc.eoi = decide (left < n.toNat)

/-- 42 R166: with `max_code = 257` no input ever inserts an entry or widens the code. -/
def Obligations.FullDictionaryStaysFrozen : Prop :=
  ∀ (s : State) (n : BitVec 28), s.Inv → s.WidthInv → s.enc.st = .ready → s.enc.dict.maxCode = 257 →
    ∃ t, exec (.encChunk n) s = .next t ∧ t.enc.st = .ready ∧ t.enc.dict = s.enc.dict ∧
      t.enc.dict.nextCode = 257 ∧ t.enc.dict.codeWidth = 9

/-- 42 R163: `ENC_END` writes the pending code at the current width and zero bits up to a byte boundary,
and moves to `DONE`; dictionary, `RESULT`, `EOI` and `bytes_read` are kept. -/
def Obligations.EncEndFinishesTheStream : Prop :=
  ∀ (s : State) (a : BitVec 28), s.build.Legal → s.enc.EncInv s.build → s.enc.st = .ready →
    ∃ (out : List Byte) (pad : Nat),
      exec (.encEnd a) s = .next { s with enc := { s.enc with
        node := none
        bits := 0
        buf := 0
        st := .done
        refused := false
        rsn := .none
        bytesWritten := (s.enc.bytesWritten + out.length) % 2 ^ s.build.ctrw
        port := s.enc.port.gained out } } ∧
      pad ≤ 7 ∧
      streamBits (s.enc.port.snk ++ out) =
        s.enc.writtenBits ++ s.enc.pendingBits ++ List.replicate pad false

/-- 44 R196, R198, 10 R51: an effective `ENC_CLEAR` writes the pending code, then 256, both at the current
width, then zero bits up to a byte boundary, and resets the dictionary; `max_code`, `ST`, `EOI`, `RESULT` and
`bytes_read` are kept. -/
def Obligations.EncClearWritesTheClearCode : Prop :=
  ∀ (s : State) (a : BitVec 28), s.build.Legal → s.enc.EncInv s.build → s.enc.st = .ready →
    s.enc.eoi = false →
    ∃ (out : List Byte) (pad : Nat),
      exec (.encClear a) s = .next { s with enc := { s.enc with
        dict := { codeWidth := 9, nextCode := 257, maxCode := s.enc.dict.maxCode, tab := literalTable }
        node := none
        bits := 0
        buf := 0
        refused := false
        rsn := .none
        bytesWritten := (s.enc.bytesWritten + out.length) % 2 ^ s.build.ctrw
        port := s.enc.port.gained out } } ∧
      pad ≤ 7 ∧
      streamBits (s.enc.port.snk ++ out) =
        s.enc.writtenBits ++ s.enc.pendingBits ++ codeBits s.enc.dict.codeWidth 256 ++
          List.replicate pad false

/-- 44 R197: once the input is exhausted `ENC_CLEAR` is accepted and changes only `REFUSED` and `RSN`. -/
def Obligations.EncClearAfterEndOfInput : Prop :=
  ∀ (s : State) (a : BitVec 28), s.enc.st = .ready → s.enc.eoi = true →
    exec (.encClear a) s = .next { s with enc := { s.enc with refused := false, rsn := .none } }

/-! ### The Decoder -/

/-- 43 R182, R183: `DEC.GROW` widens by one exactly when the dictionary is not full and
`next_code ≥ 2^code_width`, and raises `CapacityViolation(next_code)` where that would pass `MAXW`. -/
def Obligations.DecGrowRule : Prop :=
  ∀ s : State,
    (s.dec.dict.full = true ∨ s.dec.dict.nextCode < 2 ^ s.dec.dict.codeWidth →
      exec .decGrow s = .next { s with ret := .unit }) ∧
    (s.dec.dict.full = false → 2 ^ s.dec.dict.codeWidth ≤ s.dec.dict.nextCode →
      s.dec.dict.codeWidth ≠ s.build.maxw →
      exec .decGrow s = .next { s with
        dec := { s.dec with dict := { s.dec.dict with codeWidth := s.dec.dict.codeWidth + 1 } }
        ret := .unit }) ∧
    (s.dec.dict.full = false → 2 ^ s.dec.dict.codeWidth ≤ s.dec.dict.nextCode →
      s.dec.dict.codeWidth = s.build.maxw →
      exec .decGrow s = .next { s with
        dec := { s.dec with
          err := .capacityViolation
          errinfo := BitVec.ofNat 32 s.dec.dict.nextCode
          st := .error }
        ret := .raised })

/-- 43 R179, R180, R182, R184: a resident code writes its sequence, first byte first; the mirrored insertion
is `DICT.EXTEND(prev_code, first byte)`, if there is a previous code; the code becomes the previous code; the
width grows as `DEC.GROW` says. For every code word of class LITERAL or STRING that does not end in a
capacity violation. -/
def Obligations.LookupCodesDecode : Prop :=
  ∀ (s : State) (v : Nat) (i : Instr), s.dec.DecInv s.build → s.dec.st = .ready →
    ((∃ b : Byte, i = .literal b ∧ v = b.toNat) ∨ (i = .string v ∧ 257 ≤ v)) →
    (Table.find s.dec.dict.tab v).isSome = true →
    let seq := s.dec.dict.seq v
    let d := (match s.dec.node with
      | none => s.dec.dict
      | some p => (s.dec.dict.extend (some p) (s.dec.dict.firstOf (some v))).2)
    ¬(d.full = false ∧ 2 ^ d.codeWidth ≤ d.nextCode ∧ d.codeWidth = s.build.maxw) →
    exec i s = .next { s with dec := { s.dec with
      dict := { d with
        codeWidth := if d.full = false ∧ 2 ^ d.codeWidth ≤ d.nextCode then d.codeWidth + 1 else d.codeWidth }
      node := some v
      bytesWritten := (s.dec.bytesWritten + seq.length) % 2 ^ s.build.ctrw
      port := s.dec.port.gained seq } }

/-- 43 R181, R182, R184: the KwKwK code writes `seq(prev_code) ++ [first(prev_code)]` and inserts that
sequence as its own entry. -/
def Obligations.KwkwkCodeDecodes : Prop :=
  ∀ (s : State) (p : Nat), s.dec.DecInv s.build → s.dec.st = .ready → s.dec.node = some p →
    s.dec.dict.full = false → s.dec.dict.child (some p) (s.dec.dict.firstOf (some p)) = none →
    let v := s.dec.dict.nextCode
    let seq := s.dec.dict.seq p ++ [s.dec.dict.firstOf (some p)]
    let d : Dict :=
      { s.dec.dict with
        tab := Table.put s.dec.dict.tab v
          { parent := some p, last := s.dec.dict.firstOf (some p), first := s.dec.dict.firstOf (some p),
            len := s.dec.dict.lenOf (some p) + 1 }
        nextCode := v + 1 }
    ¬(d.full = false ∧ 2 ^ d.codeWidth ≤ d.nextCode ∧ d.codeWidth = s.build.maxw) →
    exec (.kwkwk v) s = .next { s with dec := { s.dec with
      dict := { d with
        codeWidth := if d.full = false ∧ 2 ^ d.codeWidth ≤ d.nextCode then d.codeWidth + 1 else d.codeWidth }
      node := some v
      bytesWritten := (s.dec.bytesWritten + seq.length) % 2 ^ s.build.ctrw
      port := s.dec.port.gained seq } }

/-- 43 R185, R186, 60 R212: an invalid code raises `ProtocolViolation(v)` and has no other effect. -/
def Obligations.InvalidCodeRaises : Prop :=
  ∀ (s : State) (v : Nat), 257 ≤ s.dec.dict.nextCode →
    (s.dec.dict.nextCode < v ∨ (v = s.dec.dict.nextCode ∧
      (s.dec.node = none ∨ s.dec.dict.full = true ∨
        s.dec.dict.child s.dec.node (s.dec.dict.firstOf s.dec.node) ≠ none))) →
    exec (.invalid v) s = .next { s with dec := { s.dec with
      err := .protocolViolation
      errinfo := BitVec.ofNat 32 v
      st := .error } }

/-- 44 R199, R202: a clear code resets the dictionary, the previous code and the reader's residue, writes no
byte, and changes nothing else; so does `DEC.CLEAR`. -/
def Obligations.ClearCodeResetsTheDecoder : Prop :=
  ∀ s : State,
    let g : Engine :=
      { s.dec with
        dict := { codeWidth := 9, nextCode := 257, maxCode := s.dec.dict.maxCode, tab := literalTable }
        node := none
        buf := 0
        bits := 0 }
    exec .clear s = .next { s with dec := g } ∧ exec .decClear s = .next { s with dec := g, ret := .unit }

/-- 43 R177, R178, R188: `DEC.STEP` is `BR.PULL` at the current width and then, if nothing was pulled, the end
of the stream, else the code word of the class that the value has in the state before the step. -/
def Obligations.DecStepPullsAndRunsTheCode : Prop :=
  ∀ s : State, s.dec.st ≠ .error →
    ∃ p, exec (.brPull s.dec.dict.codeWidth) s = .next p ∧
      ((p.ret = .noneVal ∧ exec .decStep s = .next { p with ret := .endOfStream }) ∨
       (∃ v, p.ret = .someVal v ∧ ∃ t, exec (classInstr (s.dec.classOf v) v) p = .next t ∧
          exec .decStep s = .next { t with
            ret := if t.dec.st = .error then .raised else if v = 256 then .cleared else .decoded }))

/-- 43 R188, R189: `DEC_CHUNK 0` only sets `RESULT` to 0; `DEC_CHUNK 1` is one `DEC.STEP`: `RESULT` is 1, or 0
where the stream ended, which latches `EOI` and gives `DONE`, or where the step raised. -/
def Obligations.DecChunkByUnits : Prop :=
  ∀ s : State, s.dec.st = .ready →
    (exec (.decChunk 0) s =
      .next { s with dec := { s.dec with refused := false, rsn := .none, result := 0 } }) ∧
    (∃ t, exec .decStep { s with dec := { s.dec with refused := false, rsn := .none, result := 0 } } = .next t ∧
      exec (.decChunk 1) s = .next { t with
        ret := s.ret
        dec :=
          if t.ret = .raised then t.dec
          else if t.ret = .endOfStream then { t.dec with eoi := true, st := .done }
          else { t.dec with result := 1 } })

/-- 43 R194: a chunk of `a + b` code words is a chunk of `a` followed by a chunk of `b`, with the counts added;
if the first ends the stream or raises, it is the whole. -/
def Obligations.DecChunksCompose : Prop :=
  ∀ (s : State) (a b : BitVec 28), a.toNat + b.toNat < 2 ^ 28 → s.dec.st = .ready →
    ∃ t, exec (.decChunk a) s = .next t ∧
      (t.dec.st ≠ .ready → exec (.decChunk (a + b)) s = .next t) ∧
      (t.dec.st = .ready → ∃ u, exec (.decChunk b) t = .next u ∧
        exec (.decChunk (a + b)) s =
          .next { u with dec := { u.dec with result := t.dec.result + u.dec.result } })

/-- 70 R253: on any bytes whatever, `⌊bits / 9⌋ + 1` steps bring the decoder to `DONE` or `ERROR`. -/
def Obligations.DecChunkReachesTheEnd : Prop :=
  ∀ (s : State) (n : BitVec 28), s.build.Legal → s.dec.DecInv s.build → s.dec.st = .ready →
    s.dec.unreadBits.length / 9 + 1 ≤ n.toNat →
    ∃ t, exec (.decChunk n) s = .next t ∧
      ((t.dec.st = .done ∧ t.dec.eoi = true ∧ t.dec.err = .none ∧ t.dec.unreadBits.length < t.dec.dict.codeWidth) ∨
       (t.dec.st = .error ∧ t.dec.eoi = false ∧ t.dec.err ≠ .none))

/-- 43 R182, 60 R212, R216: at `MAXW` a LITERAL, STRING or KWKWK code whose mirrored insertion makes
`next_code = 2^MAXW`, the dictionary not full, has its full effect but the width, and raises
`CapacityViolation(2^MAXW)`. -/
def Obligations.DecCapacityViolation : Prop :=
  ∀ (s : State) (p : Nat), 9 ≤ s.build.maxw → s.dec.dict.codeWidth = s.build.maxw →
    s.dec.dict.nextCode + 1 = 2 ^ s.build.maxw →
    (s.dec.dict.maxCode = 0 ∨ 2 ^ s.build.maxw < s.dec.dict.maxCode) → s.dec.node = some p →
    let raised (v : Nat) (b : Byte) (seq : List Byte) : State :=
      { s with dec := { s.dec with
        dict := { s.dec.dict with
          tab := Table.put s.dec.dict.tab s.dec.dict.nextCode
            { parent := some p, last := b, first := s.dec.dict.firstOf (some p),
              len := s.dec.dict.lenOf (some p) + 1 }
          nextCode := s.dec.dict.nextCode + 1 }
        node := some v
        bytesWritten := (s.dec.bytesWritten + seq.length) % 2 ^ s.build.ctrw
        port := s.dec.port.gained seq
        err := .capacityViolation
        errinfo := BitVec.ofNat 32 (2 ^ s.build.maxw)
        st := .error } }
    (∀ (i : Instr) (v : Nat) (b : Byte),
      ((∃ c : Byte, i = .literal c ∧ v = c.toNat) ∨ (i = .string v ∧ 257 ≤ v)) →
      v < s.dec.dict.nextCode → (Table.find s.dec.dict.tab v).isSome = true →
      (s.dec.dict.seq v).head? = some b → s.dec.dict.child (some p) b = none →
      exec i s = .next (raised v b (s.dec.dict.seq v))) ∧
    (s.dec.dict.child (some p) (s.dec.dict.firstOf (some p)) = none →
      exec (.kwkwk s.dec.dict.nextCode) s =
        .next (raised s.dec.dict.nextCode (s.dec.dict.firstOf (some p))
          (s.dec.dict.seq p ++ [s.dec.dict.firstOf (some p)])))

/-- 10 R21, R22, R30: outside a reset no entry is modified or removed, and `next_code` and `code_width` never
fall, in the encoder's byte, pending and end operations and on every code word but the clear code. -/
def Obligations.EntriesAreWrittenOnce : Prop :=
  (∀ (s : State) (i : Instr) (n a : BitVec 28) (c : Byte), s.enc.EncInv s.build → s.enc.st = .ready →
    (i = .encChunk n ∨ i = .encEnd a ∨ i = .encByte c ∨ i = .encPending) →
    ∃ t, exec i s = .next t ∧ s.enc.dict.nextCode ≤ t.enc.dict.nextCode ∧
      s.enc.dict.codeWidth ≤ t.enc.dict.codeWidth ∧
      ∀ k e, Table.find s.enc.dict.tab k = some e → Table.find t.enc.dict.tab k = some e) ∧
  (∀ (s : State) (i : Instr) (v : Nat), s.dec.DecInv s.build → s.dec.st = .ready →
    codeValue i = some v → v ≠ 256 →
    ∃ t, exec i s = .next t ∧ s.dec.dict.nextCode ≤ t.dec.dict.nextCode ∧
      s.dec.dict.codeWidth ≤ t.dec.dict.codeWidth ∧
      ∀ k e, Table.find s.dec.dict.tab k = some e → Table.find t.dec.dict.tab k = some e)

/-! ### The host registers -/

/-- 10 R37, R35, 60 R206, R211: the fields of `STATUS`, their values, the reserved bits, and 0 after hardware
reset. -/
def Obligations.StatusLayout : Prop :=
  (∀ g : Engine,
    g.status.extractLsb' 0 2 =
      (match g.st with | .uninit => 0#2 | .ready => 1#2 | .done => 2#2 | .error => 3#2) ∧
    g.status.getLsbD 2 = g.eoi ∧ g.status.getLsbD 3 = g.refused ∧
    g.status.extractLsb' 4 2 =
      (match g.rsn with | .none => 0#2 | .illegalOpcode => 1#2 | .wrongState => 2#2 | .badConfig => 3#2) ∧
    g.status.extractLsb' 6 2 = 0#2 ∧
    g.status.extractLsb' 8 4 =
      (match g.err with
        | .none => 0#4 | .protocolViolation => 1#4 | .capacityViolation => 2#4 | .resourceError => 3#4) ∧
    g.status.extractLsb' 12 20 = 0#20) ∧
  (∀ z, (State.reset.eng z).status = 0#32)

/-- 10 R40, R41, R42: the sixteen registers of either engine; in `UNINIT` the indices 3 to 12 read a value no
statement constrains (log 4). -/
def Obligations.RegisterFile : Prop :=
  ∀ (s : State) (z : EngineId),
    let g := s.eng z
    (s.readReg z 0 = g.status ∧ s.readReg z 1 = g.result ∧ s.readReg z 2 = g.errinfo ∧
      s.readReg z 13 = 0 ∧ s.readReg z 14 = 0 ∧ s.readReg z 15 = 0) ∧
    (g.st ≠ .uninit →
      s.readReg z 3 = BitVec.ofNat 32 g.dict.codeWidth ∧ s.readReg z 4 = BitVec.ofNat 32 g.dict.nextCode ∧
      s.readReg z 5 = BitVec.ofNat 32 g.dict.maxCode ∧
      s.readReg z 6 = (match g.node with | none => 0xFFFFFFFF#32 | some k => BitVec.ofNat 32 k) ∧
      s.readReg z 7 = BitVec.ofNat 32 g.bits ∧ s.readReg z 8 = BitVec.ofNat 32 g.buf ∧
      (g.bytesRead < 2 ^ 64 → (s.readReg z 10 ++ s.readReg z 9).toNat = g.bytesRead) ∧
      (g.bytesWritten < 2 ^ 64 → (s.readReg z 12 ++ s.readReg z 11).toNat = g.bytesWritten))

/-! ### The whole machine -/

/-- 60 R228: the lifecycle table. From every state that meets the invariant, each command has the outcome and
gives the next `ST` the table lists; only `*_CHUNK` can raise (60 R206). -/
def Obligations.LifecycleTable : Prop :=
  ∀ (s : State) (m n a : BitVec 28), s.Inv →
    (∀ z i, ((z = .enc ∧ i = .encInit m) ∨ (z = .dec ∧ i = .decInit m)) →
      ∃ t, exec i s = .next t ∧
        if 1 ≤ m.toNat ∧ m.toNat ≤ 256 then
          (t.eng z).st = (s.eng z).st ∧ (t.eng z).refused = true ∧ (t.eng z).rsn = .badConfig
        else (t.eng z).st = .ready ∧ (t.eng z).refused = false) ∧
    (∀ z i, ((z = .enc ∧ i = .encChunk n) ∨ (z = .dec ∧ i = .decChunk n)) →
      ∃ t, exec i s = .next t ∧
        if (s.eng z).st = .ready then
          (t.eng z).refused = false ∧
          ((t.eng z).st = .ready ∨ ((t.eng z).st = .error ∧ (t.eng z).err ≠ .none) ∨
            (z = .dec ∧ (t.eng z).st = .done ∧ (t.eng z).eoi = true))
        else (t.eng z).st = (s.eng z).st ∧ (t.eng z).refused = true ∧ (t.eng z).rsn = .wrongState) ∧
    (∀ i st, ((i = .encEnd a ∧ st = .done) ∨ (i = .encClear a ∧ st = .ready)) →
      ∃ t, exec i s = .next t ∧
        if s.enc.st = .ready then t.enc.st = st ∧ t.enc.refused = false ∧ t.enc.err = .none
        else t.enc.st = s.enc.st ∧ t.enc.refused = true ∧ t.enc.rsn = .wrongState) ∧
    (∀ z i, ((z = .enc ∧ i = .encDestroy a) ∨ (z = .dec ∧ i = .decDestroy a)) →
      ∃ t, exec i s = .next t ∧ (t.eng z).st = .uninit ∧ (t.eng z).refused = false) ∧
    (∀ w : Word, (opField w).toNat ∈ [0x0, 0x6, 0x7, 0x8, 0xB, 0xC, 0xE, 0xF] →
      let z : EngineId := if w.getLsbD 31 then .dec else .enc
      ∃ t, exec (decode w) s = .next t ∧ (t.eng z).st = (s.eng z).st ∧
        (t.eng z).refused = true ∧ (t.eng z).rsn = .illegalOpcode)

/-- The invariants hold after hardware reset, and the reset event gives them from every state that meets
them; in `UNINIT` 10 R43 to R45 claim nothing of the unspecified state. -/
def Obligations.ResetMeetsTheInvariants : Prop :=
  State.reset.Inv ∧ State.reset.WidthInv ∧ ∀ s : State, s.Inv → s.hwReset.Inv ∧ s.hwReset.WidthInv

/-- 10 R43, R44, R45, 41 R141, R148, 60 R212, R216: every step keeps the invariants of the dictionaries, the
cursors, the bit buffers, the flags and the counters, whatever words wait on the command port. -/
def Obligations.StepKeepsTheInvariant : Prop :=
  ∀ s : State, s.Inv → ∃ t, step s = .next t ∧ t.Inv

/-- 42 R167, 43 R183: every step keeps the width schedule, `W(next_code)` in the encoder and
`W(min(next_code + 1, M))` in the decoder. -/
def Obligations.StepKeepsTheWidthSchedule : Prop :=
  ∀ s : State, s.Inv → s.WidthInv → ∃ t, step s = .next t ∧ t.WidthInv

/-- 43 R192: round trip, for every chunking on both sides. The hypothesis on the encoder's final `next_code` is
the model's reading (NOTES.md, Findings): where the last insertion made `next_code = 2^MAXW` without filling the
dictionary, the decoder raises `CapacityViolation` on the pending code (43 R182), as 95 V32 shows. -/
def Obligations.RoundTrip : Prop :=
  ∀ (s s' : State) (m : BitVec 28) (es ds : List (BitVec 28)) (src : List Byte),
    s.build.Legal → s'.build = s.build → (m = 0 ∨ 257 ≤ m.toNat) →
    src.length ≤ (es.map BitVec.toNat).sum →
    ∃ t, runCommands (encodeProgram m es) (s.bindEnc src) = .next t ∧
      (t.enc.st ≠ .error → (t.enc.dict.full = true ∨ t.enc.dict.nextCode < 2 ^ s.build.maxw) →
        8 * t.enc.port.snk.length / 9 + 1 ≤ (ds.map BitVec.toNat).sum →
        ∃ u, runCommands (decodeProgram m ds) (s'.bindDec t.enc.port.snk) = .next u ∧
          u.dec.port.snk = src ∧ u.dec.st = .done ∧ u.dec.err = .none ∧ u.dec.bits < 8 ∧ u.dec.buf = 0)

/-- 44 R200, R201, 70 R241: round trip with clear codes anywhere outside the boundary condition, and for a host
that ends the stream before its input is used up: the decoder writes exactly the bytes the encoder consumed. -/
def Obligations.RoundTripWithClears : Prop :=
  ∀ (s s' : State) (m a : BitVec 28) (acts : List EncAction) (ds : List (BitVec 28)) (src : List Byte),
    s.build.Legal → s'.build = s.build → (m = 0 ∨ 257 ≤ m.toNat) →
    (∀ pre post, acts = pre ++ .clear :: post → ∃ p, runCommands (openProgram m pre) (s.bindEnc src) = .next p ∧
      (p.enc.eoi = true ∨ ¬p.enc.clearHazard)) →
    ∃ t, runCommands (openProgram m acts ++ [0x3#4 ++ a]) (s.bindEnc src) = .next t ∧
      (t.enc.st ≠ .error → (t.enc.dict.full = true ∨ t.enc.dict.nextCode < 2 ^ s.build.maxw) →
        8 * t.enc.port.snk.length / 9 + 1 ≤ (ds.map BitVec.toNat).sum →
        ∃ u, runCommands (decodeProgram m ds) (s'.bindDec t.enc.port.snk) = .next u ∧
          u.dec.port.snk = src.take t.enc.port.pos ∧ u.dec.st = .done ∧ u.dec.err = .none ∧
          u.dec.bits < 8 ∧ u.dec.buf = 0)
end

