-- ==== Sys2Proof/Laws/State.lean ====
section
/-! SUPPORT. One lemma per field per update, each true by rfl, so that no later proof unfolds a record update. -/

namespace Sys2Proof.Machine

/-! ### The two engines in the state -/

@[simp] theorem State.eng_enc (s : State) : s.eng .enc = s.enc := rfl
@[simp] theorem State.eng_dec (s : State) : s.eng .dec = s.dec := rfl
@[simp] theorem State.setEng_enc_enc (s : State) (g : Engine) : (s.setEng .enc g).enc = g := rfl
@[simp] theorem State.setEng_enc_dec (s : State) (g : Engine) : (s.setEng .enc g).dec = s.dec := rfl
@[simp] theorem State.setEng_dec_dec (s : State) (g : Engine) : (s.setEng .dec g).dec = g := rfl
@[simp] theorem State.setEng_dec_enc (s : State) (g : Engine) : (s.setEng .dec g).enc = s.enc := rfl
@[simp] theorem State.setEng_build (s : State) (z : EngineId) (g : Engine) : (s.setEng z g).build = s.build := by cases z <;> rfl
@[simp] theorem State.setEng_cmds (s : State) (z : EngineId) (g : Engine) : (s.setEng z g).cmds = s.cmds := by cases z <;> rfl
@[simp] theorem State.setEng_ret (s : State) (z : EngineId) (g : Engine) : (s.setEng z g).ret = s.ret := by cases z <;> rfl
@[simp] theorem State.setEng_free (s : State) (z : EngineId) (g : Engine) : (s.setEng z g).free = s.free := by cases z <;> rfl
@[simp] theorem State.setEng_eng (s : State) (z : EngineId) (g : Engine) : (s.setEng z g).eng z = g := by cases z <;> rfl
@[simp] theorem State.setEng_self (s : State) (z : EngineId) : s.setEng z (s.eng z) = s := by cases z <;> rfl
theorem State.onEng_eq (s : State) (z : EngineId) (f : Engine → Engine) : s.onEng z f = s.setEng z (f (s.eng z)) := rfl
theorem State.setEng_eng_other (s : State) (z y : EngineId) (g : Engine) (h : y ≠ z) :
    (s.setEng z g).eng y = s.eng y := by
  cases z <;> cases y <;> first | rfl | exact absurd rfl h

@[simp] theorem Res.engine_ok {α : Type} (a : α) (g : Engine) : (Res.ok a g).engine = g := rfl
@[simp] theorem Res.engine_raised {α : Type} (g : Engine) : (Res.raised g : Res α).engine = g := rfl

@[simp] theorem State.afterPrim_ok (s : State) (z : EngineId) (a : PrimResult) (g : Engine) :
    s.afterPrim z (.ok a g) = { s.setEng z g with ret := a } := rfl
@[simp] theorem State.afterPrim_raised (s : State) (z : EngineId) (g : Engine) :
    s.afterPrim z (.raised g) = { s.setEng z g with ret := .raised } := rfl
@[simp] theorem State.afterCode_eq {α : Type} (s : State) (r : Res α) : s.afterCode r = s.setEng .dec r.engine := rfl

@[simp] theorem State.destroy_free (s : State) (z : EngineId) : (s.destroy z).free = s.free + 1 := rfl
@[simp] theorem State.destroy_build (s : State) (z : EngineId) : (s.destroy z).build = s.build := by cases z <;> rfl
@[simp] theorem State.destroy_cmds (s : State) (z : EngineId) : (s.destroy z).cmds = s.cmds := by cases z <;> rfl
@[simp] theorem State.destroy_ret (s : State) (z : EngineId) : (s.destroy z).ret = s.ret := by cases z <;> rfl
@[simp] theorem State.destroy_eng (s : State) (z : EngineId) :
    (s.destroy z).eng z = Engine.unspecified s.build z s.free (s.eng z).port := by cases z <;> rfl

@[simp] theorem State.takeCommand_nil (s : State) (h : s.cmds = []) : s.takeCommand = none := by
  simp [State.takeCommand, h]
@[simp] theorem State.takeCommand_cons (s : State) (w : Word) (ws : List Word) (h : s.cmds = w :: ws) :
    s.takeCommand = some (w, { s with cmds := ws }) := by
  simp [State.takeCommand, h]

/-! ### accept, refuse, latchEoi, zeroFlags, raise -/

@[simp] theorem Engine.accept_dict (g : Engine) : (g.accept).dict = g.dict := rfl
@[simp] theorem Engine.accept_node (g : Engine) : (g.accept).node = g.node := rfl
@[simp] theorem Engine.accept_buf (g : Engine) : (g.accept).buf = g.buf := rfl
@[simp] theorem Engine.accept_bits (g : Engine) : (g.accept).bits = g.bits := rfl
@[simp] theorem Engine.accept_bytesRead (g : Engine) : (g.accept).bytesRead = g.bytesRead := rfl
@[simp] theorem Engine.accept_bytesWritten (g : Engine) : (g.accept).bytesWritten = g.bytesWritten := rfl
@[simp] theorem Engine.accept_st (g : Engine) : (g.accept).st = g.st := rfl
@[simp] theorem Engine.accept_eoi (g : Engine) : (g.accept).eoi = g.eoi := rfl
@[simp] theorem Engine.accept_refused (g : Engine) : (g.accept).refused = false := rfl
@[simp] theorem Engine.accept_rsn (g : Engine) : (g.accept).rsn = .none := rfl
@[simp] theorem Engine.accept_err (g : Engine) : (g.accept).err = g.err := rfl
@[simp] theorem Engine.accept_result (g : Engine) : (g.accept).result = g.result := rfl
@[simp] theorem Engine.accept_errinfo (g : Engine) : (g.accept).errinfo = g.errinfo := rfl
@[simp] theorem Engine.accept_port (g : Engine) : (g.accept).port = g.port := rfl

/-! ### refuse -/

@[simp] theorem Engine.refuse_dict (r : Reason) (g : Engine) : (g.refuse r).dict = g.dict := rfl
@[simp] theorem Engine.refuse_node (r : Reason) (g : Engine) : (g.refuse r).node = g.node := rfl
@[simp] theorem Engine.refuse_buf (r : Reason) (g : Engine) : (g.refuse r).buf = g.buf := rfl
@[simp] theorem Engine.refuse_bits (r : Reason) (g : Engine) : (g.refuse r).bits = g.bits := rfl
@[simp] theorem Engine.refuse_bytesRead (r : Reason) (g : Engine) : (g.refuse r).bytesRead = g.bytesRead := rfl
@[simp] theorem Engine.refuse_bytesWritten (r : Reason) (g : Engine) : (g.refuse r).bytesWritten = g.bytesWritten := rfl
@[simp] theorem Engine.refuse_st (r : Reason) (g : Engine) : (g.refuse r).st = g.st := rfl
@[simp] theorem Engine.refuse_eoi (r : Reason) (g : Engine) : (g.refuse r).eoi = g.eoi := rfl
@[simp] theorem Engine.refuse_refused (r : Reason) (g : Engine) : (g.refuse r).refused = true := rfl
@[simp] theorem Engine.refuse_rsn (r : Reason) (g : Engine) : (g.refuse r).rsn = r := rfl
@[simp] theorem Engine.refuse_err (r : Reason) (g : Engine) : (g.refuse r).err = g.err := rfl
@[simp] theorem Engine.refuse_result (r : Reason) (g : Engine) : (g.refuse r).result = g.result := rfl
@[simp] theorem Engine.refuse_errinfo (r : Reason) (g : Engine) : (g.refuse r).errinfo = g.errinfo := rfl
@[simp] theorem Engine.refuse_port (r : Reason) (g : Engine) : (g.refuse r).port = g.port := rfl

/-! ### latchEoi -/

@[simp] theorem Engine.latchEoi_dict (g : Engine) : (g.latchEoi).dict = g.dict := rfl
@[simp] theorem Engine.latchEoi_node (g : Engine) : (g.latchEoi).node = g.node := rfl
@[simp] theorem Engine.latchEoi_buf (g : Engine) : (g.latchEoi).buf = g.buf := rfl
@[simp] theorem Engine.latchEoi_bits (g : Engine) : (g.latchEoi).bits = g.bits := rfl
@[simp] theorem Engine.latchEoi_bytesRead (g : Engine) : (g.latchEoi).bytesRead = g.bytesRead := rfl
@[simp] theorem Engine.latchEoi_bytesWritten (g : Engine) : (g.latchEoi).bytesWritten = g.bytesWritten := rfl
@[simp] theorem Engine.latchEoi_st (g : Engine) : (g.latchEoi).st = g.st := rfl
@[simp] theorem Engine.latchEoi_eoi (g : Engine) : (g.latchEoi).eoi = true := rfl
@[simp] theorem Engine.latchEoi_refused (g : Engine) : (g.latchEoi).refused = g.refused := rfl
@[simp] theorem Engine.latchEoi_rsn (g : Engine) : (g.latchEoi).rsn = g.rsn := rfl
@[simp] theorem Engine.latchEoi_err (g : Engine) : (g.latchEoi).err = g.err := rfl
@[simp] theorem Engine.latchEoi_result (g : Engine) : (g.latchEoi).result = g.result := rfl
@[simp] theorem Engine.latchEoi_errinfo (g : Engine) : (g.latchEoi).errinfo = g.errinfo := rfl
@[simp] theorem Engine.latchEoi_port (g : Engine) : (g.latchEoi).port = g.port := rfl

/-! ### zeroFlags -/

@[simp] theorem Engine.zeroFlags_dict (g : Engine) : (g.zeroFlags).dict = g.dict := rfl
@[simp] theorem Engine.zeroFlags_node (g : Engine) : (g.zeroFlags).node = g.node := rfl
@[simp] theorem Engine.zeroFlags_buf (g : Engine) : (g.zeroFlags).buf = g.buf := rfl
@[simp] theorem Engine.zeroFlags_bits (g : Engine) : (g.zeroFlags).bits = g.bits := rfl
@[simp] theorem Engine.zeroFlags_bytesRead (g : Engine) : (g.zeroFlags).bytesRead = g.bytesRead := rfl
@[simp] theorem Engine.zeroFlags_bytesWritten (g : Engine) : (g.zeroFlags).bytesWritten = g.bytesWritten := rfl
@[simp] theorem Engine.zeroFlags_st (g : Engine) : (g.zeroFlags).st = g.st := rfl
@[simp] theorem Engine.zeroFlags_eoi (g : Engine) : (g.zeroFlags).eoi = false := rfl
@[simp] theorem Engine.zeroFlags_refused (g : Engine) : (g.zeroFlags).refused = false := rfl
@[simp] theorem Engine.zeroFlags_rsn (g : Engine) : (g.zeroFlags).rsn = .none := rfl
@[simp] theorem Engine.zeroFlags_err (g : Engine) : (g.zeroFlags).err = .none := rfl
@[simp] theorem Engine.zeroFlags_result (g : Engine) : (g.zeroFlags).result = 0 := rfl
@[simp] theorem Engine.zeroFlags_errinfo (g : Engine) : (g.zeroFlags).errinfo = 0 := rfl
@[simp] theorem Engine.zeroFlags_port (g : Engine) : (g.zeroFlags).port = g.port := rfl

/-! ### raise -/

@[simp] theorem Engine.raise_dict (x : ErrKind) (n : Nat) (g : Engine) : (g.raise x n).dict = g.dict := rfl
@[simp] theorem Engine.raise_node (x : ErrKind) (n : Nat) (g : Engine) : (g.raise x n).node = g.node := rfl
@[simp] theorem Engine.raise_buf (x : ErrKind) (n : Nat) (g : Engine) : (g.raise x n).buf = g.buf := rfl
@[simp] theorem Engine.raise_bits (x : ErrKind) (n : Nat) (g : Engine) : (g.raise x n).bits = g.bits := rfl
@[simp] theorem Engine.raise_bytesRead (x : ErrKind) (n : Nat) (g : Engine) : (g.raise x n).bytesRead = g.bytesRead := rfl
@[simp] theorem Engine.raise_bytesWritten (x : ErrKind) (n : Nat) (g : Engine) : (g.raise x n).bytesWritten = g.bytesWritten := rfl
@[simp] theorem Engine.raise_st (x : ErrKind) (n : Nat) (g : Engine) : (g.raise x n).st = .error := rfl
@[simp] theorem Engine.raise_eoi (x : ErrKind) (n : Nat) (g : Engine) : (g.raise x n).eoi = g.eoi := rfl
@[simp] theorem Engine.raise_refused (x : ErrKind) (n : Nat) (g : Engine) : (g.raise x n).refused = g.refused := rfl
@[simp] theorem Engine.raise_rsn (x : ErrKind) (n : Nat) (g : Engine) : (g.raise x n).rsn = g.rsn := rfl
@[simp] theorem Engine.raise_err (x : ErrKind) (n : Nat) (g : Engine) : (g.raise x n).err = x := rfl
@[simp] theorem Engine.raise_result (x : ErrKind) (n : Nat) (g : Engine) : (g.raise x n).result = g.result := rfl
@[simp] theorem Engine.raise_errinfo (x : ErrKind) (n : Nat) (g : Engine) : (g.raise x n).errinfo = BitVec.ofNat 32 n := rfl
@[simp] theorem Engine.raise_port (x : ErrKind) (n : Nat) (g : Engine) : (g.raise x n).port = g.port := rfl

/-! ### emit -/

@[simp] theorem Engine.emit_dict (B : Config.Build) (g : Engine) (b : Byte) : (g.emit B b).dict = g.dict := rfl
@[simp] theorem Engine.emit_node (B : Config.Build) (g : Engine) (b : Byte) : (g.emit B b).node = g.node := rfl
@[simp] theorem Engine.emit_buf (B : Config.Build) (g : Engine) (b : Byte) : (g.emit B b).buf = g.buf := rfl
@[simp] theorem Engine.emit_bits (B : Config.Build) (g : Engine) (b : Byte) : (g.emit B b).bits = g.bits := rfl
@[simp] theorem Engine.emit_bytesRead (B : Config.Build) (g : Engine) (b : Byte) : (g.emit B b).bytesRead = g.bytesRead := rfl
@[simp] theorem Engine.emit_bytesWritten (B : Config.Build) (g : Engine) (b : Byte) : (g.emit B b).bytesWritten = countUp B g.bytesWritten := rfl
@[simp] theorem Engine.emit_st (B : Config.Build) (g : Engine) (b : Byte) : (g.emit B b).st = g.st := rfl
@[simp] theorem Engine.emit_eoi (B : Config.Build) (g : Engine) (b : Byte) : (g.emit B b).eoi = g.eoi := rfl
@[simp] theorem Engine.emit_refused (B : Config.Build) (g : Engine) (b : Byte) : (g.emit B b).refused = g.refused := rfl
@[simp] theorem Engine.emit_rsn (B : Config.Build) (g : Engine) (b : Byte) : (g.emit B b).rsn = g.rsn := rfl
@[simp] theorem Engine.emit_err (B : Config.Build) (g : Engine) (b : Byte) : (g.emit B b).err = g.err := rfl
@[simp] theorem Engine.emit_result (B : Config.Build) (g : Engine) (b : Byte) : (g.emit B b).result = g.result := rfl
@[simp] theorem Engine.emit_errinfo (B : Config.Build) (g : Engine) (b : Byte) : (g.emit B b).errinfo = g.errinfo := rfl
@[simp] theorem Engine.emit_port (B : Config.Build) (g : Engine) (b : Byte) : (g.emit B b).port = g.port.write b := rfl

/-! ### append -/

@[simp] theorem Engine.append_dict (v w : Nat) (g : Engine) : (g.append v w).dict = g.dict := rfl
@[simp] theorem Engine.append_node (v w : Nat) (g : Engine) : (g.append v w).node = g.node := rfl
@[simp] theorem Engine.append_buf (v w : Nat) (g : Engine) : (g.append v w).buf = g.buf * 2 ^ w + v := rfl
@[simp] theorem Engine.append_bits (v w : Nat) (g : Engine) : (g.append v w).bits = g.bits + w := rfl
@[simp] theorem Engine.append_bytesRead (v w : Nat) (g : Engine) : (g.append v w).bytesRead = g.bytesRead := rfl
@[simp] theorem Engine.append_bytesWritten (v w : Nat) (g : Engine) : (g.append v w).bytesWritten = g.bytesWritten := rfl
@[simp] theorem Engine.append_st (v w : Nat) (g : Engine) : (g.append v w).st = g.st := rfl
@[simp] theorem Engine.append_eoi (v w : Nat) (g : Engine) : (g.append v w).eoi = g.eoi := rfl
@[simp] theorem Engine.append_refused (v w : Nat) (g : Engine) : (g.append v w).refused = g.refused := rfl
@[simp] theorem Engine.append_rsn (v w : Nat) (g : Engine) : (g.append v w).rsn = g.rsn := rfl
@[simp] theorem Engine.append_err (v w : Nat) (g : Engine) : (g.append v w).err = g.err := rfl
@[simp] theorem Engine.append_result (v w : Nat) (g : Engine) : (g.append v w).result = g.result := rfl
@[simp] theorem Engine.append_errinfo (v w : Nat) (g : Engine) : (g.append v w).errinfo = g.errinfo := rfl
@[simp] theorem Engine.append_port (v w : Nat) (g : Engine) : (g.append v w).port = g.port := rfl

/-! ### restart -/

@[simp] theorem Engine.restart_dict (c : Byte) (g : Engine) : (g.restart c).dict = (g.dict.extend none c).2 := rfl
@[simp] theorem Engine.restart_node (c : Byte) (g : Engine) : (g.restart c).node = some c.toNat := rfl
@[simp] theorem Engine.restart_buf (c : Byte) (g : Engine) : (g.restart c).buf = g.buf := rfl
@[simp] theorem Engine.restart_bits (c : Byte) (g : Engine) : (g.restart c).bits = g.bits := rfl
@[simp] theorem Engine.restart_bytesRead (c : Byte) (g : Engine) : (g.restart c).bytesRead = g.bytesRead := rfl
@[simp] theorem Engine.restart_bytesWritten (c : Byte) (g : Engine) : (g.restart c).bytesWritten = g.bytesWritten := rfl
@[simp] theorem Engine.restart_st (c : Byte) (g : Engine) : (g.restart c).st = g.st := rfl
@[simp] theorem Engine.restart_eoi (c : Byte) (g : Engine) : (g.restart c).eoi = g.eoi := rfl
@[simp] theorem Engine.restart_refused (c : Byte) (g : Engine) : (g.restart c).refused = g.refused := rfl
@[simp] theorem Engine.restart_rsn (c : Byte) (g : Engine) : (g.restart c).rsn = g.rsn := rfl
@[simp] theorem Engine.restart_err (c : Byte) (g : Engine) : (g.restart c).err = g.err := rfl
@[simp] theorem Engine.restart_result (c : Byte) (g : Engine) : (g.restart c).result = g.result := rfl
@[simp] theorem Engine.restart_errinfo (c : Byte) (g : Engine) : (g.restart c).errinfo = g.errinfo := rfl
@[simp] theorem Engine.restart_port (c : Byte) (g : Engine) : (g.restart c).port = g.port := rfl

/-! ### decClear -/

@[simp] theorem Engine.decClear_dict (g : Engine) : (g.decClear).dict = g.dict.reset := rfl
@[simp] theorem Engine.decClear_node (g : Engine) : (g.decClear).node = none := rfl
@[simp] theorem Engine.decClear_buf (g : Engine) : (g.decClear).buf = 0 := rfl
@[simp] theorem Engine.decClear_bits (g : Engine) : (g.decClear).bits = 0 := rfl
@[simp] theorem Engine.decClear_bytesRead (g : Engine) : (g.decClear).bytesRead = g.bytesRead := rfl
@[simp] theorem Engine.decClear_bytesWritten (g : Engine) : (g.decClear).bytesWritten = g.bytesWritten := rfl
@[simp] theorem Engine.decClear_st (g : Engine) : (g.decClear).st = g.st := rfl
@[simp] theorem Engine.decClear_eoi (g : Engine) : (g.decClear).eoi = g.eoi := rfl
@[simp] theorem Engine.decClear_refused (g : Engine) : (g.decClear).refused = g.refused := rfl
@[simp] theorem Engine.decClear_rsn (g : Engine) : (g.decClear).rsn = g.rsn := rfl
@[simp] theorem Engine.decClear_err (g : Engine) : (g.decClear).err = g.err := rfl
@[simp] theorem Engine.decClear_result (g : Engine) : (g.decClear).result = g.result := rfl
@[simp] theorem Engine.decClear_errinfo (g : Engine) : (g.decClear).errinfo = g.errinfo := rfl
@[simp] theorem Engine.decClear_port (g : Engine) : (g.decClear).port = g.port := rfl

/-! ### fresh -/

@[simp] theorem Engine.fresh_dict (m : Nat) (g : Engine) : (g.fresh m).dict = Dict.init { g.dict with maxCode := m } := rfl
@[simp] theorem Engine.fresh_node (m : Nat) (g : Engine) : (g.fresh m).node = none := rfl
@[simp] theorem Engine.fresh_buf (m : Nat) (g : Engine) : (g.fresh m).buf = 0 := rfl
@[simp] theorem Engine.fresh_bits (m : Nat) (g : Engine) : (g.fresh m).bits = 0 := rfl
@[simp] theorem Engine.fresh_bytesRead (m : Nat) (g : Engine) : (g.fresh m).bytesRead = 0 := rfl
@[simp] theorem Engine.fresh_bytesWritten (m : Nat) (g : Engine) : (g.fresh m).bytesWritten = 0 := rfl
@[simp] theorem Engine.fresh_st (m : Nat) (g : Engine) : (g.fresh m).st = .ready := rfl
@[simp] theorem Engine.fresh_eoi (m : Nat) (g : Engine) : (g.fresh m).eoi = false := rfl
@[simp] theorem Engine.fresh_refused (m : Nat) (g : Engine) : (g.fresh m).refused = false := rfl
@[simp] theorem Engine.fresh_rsn (m : Nat) (g : Engine) : (g.fresh m).rsn = .none := rfl
@[simp] theorem Engine.fresh_err (m : Nat) (g : Engine) : (g.fresh m).err = .none := rfl
@[simp] theorem Engine.fresh_result (m : Nat) (g : Engine) : (g.fresh m).result = 0 := rfl
@[simp] theorem Engine.fresh_errinfo (m : Nat) (g : Engine) : (g.fresh m).errinfo = 0 := rfl
@[simp] theorem Engine.fresh_port (m : Nat) (g : Engine) : (g.fresh m).port = g.port := rfl

/-! ### unspecified -/

@[simp] theorem Engine.unspecified_st (B : Config.Build) (z : EngineId) (n : Nat) (p : Port) : (Engine.unspecified B z n p).st = .uninit := rfl
@[simp] theorem Engine.unspecified_eoi (B : Config.Build) (z : EngineId) (n : Nat) (p : Port) : (Engine.unspecified B z n p).eoi = false := rfl
@[simp] theorem Engine.unspecified_refused (B : Config.Build) (z : EngineId) (n : Nat) (p : Port) : (Engine.unspecified B z n p).refused = false := rfl
@[simp] theorem Engine.unspecified_rsn (B : Config.Build) (z : EngineId) (n : Nat) (p : Port) : (Engine.unspecified B z n p).rsn = .none := rfl
@[simp] theorem Engine.unspecified_err (B : Config.Build) (z : EngineId) (n : Nat) (p : Port) : (Engine.unspecified B z n p).err = .none := rfl
@[simp] theorem Engine.unspecified_result (B : Config.Build) (z : EngineId) (n : Nat) (p : Port) : (Engine.unspecified B z n p).result = 0 := rfl
@[simp] theorem Engine.unspecified_errinfo (B : Config.Build) (z : EngineId) (n : Nat) (p : Port) : (Engine.unspecified B z n p).errinfo = 0 := rfl
@[simp] theorem Engine.unspecified_port (B : Config.Build) (z : EngineId) (n : Nat) (p : Port) : (Engine.unspecified B z n p).port = p := rfl

/-! ### Ports -/

@[simp] theorem Port.write_src (p : Port) (b : Byte) : (p.write b).src = p.src := rfl
@[simp] theorem Port.write_pos (p : Port) (b : Byte) : (p.write b).pos = p.pos := rfl
@[simp] theorem Port.write_snk (p : Port) (b : Byte) : (p.write b).snk = p.snk ++ [b] := rfl
@[simp] theorem Port.write_events (p : Port) (b : Byte) : (p.write b).events = p.events ++ [.wrote b] := rfl
@[simp] theorem Port.gained_src (p : Port) (out : List Byte) : (p.gained out).src = p.src := rfl
@[simp] theorem Port.gained_pos (p : Port) (out : List Byte) : (p.gained out).pos = p.pos := rfl
@[simp] theorem Port.gained_snk (p : Port) (out : List Byte) : (p.gained out).snk = p.snk ++ out := rfl
@[simp] theorem Port.gained_events (p : Port) (out : List Byte) :
    (p.gained out).events = p.events ++ out.map .wrote := rfl
@[simp] theorem Port.advanced_src (p : Port) (m : Nat) : (p.advanced m).src = p.src := rfl
@[simp] theorem Port.advanced_pos (p : Port) (m : Nat) : (p.advanced m).pos = p.pos + m := rfl
@[simp] theorem Port.advanced_snk (p : Port) (m : Nat) : (p.advanced m).snk = p.snk := rfl
@[simp] theorem Port.advanced_events (p : Port) (m : Nat) :
    (p.advanced m).events = p.events ++ ((p.src.drop p.pos).take m).map .gave := rfl
@[simp] theorem Port.answeredNone_src (p : Port) : p.answeredNone.src = p.src := rfl
@[simp] theorem Port.answeredNone_pos (p : Port) : p.answeredNone.pos = p.pos := rfl
@[simp] theorem Port.answeredNone_snk (p : Port) : p.answeredNone.snk = p.snk := rfl
@[simp] theorem Port.answeredNone_events (p : Port) : p.answeredNone.events = p.events ++ [.ended] := rfl

theorem Port.write_eq (p : Port) (b : Byte) : p.write b = p.gained [b] := rfl
@[simp] theorem Port.gained_nil (p : Port) : p.gained [] = p := by simp [Port.gained]
@[simp] theorem Port.gained_gained (p : Port) (a b : List Byte) : (p.gained a).gained b = p.gained (a ++ b) := by
  simp [Port.gained]
@[simp] theorem Port.advanced_zero (p : Port) : p.advanced 0 = p := by simp [Port.advanced]
@[simp] theorem Port.advanced_advanced (p : Port) (m n : Nat) : (p.advanced m).advanced n = p.advanced (m + n) := by
  simp [Port.advanced, List.take_add, Nat.add_assoc]

/-- Everything `SRC.read` can answer (20 R66). -/
theorem Port.read_cases (p : Port) :
    (p.src.length ≤ p.pos ∧ p.read = (none, p.answeredNone)) ∨
    (∃ h : p.pos < p.src.length, p.read = (some p.src[p.pos], p.advanced 1)) := by
  by_cases h : p.pos < p.src.length
  · exact .inr ⟨h, by simp [Port.read, Port.advanced, List.take_one, h]⟩
  · exact .inl ⟨by omega, by simp [Port.read, Port.answeredNone, Nat.le_of_not_lt h]⟩

/-- Replaying events records them, in order, after those before. -/
theorem Port.replay_events (ev : List PortEvent) (p q : Port) (h : Port.replay ev p = some q) :
    q.events = p.events ++ ev := by
  induction ev generalizing p with
  | nil => simp only [Port.replay, Option.some.injEq] at h; simp [h]
  | cons e ev ih =>
    cases e <;> simp only [Port.replay] at h
    · split at h
      · rename_i b hb
        simp [ih _ h, List.take_one, hb]
      · cases h
    · split at h
      · simp [ih _ h]
      · cases h
    · simp [ih _ h]

/-! ### Dictionaries -/

@[simp] theorem Dict.init_codeWidth (d : Dict) : d.init.codeWidth = 9 := rfl
@[simp] theorem Dict.init_nextCode (d : Dict) : d.init.nextCode = 257 := rfl
@[simp] theorem Dict.init_maxCode (d : Dict) : d.init.maxCode = d.maxCode := rfl
@[simp] theorem Dict.init_tab (d : Dict) : d.init.tab = literalTable := rfl
@[simp] theorem Dict.reset_eq_init (d : Dict) : d.reset = d.init := rfl

/-! ### A command's acceptance -/

theorem Engine.whenReady_ready (f : Engine → Engine) (g : Engine) (h : g.st = .ready) :
    g.whenReady f = f g.accept := by simp [Engine.whenReady, h]
theorem Engine.whenReady_other (f : Engine → Engine) (g : Engine) (h : g.st ≠ .ready) :
    g.whenReady f = g.refuse .wrongState := by simp [Engine.whenReady, h]
theorem Engine.initCmd_good (m : Nat) (g : Engine) (h : ¬badMaxCode m) : g.initCmd m = g.fresh m := by
  simp only [Engine.initCmd, if_neg h]
theorem Engine.initCmd_bad (m : Nat) (g : Engine) (h : badMaxCode m) : g.initCmd m = g.refuse .badConfig := by
  simp only [Engine.initCmd, if_pos h]

end Sys2Proof.Machine
end

