-- ==== Sys2Proof/Laws/Bitstream.lean ====
section
/-! SUPPORT. The Bit Stream Codec: what each operation leaves, and what it leaves unchanged. -/

namespace Sys2Proof.Machine

/-! ### The counters -/

theorem countUp_lt (B : Config.Build) (n : Nat) : countUp B n < 2 ^ B.ctrw :=
  Nat.mod_lt _ (Nat.two_pow_pos _)

/-- `n` increments of a counter in range. -/
theorem countUp_iterate (B : Config.Build) (n c : Nat) (h : c < 2 ^ B.ctrw) :
    (countUp B)^[n] c = (c + n) % 2 ^ B.ctrw := by
  induction n generalizing c with
  | zero => simp [Nat.mod_eq_of_lt h]
  | succ n ih =>
    rw [Function.iterate_succ_apply, ih _ (countUp_lt B c), countUp, Nat.mod_add_mod]
    congr 1; omega

theorem countUp_iterate_lt (B : Config.Build) (n c : Nat) (h : c < 2 ^ B.ctrw) :
    (countUp B)^[n] c < 2 ^ B.ctrw := by
  rw [countUp_iterate B n c h]; exact Nat.mod_lt _ (Nat.two_pow_pos _)

/-! ### The sink -/

/-- A sequence written byte by byte: appended to the sink and counted (43 R177). -/
theorem Engine.emitAll_eq (B : Config.Build) (g : Engine) (s : List Byte) :
    g.emitAll B s =
      { g with
        bytesWritten := (countUp B)^[s.length] g.bytesWritten
        port := g.port.gained s } := by
  induction s generalizing g with
  | nil => simp [Engine.emitAll]
  | cons b s ih =>
    rw [show g.emitAll B (b :: s) = (g.emit B b).emitAll B s from rfl, ih]
    simp [Engine.emit, Port.write_eq]

/-! ### BW.PUSH -/

/-- The drain loop: whole bytes leave, oldest first; nothing but the buffer, the counter and the sink changes. -/
theorem Engine.drain_eq (B : Config.Build) (n : Nat) (g : Engine) (h : 8 * n ≤ g.bits)
    (hb : g.buf < 2 ^ g.bits) :
    ∃ out : List Byte, out.length = n ∧
      g.drain B n =
        { g with
          bits := g.bits - 8 * n
          buf := g.buf % 2 ^ (g.bits - 8 * n)
          bytesWritten := (countUp B)^[n] g.bytesWritten
          port := g.port.gained out } := by
  induction n generalizing g with
  | zero => exact ⟨[], rfl, by simp [Engine.drain, Nat.mod_eq_of_lt hb]⟩
  | succ n ih =>
    have h8 : 8 ≤ g.bits := by omega
    obtain ⟨out, hlen, heq⟩ := ih
      { g.emit B (topByte g.buf g.bits) with bits := g.bits - 8, buf := g.buf % 2 ^ (g.bits - 8) }
      (by show 8 * n ≤ g.bits - 8; omega) (Nat.mod_lt _ (Nat.two_pow_pos _))
    refine ⟨topByte g.buf g.bits :: out, by simp [hlen], ?_⟩
    rw [Engine.drain, if_pos h8, heq]
    simp only [Engine.emit, Port.write_eq, Port.gained_gained, Function.iterate_succ_apply, List.cons_append,
      List.nil_append, Engine.mk.injEq, true_and, and_true]
    refine ⟨?_, by omega⟩
    rw [show g.bits - 8 - 8 * n = g.bits - 8 * (n + 1) by omega,
      Nat.mod_mod_of_dvd _ (Nat.pow_dvd_pow 2 (by omega))]

/-- A push within its precondition completes: `(bits + width) div 8` bytes leave, the rest stays (41 R142). -/
theorem Engine.push_ok (B : Config.Build) (g : Engine) (v w : Nat) (h1 : 1 ≤ w) (h2 : w ≤ B.maxw)
    (hv : v < 2 ^ w) (hb : g.buf < 2 ^ g.bits) :
    ∃ out : List Byte, out.length = (g.bits + w) / 8 ∧
      g.push B v w = .ok ()
        { g with
          bits := (g.bits + w) % 8
          buf := (g.buf * 2 ^ w + v) % 2 ^ ((g.bits + w) % 8)
          bytesWritten := (countUp B)^[(g.bits + w) / 8] g.bytesWritten
          port := g.port.gained out } := by
  have hlt : g.buf * 2 ^ w + v < 2 ^ (g.bits + w) := by
    rw [Nat.pow_add]
    calc g.buf * 2 ^ w + v < g.buf * 2 ^ w + 2 ^ w := by omega
      _ = (g.buf + 1) * 2 ^ w := by rw [Nat.add_mul, Nat.one_mul]
      _ ≤ 2 ^ g.bits * 2 ^ w := Nat.mul_le_mul_right _ hb
  obtain ⟨out, hlen, heq⟩ := Engine.drain_eq B ((g.bits + w) / 8) (g.append v w)
    (by show 8 * ((g.bits + w) / 8) ≤ g.bits + w; omega) hlt
  refine ⟨out, hlen, ?_⟩
  rw [Engine.push, if_neg (by omega), heq]
  have hmod : g.bits + w - 8 * ((g.bits + w) / 8) = (g.bits + w) % 8 := by omega
  simp only [Engine.append, hmod]

/-- A push outside its precondition raises and does nothing else (41 R143). -/
theorem Engine.push_raised (B : Config.Build) (g : Engine) (v w : Nat)
    (h : w < 1 ∨ B.maxw < w ∨ 2 ^ w ≤ v) : g.push B v w = .raised (g.raise .capacityViolation v) := by
  rw [Engine.push, if_pos h]

/-! ### BW.FLUSH -/

theorem Engine.flush_empty (B : Config.Build) (g : Engine) (h : g.bits = 0) : g.flush B = g := by
  simp [Engine.flush, h]

theorem Engine.flush_pad (B : Config.Build) (g : Engine) (h : 0 < g.bits) :
    g.flush B =
      { g with
        bits := 0
        buf := 0
        bytesWritten := countUp B g.bytesWritten
        port := g.port.gained [BitVec.ofNat 8 (g.buf * 2 ^ (8 - g.bits))] } := by
  simp [Engine.flush, h, Engine.emit, Port.write_eq]

/-! ### BR.PULL -/

/-- Everything a counted source read can answer (10 R29, 20 R66). -/
theorem Engine.takeByte_cases (B : Config.Build) (g : Engine) :
    (g.port.src.length ≤ g.port.pos ∧ g.takeByte B = (none, { g with port := g.port.answeredNone })) ∨
    (∃ h : g.port.pos < g.port.src.length,
      g.takeByte B = (some g.port.src[g.port.pos],
        { g with port := g.port.advanced 1, bytesRead := countUp B g.bytesRead })) := by
  rcases g.port.read_cases with ⟨h, hr⟩ | ⟨h, hr⟩
  · exact .inl ⟨h, by simp only [Engine.takeByte, hr]⟩
  · exact .inr ⟨h, by simp only [Engine.takeByte, hr]⟩

/-- The refill loop: it takes some bytes from the source into the buffer and stops with enough bits, or with
the `None` that the source answers at its end; nothing else changes. -/
theorem Engine.refill_eq (B : Config.Build) (w n : Nat) (g : Engine) (hn : w ≤ g.bits + 8 * n)
    (hp : g.port.pos ≤ g.port.src.length) :
    ∃ m v, v < 256 ^ m ∧ g.port.pos + m ≤ g.port.src.length ∧
      (g.bits + 8 * m < w → g.port.pos + m = g.port.src.length) ∧
      g.refill B w n =
        { g with
          port := if g.bits + 8 * m < w then (g.port.advanced m).answeredNone else g.port.advanced m
          bytesRead := (countUp B)^[m] g.bytesRead
          buf := g.buf * 256 ^ m + v
          bits := g.bits + 8 * m } := by
  induction n generalizing g with
  | zero =>
    have hw : ¬g.bits < w := by omega
    exact ⟨0, 0, by simp, by simpa using hp, by omega, by simp [Engine.refill, hw]⟩
  | succ n ih =>
    by_cases hw : g.bits < w
    · rcases g.takeByte_cases B with ⟨hend, ht⟩ | ⟨hlt, ht⟩
      · exact ⟨0, 0, by simp, by simpa using hp, by omega, by simp [Engine.refill, hw, ht]⟩
      · obtain ⟨m, v, hv, hpos, hstop, heq⟩ := ih
          { g with
            port := g.port.advanced 1
            bytesRead := countUp B g.bytesRead
            buf := g.buf * 256 + (g.port.src[g.port.pos]).toNat
            bits := g.bits + 8 } (by show w ≤ g.bits + 8 + 8 * n; omega)
          (by show g.port.pos + 1 ≤ g.port.src.length; omega)
        simp only [Port.advanced_pos, Port.advanced_src] at hpos hstop
        have hb8 : g.bits + 8 + 8 * m = g.bits + 8 * (m + 1) := by omega
        refine ⟨m + 1, (g.port.src[g.port.pos]).toNat * 256 ^ m + v, ?_, by omega, ?_, ?_⟩
        · have hb : (g.port.src[g.port.pos]).toNat < 256 := (g.port.src[g.port.pos]).isLt
          calc (g.port.src[g.port.pos]).toNat * 256 ^ m + v
              < (g.port.src[g.port.pos]).toNat * 256 ^ m + 256 ^ m := by omega
            _ = ((g.port.src[g.port.pos]).toNat + 1) * 256 ^ m := by rw [Nat.add_mul, Nat.one_mul]
            _ ≤ 256 * 256 ^ m := Nat.mul_le_mul_right _ hb
            _ = 256 ^ (m + 1) := by rw [Nat.pow_succ, Nat.mul_comm]
        · intro h; have := hstop (by omega); omega
        · rw [Engine.refill, if_pos hw, ht]
          simp only [heq, hb8, Port.advanced_advanced, Nat.add_comm 1 m, Function.iterate_succ_apply,
            Engine.mk.injEq, true_and, and_true]
          rw [Nat.add_mul, Nat.pow_succ, Nat.mul_assoc, Nat.mul_comm 256, Nat.add_assoc]
    · exact ⟨0, 0, by simp, by simpa using hp, by omega, by simp [Engine.refill, hw]⟩

/-- Everything `BR.PULL` can answer (41 R146, R147). -/
theorem Engine.pull_cases (B : Config.Build) (w : Nat) (g : Engine) (hp : g.port.pos ≤ g.port.src.length) :
    ∃ m v, v < 256 ^ m ∧ g.port.pos + m ≤ g.port.src.length ∧
      ((g.bits + 8 * m < w ∧ g.port.pos + m = g.port.src.length ∧
        g.pull B w = (none,
          { g with
            port := (g.port.advanced m).answeredNone
            bytesRead := (countUp B)^[m] g.bytesRead
            buf := g.buf * 256 ^ m + v
            bits := g.bits + 8 * m })) ∨
      (w ≤ g.bits + 8 * m ∧
        g.pull B w = (some ((g.buf * 256 ^ m + v) >>> (g.bits + 8 * m - w)),
          { g with
            port := g.port.advanced m
            bytesRead := (countUp B)^[m] g.bytesRead
            buf := (g.buf * 256 ^ m + v) % 2 ^ (g.bits + 8 * m - w)
            bits := g.bits + 8 * m - w }))) := by
  obtain ⟨m, v, hv, hpos, hstop, heq⟩ := Engine.refill_eq B w w g (by omega) hp
  refine ⟨m, v, hv, hpos, ?_⟩
  by_cases h : g.bits + 8 * m < w
  · exact .inl ⟨h, hstop h, by simp [Engine.pull, heq, h]⟩
  · exact .inr ⟨by omega, by simp [Engine.pull, heq, h]⟩

end Sys2Proof.Machine
end

