-- ==== Sys2Proof/Laws/Table.lean ====
section
/-! SUPPORT. The code table: what a look-up finds after a write, what the edge search finds, and that every operation keeps the canonical form. -/

namespace Sys2Proof.Machine

@[simp] theorem Table.find_nil (k : Nat) : Table.find [] k = none := rfl
@[simp] theorem Table.child_nil (n : NodeId) (b : Byte) : Table.child [] n b = none := rfl

/-- A look-up after a write: the new entry at the written code, the old table elsewhere. -/
theorem Table.find_put (t : Table) (k : Nat) (e : Entry) (j : Nat) :
    Table.find (Table.put t k e) j = if j = k then some e else Table.find t j := by
  induction t with
  | nil => simp [Table.put, Table.find, eq_comm]
  | cons p t ih =>
    obtain ⟨i, f⟩ := p
    simp only [Table.put]
    split
    · simp [Table.find, eq_comm]
    · split
      · subst_vars; simp only [Table.find]; split <;> simp_all [eq_comm]
      · rename_i h1 h2
        simp only [Table.find, ih]
        split
        · subst_vars; simp [Ne.symm h2]
        · rfl

@[simp] theorem Table.find_put_self (t : Table) (k : Nat) (e : Entry) :
    Table.find (Table.put t k e) k = some e := by simp [Table.find_put]

theorem Table.find_put_other (t : Table) (k j : Nat) (e : Entry) (h : j ≠ k) :
    Table.find (Table.put t k e) j = Table.find t j := by simp [Table.find_put, h]

/-- Every code of the table after a write is the written one or was there before. -/
theorem Table.mem_put (t : Table) (k : Nat) (e : Entry) (p : Nat × Entry)
    (h : p ∈ Table.put t k e) : p = (k, e) ∨ p ∈ t := by
  induction t with
  | nil => simpa [Table.put] using h
  | cons q t ih =>
    obtain ⟨i, f⟩ := q
    simp only [Table.put] at h
    split at h
    · simpa using h
    · split at h
      · rcases List.mem_cons.1 h with h | h <;> simp [h]
      · rcases List.mem_cons.1 h with h | h
        · simp [h]
        · rcases ih h with h | h <;> simp [h]

/-- A write keeps the canonical form. -/
theorem Table.put_wf (t : Table) (k : Nat) (e : Entry) (h : Table.wf t) : Table.wf (Table.put t k e) := by
  induction t with
  | nil => simp [Table.put]
  | cons q t ih =>
    obtain ⟨i, f⟩ := q
    have hall := (List.pairwise_cons.1 h).1
    have hrest := (List.pairwise_cons.1 h).2
    simp only [Table.put]
    split
    · refine List.pairwise_cons.2 ⟨fun p hp => ?_, h⟩
      rcases List.mem_cons.1 hp with rfl | hp
      · assumption
      · exact Nat.lt_trans ‹k < i› (hall p hp)
    · split
      · subst_vars; exact List.pairwise_cons.2 ⟨hall, hrest⟩
      · refine List.pairwise_cons.2 ⟨fun p hp => ?_, ih hrest⟩
        rcases Table.mem_put t k e p hp with rfl | hp
        · show i < k; omega
        · exact hall p hp

/-- A table built from a list is in canonical form. -/
theorem Table.ofList_wf (l : List (Nat × Entry)) : Table.wf (Table.ofList l) := by
  suffices h : ∀ t : Table, Table.wf t → Table.wf (l.foldl (fun t p => Table.put t p.1 p.2) t) from
    h [] List.Pairwise.nil
  induction l with
  | nil => exact fun t h => h
  | cons p l ih => exact fun t h => ih _ (Table.put_wf t p.1 p.2 h)

/-- A code that every listed code exceeds has no entry. -/
theorem Table.find_lt (t : Table) (k : Nat) (h : ∀ p ∈ t, k < p.1) : Table.find t k = none := by
  induction t with
  | nil => rfl
  | cons q t ih =>
    have hq := h q (by simp)
    simp only [Table.find]
    rw [if_neg (by omega)]
    exact ih fun p hp => h p (by simp [hp])

/-- In canonical form, a code's entry is the one listed. -/
theorem Table.find_eq_some_iff (t : Table) (hw : Table.wf t) (k : Nat) (e : Entry) :
    Table.find t k = some e ↔ (k, e) ∈ t := by
  induction t with
  | nil => simp
  | cons q t ih =>
    obtain ⟨i, f⟩ := q
    have hall := (List.pairwise_cons.1 hw).1
    have hrest := (List.pairwise_cons.1 hw).2
    simp only [Table.find]
    split
    · subst_vars
      constructor
      · intro h; simp at h; simp [h]
      · intro h
        rcases List.mem_cons.1 h with h | h
        · simp at h; simp [h]
        · exact absurd (hall _ h) (Nat.lt_irrefl _)
    · rename_i hne
      rw [ih hrest]
      constructor
      · intro h; simp [h]
      · intro h
        rcases List.mem_cons.1 h with h | h
        · simp at h; exact absurd h.1.symm hne
        · exact h

/-- The code the edge search finds is listed, with that parent and last byte (10 R32). -/
theorem Table.child_some (t : Table) (n : NodeId) (b : Byte) (k : Nat) (h : Table.child t n b = some k) :
    ∃ e, (k, e) ∈ t ∧ e.parent = n ∧ e.last = b := by
  induction t with
  | nil => simp at h
  | cons q t ih =>
    obtain ⟨i, f⟩ := q
    simp only [Table.child] at h
    split at h
    · simp at h; subst h; exact ⟨f, by simp, ‹_›⟩
    · obtain ⟨e, he, hp⟩ := ih h; exact ⟨e, by simp [he], hp⟩

/-- The edge search finds nothing exactly when no listed entry has that parent and last byte (10 R32). -/
theorem Table.child_none_iff (t : Table) (n : NodeId) (b : Byte) :
    Table.child t n b = none ↔ ∀ p ∈ t, ¬(p.2.parent = n ∧ p.2.last = b) := by
  induction t with
  | nil => simp
  | cons q t ih =>
    obtain ⟨i, f⟩ := q
    simp only [Table.child]
    split
    · simp only [reduceCtorEq, List.mem_cons, forall_eq_or_imp, false_iff]
      intro h; exact h.1 ‹_›
    · rw [ih]; simp only [List.mem_cons, forall_eq_or_imp]
      exact ⟨fun h => ⟨‹_›, h⟩, fun h => h.2⟩

/-- In canonical form, the code the edge search finds has an entry with that parent and last byte. -/
theorem Table.find_of_child (t : Table) (hw : Table.wf t) (n : NodeId) (b : Byte) (k : Nat)
    (h : Table.child t n b = some k) : ∃ e, Table.find t k = some e ∧ e.parent = n ∧ e.last = b := by
  obtain ⟨e, he, hp⟩ := Table.child_some t n b k h
  exact ⟨e, (Table.find_eq_some_iff t hw k e).2 he, hp⟩

/-- In canonical form, an absent edge means that no code has an entry with that parent and last byte. -/
theorem Table.child_none_find (t : Table) (hw : Table.wf t) (n : NodeId) (b : Byte) :
    Table.child t n b = none ↔ ∀ k e, Table.find t k = some e → ¬(e.parent = n ∧ e.last = b) := by
  rw [Table.child_none_iff]
  constructor
  · intro h k e hf; exact h (k, e) ((Table.find_eq_some_iff t hw k e).1 hf)
  · intro h p hp; exact h p.1 p.2 ((Table.find_eq_some_iff t hw p.1 p.2).2 hp)

/-! ### The table of the 256 literals -/

/-- The literal entries from `lo` on, `n` of them. -/
theorem Table.literals_wf (l : List Nat) (h : l.Pairwise (· < ·)) :
    Table.wf (l.map fun b => (b, literalEntry b)) := by
  simpa [Table.wf, List.pairwise_map] using h

theorem literalTable_wf : Table.wf literalTable :=
  Table.literals_wf _ List.pairwise_lt_range

/-- The literal table has exactly the codes 0 to 255, code `b` for the sequence `[b]` (10 R43 items 2 and 3). -/
theorem literalTable_find (k : Nat) :
    Table.find literalTable k = if k < 256 then some (literalEntry k) else none := by
  split
  · rw [Table.find_eq_some_iff _ literalTable_wf]
    simp [literalTable, *]
  · rcases h : Table.find literalTable k with _ | e
    · rfl
    · rw [Table.find_eq_some_iff _ literalTable_wf] at h
      obtain ⟨b, hb, rfl, -⟩ : ∃ b < 256, b = k ∧ literalEntry b = e := by simpa [literalTable] using h
      exact absurd hb ‹_›

end Sys2Proof.Machine
end

