-- ==== Sys2Proof/Laws/Dictionary.lean ====
section
/-! SUPPORT. The Dictionary operations: what each can answer, what it leaves unchanged, and the invariant of a fresh dictionary. -/

namespace Sys2Proof.Machine

/-! ### DICT.EXTEND -/

/-- Everything `DICT.EXTEND` can answer (40 R123). -/
theorem Dict.extend_cases (d : Dict) (n : NodeId) (b : Byte) :
    (∃ k, d.child n b = some k ∧ d.extend n b = (.matched k, d)) ∨
    (d.child n b = none ∧ d.full = true ∧ d.extend n b = (.full, d)) ∨
    (d.child n b = none ∧ d.full = false ∧
      d.extend n b = (.inserted d.nextCode,
        { d with
          tab := Table.put d.tab d.nextCode
            { parent := n, last := b, first := d.firstOf n, len := d.lenOf n + 1 }
          nextCode := d.nextCode + 1 })) := by
  rcases hc : d.child n b with _ | k
  · cases hf : d.full
    · exact .inr (.inr ⟨rfl, rfl, by simp [Dict.extend, hc, hf]⟩)
    · exact .inr (.inl ⟨rfl, rfl, by simp [Dict.extend, hc, hf]⟩)
  · exact .inl ⟨k, rfl, by simp [Dict.extend, hc]⟩

@[simp] theorem Dict.extend_codeWidth (d : Dict) (n : NodeId) (b : Byte) :
    (d.extend n b).2.codeWidth = d.codeWidth := by
  rcases d.extend_cases n b with ⟨_, _, h⟩ | ⟨_, _, h⟩ | ⟨_, _, h⟩ <;> rw [h]

@[simp] theorem Dict.extend_maxCode (d : Dict) (n : NodeId) (b : Byte) :
    (d.extend n b).2.maxCode = d.maxCode := by
  rcases d.extend_cases n b with ⟨_, _, h⟩ | ⟨_, _, h⟩ | ⟨_, _, h⟩ <;> rw [h]

/-- `DICT.EXTEND` keeps the table's canonical form. -/
theorem Dict.extend_wf (d : Dict) (n : NodeId) (b : Byte) (hw : Table.wf d.tab) :
    Table.wf (d.extend n b).2.tab := by
  rcases d.extend_cases n b with ⟨_, _, h⟩ | ⟨_, _, h⟩ | ⟨_, _, h⟩ <;> rw [h]
  · exact hw
  · exact hw
  · exact Table.put_wf _ _ _ hw

/-- `next_code` rises by at most one. -/
theorem Dict.extend_nextCode_le (d : Dict) (n : NodeId) (b : Byte) :
    d.nextCode ≤ (d.extend n b).2.nextCode ∧ (d.extend n b).2.nextCode ≤ d.nextCode + 1 := by
  rcases d.extend_cases n b with ⟨_, _, h⟩ | ⟨_, _, h⟩ | ⟨_, _, h⟩ <;> rw [h] <;> simp

/-! ### DICT.GROW -/

/-- Everything `DICT.GROW` can answer (40 R127). -/
theorem Engine.grow_cases (B : Config.Build) (g : Engine) :
    (g.dict.nextCode ≤ 2 ^ g.dict.codeWidth ∧ g.grow B = .ok () g) ∨
    (2 ^ g.dict.codeWidth < g.dict.nextCode ∧ g.dict.codeWidth = B.maxw ∧
      g.grow B = .raised (g.raise .capacityViolation g.dict.nextCode)) ∨
    (2 ^ g.dict.codeWidth < g.dict.nextCode ∧ g.dict.codeWidth ≠ B.maxw ∧
      g.grow B = .ok () { g with dict := { g.dict with codeWidth := g.dict.codeWidth + 1 } }) := by
  by_cases h : 2 ^ g.dict.codeWidth < g.dict.nextCode
  · by_cases h2 : g.dict.codeWidth = B.maxw
    · exact .inr (.inl ⟨h, h2, by simp [Engine.grow, Dict.grow, h2] at h ⊢; simp [h]⟩)
    · exact .inr (.inr ⟨h, h2, by simp [Engine.grow, Dict.grow, h, h2]⟩)
  · exact .inl ⟨Nat.le_of_not_lt h, by simp [Engine.grow, Dict.grow, h]⟩

/-! ### DICT.SEQ -/

@[simp] theorem Dict.walk_root (d : Dict) (fuel : Nat) : d.walk fuel none = [] := by
  cases fuel <;> rfl

/-- One link of the walk, for a code that has an entry (40 R131). -/
theorem Dict.walk_step (d : Dict) (fuel k : Nat) (e : Entry) (h : Table.find d.tab k = some e) :
    d.walk (fuel + 1) (some k) = d.walk fuel e.parent ++ [e.last] := by
  simp [Dict.walk, h]

/-! ### The dictionary invariants (10 R43) -/

/-- `DICT.INIT` establishes the invariants (40 R135). -/
theorem Dict.init_inv (maxw : Nat) (d : Dict) (hm : 9 ≤ maxw)
    (hc : d.maxCode = 0 ∨ 257 ≤ d.maxCode) : d.init.Inv maxw where
  width := ⟨Nat.le_refl 9, hm⟩
  next := ⟨Nat.le_refl 257, by show 257 ≤ 2 ^ 9; decide⟩
  sorted := literalTable_wf
  domain k := by
    rw [Dict.init_tab, literalTable_find]
    split <;> simp <;> omega
  literals b := by
    rw [Dict.init_tab, literalTable_find, if_pos b.isLt]
    simp [literalEntry]
  parents k e hk h := by
    rw [Dict.init_tab, literalTable_find, if_neg (by omega)] at h
    exact absurd h (by simp)
  unique j k e f hj hk _ hl := by
    rw [Dict.init_tab, literalTable_find] at hj hk
    split at hj <;> split at hk <;> simp at hj hk
    subst hj; subst hk
    have := congrArg BitVec.toNat hl
    simp only [literalEntry, BitVec.toNat_ofNat] at this
    omega
  cap := hc
  capNext h := by
    rcases hc with hc | hc
    · exact absurd hc h
    · exact hc

/-- The root has an edge for every byte (40 R124). -/
theorem Dict.Inv.child_root {maxw : Nat} {d : Dict} (h : d.Inv maxw) (b : Byte) :
    d.child none b = some b.toNat := by
  rcases hc : d.child none b with _ | k
  · exact absurd ⟨rfl, rfl⟩ ((Table.child_none_find d.tab h.sorted none b).1 hc b.toNat _ (h.literals b))
  · obtain ⟨e, he, hp, hl⟩ := Table.find_of_child d.tab h.sorted none b k hc
    rw [h.unique k b.toNat e _ he (h.literals b) hp hl]

/-- `DICT.EXTEND(ROOT, b)` is a pure read with the answer `Matched(b)` (40 R124). -/
theorem Dict.Inv.extend_root {maxw : Nat} {d : Dict} (h : d.Inv maxw) (b : Byte) :
    d.extend none b = (.matched b.toNat, d) := by
  simp [Dict.extend, h.child_root b]

/-- A resident code is below `next_code` and not 256 (10 R30). -/
theorem Dict.Inv.find_lt {maxw : Nat} {d : Dict} (h : d.Inv maxw) {k : Nat} {e : Entry}
    (hk : Table.find d.tab k = some e) : k < d.nextCode ∧ k ≠ 256 :=
  (h.domain k).1 (by simp [hk])

/-- An entry's parent is the root or a smaller resident code (10 R43 items 2 and 4). -/
theorem Dict.Inv.parent_cases {maxw : Nat} {d : Dict} (h : d.Inv maxw) {k : Nat} {e : Entry}
    (hk : Table.find d.tab k = some e) :
    (k < 256 ∧ e = literalEntry k) ∨
    (257 ≤ k ∧ ∃ p f, e.parent = some p ∧ p < k ∧ Table.find d.tab p = some f ∧
      e.len = f.len + 1 ∧ e.first = f.first) := by
  have hne := (h.find_lt hk).2
  by_cases hlt : k < 256
  · refine .inl ⟨hlt, ?_⟩
    have hl := h.literals (BitVec.ofNat 8 k)
    rw [show (BitVec.ofNat 8 k).toNat = k by simp; omega, hk] at hl
    simpa [literalEntry] using hl
  · exact .inr ⟨by omega, h.parents k e (by omega) hk⟩

end Sys2Proof.Machine
end

