-- ==== Sys2Proof/Laws/Decoder.lean ====
section
/-! SUPPORT. The Decoder's operations: what each can answer. -/

namespace Sys2Proof.Machine

/-- Everything `DEC.GROW` can answer (43 R182). -/
theorem Engine.decGrow_cases (B : Config.Build) (g : Engine) :
    (¬(g.dict.full = false ∧ 2 ^ g.dict.codeWidth ≤ g.dict.nextCode) ∧ g.decGrow B = .ok () g) ∨
    ((g.dict.full = false ∧ 2 ^ g.dict.codeWidth ≤ g.dict.nextCode) ∧ g.dict.codeWidth = B.maxw ∧
      g.decGrow B = .raised (g.raise .capacityViolation g.dict.nextCode)) ∨
    ((g.dict.full = false ∧ 2 ^ g.dict.codeWidth ≤ g.dict.nextCode) ∧ g.dict.codeWidth ≠ B.maxw ∧
      g.decGrow B = .ok () { g with dict := { g.dict with codeWidth := g.dict.codeWidth + 1 } }) := by
  by_cases h : g.dict.full = false ∧ 2 ^ g.dict.codeWidth ≤ g.dict.nextCode
  · by_cases h2 : g.dict.codeWidth = B.maxw
    · exact .inr (.inl ⟨h, h2, by simp only [Engine.decGrow, if_pos h, if_pos h2]⟩)
    · exact .inr (.inr ⟨h, h2, by simp only [Engine.decGrow, if_pos h, if_neg h2]⟩)
  · exact .inl ⟨h, by simp only [Engine.decGrow, if_neg h]⟩

/-- The mirrored insertion changes the dictionary only (43 R180). -/
theorem Engine.mirror_eq (b : Byte) (g : Engine) :
    g.mirror b = { g with dict := (match g.node with
      | none => g.dict
      | some p => (g.dict.extend (some p) b).2) } := by
  cases g with
  | mk d n => cases n <;> rfl

/-- The class of a value, condition by condition (30 R97). -/
theorem classify_cases (nc : Nat) (kw : Bool) (v : Nat) :
    (v = 256 ∧ classify nc kw v = .clear) ∨
    (v ≠ 256 ∧ v < nc ∧ v ≤ 255 ∧ classify nc kw v = .literal) ∨
    (v ≠ 256 ∧ v < nc ∧ 255 < v ∧ classify nc kw v = .string) ∨
    (v ≠ 256 ∧ v = nc ∧ kw = true ∧ classify nc kw v = .kwkwk) ∨
    (v ≠ 256 ∧ nc ≤ v ∧ ¬(v = nc ∧ kw = true) ∧ classify nc kw v = .invalid) := by
  by_cases h : v = 256
  · exact .inl ⟨h, by simp [classify, h]⟩
  · by_cases h1 : v < nc
    · by_cases h2 : v ≤ 255
      · exact .inr (.inl ⟨h, h1, h2, by simp [classify, h, h1, h2]⟩)
      · exact .inr (.inr (.inl ⟨h, h1, by omega, by simp [classify, h, h1, h2]⟩))
    · by_cases h2 : v = nc ∧ kw = true
      · exact .inr (.inr (.inr (.inl ⟨h, h2.1, h2.2, by
          simp only [classify, if_neg h, if_neg h1, if_pos h2]⟩)))
      · exact .inr (.inr (.inr (.inr ⟨h, by omega, h2, by
          simp only [classify, if_neg h, if_neg h1, if_neg h2]⟩)))

/-- The side conditions of class KWKWK (43 R181). -/
theorem Engine.kwkwkAllowed_iff (g : Engine) :
    g.kwkwkAllowed = true ↔
      g.node ≠ none ∧ g.dict.full = false ∧ g.dict.child g.node (g.dict.firstOf g.node) = none := by
  simp [Engine.kwkwkAllowed, Engine.firstPrev, Option.isSome_iff_ne_none, and_assoc]

/-- Everything the decoder's step on a value can do, by its class (43 R177). -/
theorem Engine.codeWord_cases (B : Config.Build) (v : Nat) (g : Engine) :
    (g.classOf v = .clear ∧ g.codeWord B v = .ok .cleared g.decClear) ∨
    (g.classOf v = .literal ∧ g.codeWord B v = g.lookupCode B v) ∨
    (g.classOf v = .string ∧ g.codeWord B v = g.lookupCode B v) ∨
    (g.classOf v = .kwkwk ∧ g.codeWord B v = g.kwkwkCode B v) ∨
    (g.classOf v = .invalid ∧ g.codeWord B v = .raised (g.raise .protocolViolation v)) := by
  rcases h : g.classOf v <;> simp [Engine.codeWord, Engine.invalidCode, h]

/-- One round of `DEC_CHUNK`'s loop (43 R188, R189). -/
theorem Engine.decLoop_succ (B : Config.Build) (left count : Nat) (g : Engine) :
    (g.st ≠ .ready ∧ g.decLoop B (left + 1) count = g) ∨
    (g.st = .ready ∧ ∃ g2, g.decStep B = .raised g2 ∧ g.decLoop B (left + 1) count = g2) ∨
    (g.st = .ready ∧ ∃ g2, g.decStep B = .ok .endOfStream g2 ∧
      g.decLoop B (left + 1) count = { g2.latchEoi with st := .done }) ∨
    (g.st = .ready ∧ ∃ r g2, r ≠ .endOfStream ∧ g.decStep B = .ok r g2 ∧
      g.decLoop B (left + 1) count =
        Engine.decLoop B left (count + 1) { g2 with result := BitVec.ofNat 32 (count + 1) }) := by
  by_cases h : g.st = .ready
  · rcases hs : g.decStep B with ⟨r, g2⟩ | g2
    · cases r
      · exact .inr (.inr (.inr ⟨h, _, g2, by simp, rfl, by simp [Engine.decLoop, h, hs]⟩))
      · exact .inr (.inr (.inr ⟨h, _, g2, by simp, rfl, by simp [Engine.decLoop, h, hs]⟩))
      · exact .inr (.inr (.inl ⟨h, g2, rfl, by simp [Engine.decLoop, h, hs]⟩))
    · exact .inr (.inl ⟨h, g2, rfl, by simp [Engine.decLoop, h, hs]⟩)
  · exact .inl ⟨h, by simp [Engine.decLoop, h]⟩

end Sys2Proof.Machine
end

