-- ==== Sys2Proof/Laws/Encoder.lean ====
section
/-! SUPPORT. The Encoder's operations: what each can answer. -/

namespace Sys2Proof.Machine

/-- The buffer and cursor conditions under which an emission cannot raise: the residue is below 8 bits, and
a pending code fits the current width (41 R141, R143). -/
structure Engine.CanEmit (B : Config.Build) (g : Engine) : Prop where
  width : 1 ≤ g.dict.codeWidth ∧ g.dict.codeWidth ≤ B.maxw
  buffer : g.bits ≤ 7 ∧ g.buf < 2 ^ g.bits
  cursor : ∀ k, g.node = some k → k < 2 ^ g.dict.codeWidth

/-- A resident cursor fits the current width (42 R157, corner cases). -/
theorem Engine.canEmit_of_inv (B : Config.Build) (g : Engine) (hd : g.dict.Inv B.maxw)
    (hn : g.nodeResident) (hb : g.bits ≤ 7 ∧ g.buf < 2 ^ g.bits) : g.CanEmit B where
  width := ⟨by have := hd.width.1; omega, hd.width.2⟩
  buffer := hb
  cursor k hk := by
    rcases hn with h | ⟨j, hj, hs⟩
    · simp [h] at hk
    · rw [hj] at hk; cases hk
      exact Nat.lt_of_lt_of_le ((hd.domain k).1 hs).1 hd.next.2

/-- The emission of the cursor's code: skipped at the root, else one push that completes (42 R157, R160). -/
theorem Engine.emitCursor_cases (B : Config.Build) (g : Engine) (h : g.CanEmit B) :
    (g.node = none ∧ g.emitCursor B = .ok () g) ∨
    (∃ k out, g.node = some k ∧ out.length = (g.bits + g.dict.codeWidth) / 8 ∧
      g.emitCursor B = .ok ()
        { g with
          bits := (g.bits + g.dict.codeWidth) % 8
          buf := (g.buf * 2 ^ g.dict.codeWidth + k) % 2 ^ ((g.bits + g.dict.codeWidth) % 8)
          bytesWritten := (countUp B)^[(g.bits + g.dict.codeWidth) / 8] g.bytesWritten
          port := g.port.gained out }) := by
  rcases hn : g.node with _ | k
  · exact .inl ⟨rfl, by simp [Engine.emitCursor, hn]⟩
  · obtain ⟨out, hlen, heq⟩ := g.push_ok B k g.dict.codeWidth h.width.1 h.width.2 (h.cursor k hn) h.buffer.2
    exact .inr ⟨k, out, rfl, hlen, by simp [Engine.emitCursor, hn, heq]⟩

/-- `ENC.PENDING` in a state that can emit never raises; it leaves the cursor at the root, the dictionary,
source, flags and results alone, and the buffer in its invariant (42 R160). -/
theorem Engine.encPending_ok (B : Config.Build) (g : Engine) (h : g.CanEmit B) :
    ∃ n v b out, n ≤ 7 ∧ v < 2 ^ n ∧
      g.encPending B = .ok ()
        { g with
          node := none
          bits := n
          buf := v
          bytesWritten := b
          port := g.port.gained out } := by
  rcases g.emitCursor_cases B h with ⟨hn, he⟩ | ⟨k, out, -, -, he⟩
  · exact ⟨g.bits, g.buf, g.bytesWritten, [], h.buffer.1, h.buffer.2, by simp [Engine.encPending, he]⟩
  · exact ⟨_, _, _, out, Nat.le_of_lt_succ (Nat.mod_lt _ (by decide)), Nat.mod_lt _ (Nat.two_pow_pos _),
      by simp only [Engine.encPending, he]; rfl⟩

/-- Everything `ENC.BYTE` can answer: a match moves the cursor; otherwise the emission step runs on the
dictionary the extend left (42 R157). -/
theorem Engine.encByte_cases (B : Config.Build) (c : Byte) (g : Engine) :
    (∃ k, g.dict.child g.node c = some k ∧ g.encByte B c = .ok () { g with node := some k }) ∨
    (g.dict.child g.node c = none ∧
      g.encByte B c =
        ({ g with dict := (g.dict.extend g.node c).2 } : Engine).emitAndRestart B (g.dict.extend g.node c).1 c) := by
  rcases g.dict.extend_cases g.node c with ⟨k, hc, he⟩ | ⟨hc, -, he⟩ | ⟨hc, -, he⟩
  · exact .inl ⟨k, hc, by simp [Engine.encByte, he]⟩
  · exact .inr ⟨hc, by simp [Engine.encByte, he]⟩
  · exact .inr ⟨hc, by simp [Engine.encByte, he]⟩

/-- One round of `ENC_CHUNK`'s loop (42 R161, R162). -/
theorem Engine.encLoop_succ (B : Config.Build) (left count : Nat) (g : Engine) :
    (g.eoi = true ∧ g.encLoop B (left + 1) count = g) ∨
    (g.eoi = false ∧ g.port.src.length ≤ g.port.pos ∧
      g.encLoop B (left + 1) count = ({ g with port := g.port.answeredNone } : Engine).latchEoi) ∨
    (g.eoi = false ∧ ∃ h : g.port.pos < g.port.src.length,
      (∃ g2, (Engine.encByte B g.port.src[g.port.pos]
          { g with port := g.port.advanced 1, bytesRead := countUp B g.bytesRead }) = .raised g2 ∧
        g.encLoop B (left + 1) count = g2) ∨
      (∃ g2, (Engine.encByte B g.port.src[g.port.pos]
          { g with port := g.port.advanced 1, bytesRead := countUp B g.bytesRead }) = .ok () g2 ∧
        g.encLoop B (left + 1) count =
          Engine.encLoop B left (count + 1) { g2 with result := BitVec.ofNat 32 (count + 1) })) := by
  by_cases he : g.eoi = true
  · exact .inl ⟨he, by simp only [Engine.encLoop, if_pos he]⟩
  · have hf : g.eoi = false := by simpa using he
    rcases g.takeByte_cases B with ⟨hend, ht⟩ | ⟨hlt, ht⟩
    · exact .inr (.inl ⟨hf, hend, by simp only [Engine.encLoop, if_neg he, ht]⟩)
    · refine .inr (.inr ⟨hf, hlt, ?_⟩)
      rcases hb : (Engine.encByte B g.port.src[g.port.pos]
          { g with port := g.port.advanced 1, bytesRead := countUp B g.bytesRead }) with ⟨u, g2⟩ | g2
      · exact .inr ⟨g2, rfl, by simp only [Engine.encLoop, if_neg he, ht, hb]⟩
      · exact .inl ⟨g2, rfl, by simp only [Engine.encLoop, if_neg he, ht, hb]⟩

end Sys2Proof.Machine
end

