-- ==== Sys2Proof/Laws/PerInstr.lean ====
section
/-! SUPPORT. Statements made per instruction: which instructions have a command word, and that bit 31 of it names the engine (spec/30_encoding.md R90, R99). -/

namespace Sys2Proof.Laws.CommandFormat

/-- An instruction has a command word exactly when its row is of format CMD, and bit 31 of the word names
the engine the instruction acts on (30 R90, R99). -/
def Statement (i : Instr) : Prop :=
  ((encode i).isSome = true ↔ i.format = .cmd) ∧
  ∀ w, encode i = some w → (w.getLsbD 31 = true ↔ i.engine = .dec)

/-- Bit 31 of a command word is bit 3 of its opcode (30 R99). -/
theorem bit31 (op : BitVec 4) (a : BitVec 28) : (op ++ a).getLsbD 31 = op.getLsbD 3 := by
  rw [BitVec.getLsbD_append]; simp

/-- An instruction of format CMD whose word is `op ++ a`. -/
theorem of_word (i : Instr) (op : BitVec 4) (a : BitVec 28) (he : encode i = some (op ++ a))
    (hf : i.format = .cmd) (hb : op.getLsbD 3 = true ↔ i.engine = .dec) : Statement i := by
  refine ⟨by simp [he, hf], fun w hw => ?_⟩
  rw [he, Option.some.injEq] at hw
  rw [← hw, bit31, hb]

/-- An instruction of another format has no word. -/
theorem of_none (i : Instr) (he : encode i = none) (hf : i.format ≠ .cmd) : Statement i :=
  ⟨by simp [he, hf], by simp [he]⟩

theorem encInit (a : BitVec 28) : Statement (.encInit a) := of_word _ _ a rfl rfl (by simp [Instr.engine])
theorem encChunk (a : BitVec 28) : Statement (.encChunk a) := of_word _ _ a rfl rfl (by simp [Instr.engine])
theorem encEnd (a : BitVec 28) : Statement (.encEnd a) := of_word _ _ a rfl rfl (by simp [Instr.engine])
theorem encClear (a : BitVec 28) : Statement (.encClear a) := of_word _ _ a rfl rfl (by simp [Instr.engine])
theorem encDestroy (a : BitVec 28) : Statement (.encDestroy a) := of_word _ _ a rfl rfl (by simp [Instr.engine])
theorem decInit (a : BitVec 28) : Statement (.decInit a) := of_word _ _ a rfl rfl (by simp [Instr.engine])
theorem decChunk (a : BitVec 28) : Statement (.decChunk a) := of_word _ _ a rfl rfl (by simp [Instr.engine])
theorem decDestroy (a : BitVec 28) : Statement (.decDestroy a) := of_word _ _ a rfl rfl (by simp [Instr.engine])
theorem reserved0 (a : BitVec 28) : Statement (.reserved0 a) := of_word _ _ a rfl rfl (by simp [Instr.engine])
theorem reserved6 (a : BitVec 28) : Statement (.reserved6 a) := of_word _ _ a rfl rfl (by simp [Instr.engine])
theorem reserved7 (a : BitVec 28) : Statement (.reserved7 a) := of_word _ _ a rfl rfl (by simp [Instr.engine])
theorem reserved8 (a : BitVec 28) : Statement (.reserved8 a) := of_word _ _ a rfl rfl (by simp [Instr.engine])
theorem reservedB (a : BitVec 28) : Statement (.reservedB a) := of_word _ _ a rfl rfl (by simp [Instr.engine])
theorem reservedC (a : BitVec 28) : Statement (.reservedC a) := of_word _ _ a rfl rfl (by simp [Instr.engine])
theorem reservedE (a : BitVec 28) : Statement (.reservedE a) := of_word _ _ a rfl rfl (by simp [Instr.engine])
theorem reservedF (a : BitVec 28) : Statement (.reservedF a) := of_word _ _ a rfl rfl (by simp [Instr.engine])
theorem literal (v : Byte) : Statement (.literal v) := of_none _ rfl (by simp [Instr.format])
theorem clear : Statement .clear := of_none _ rfl (by simp [Instr.format])
theorem string (v : Nat) : Statement (.string v) := of_none _ rfl (by simp [Instr.format])
theorem kwkwk (v : Nat) : Statement (.kwkwk v) := of_none _ rfl (by simp [Instr.format])
theorem invalid (v : Nat) : Statement (.invalid v) := of_none _ rfl (by simp [Instr.format])
theorem dictInit (z : EngineId) : Statement (.dictInit z) := of_none _ rfl (by simp [Instr.format])
theorem dictExtend (z : EngineId) (n : NodeId) (b : Byte) : Statement (.dictExtend z n b) := of_none _ rfl (by simp [Instr.format])
theorem dictGrow (z : EngineId) : Statement (.dictGrow z) := of_none _ rfl (by simp [Instr.format])
theorem dictSeq (z : EngineId) (k : Nat) : Statement (.dictSeq z k) := of_none _ rfl (by simp [Instr.format])
theorem dictReset (z : EngineId) : Statement (.dictReset z) := of_none _ rfl (by simp [Instr.format])
theorem bwPush (v w : Nat) : Statement (.bwPush v w) := of_none _ rfl (by simp [Instr.format])
theorem bwFlush : Statement .bwFlush := of_none _ rfl (by simp [Instr.format])
theorem brPull (w : Nat) : Statement (.brPull w) := of_none _ rfl (by simp [Instr.format])
theorem encByte (c : Byte) : Statement (.encByte c) := of_none _ rfl (by simp [Instr.format])
theorem encPending : Statement .encPending := of_none _ rfl (by simp [Instr.format])
theorem decStep : Statement .decStep := of_none _ rfl (by simp [Instr.format])
theorem decGrow : Statement .decGrow := of_none _ rfl (by simp [Instr.format])
theorem decClear : Statement .decClear := of_none _ rfl (by simp [Instr.format])
theorem srcRead (z : EngineId) : Statement (.srcRead z) := of_none _ rfl (by simp [Instr.format])
theorem snkWrite (z : EngineId) (b : Byte) : Statement (.snkWrite z b) := of_none _ rfl (by simp [Instr.format])

end Sys2Proof.Laws.CommandFormat
end

