-- ==== Sys2Proof/Tests/Slice0.lean ====
section
/-! SUPPORT. Tests from the spec's worked examples and vectors (spec/95_test_vectors.md), the WellFormed smoke, the decoding of words written out from the encodings, and one witness per statement with hypotheses. -/

namespace Sys2Proof.Tests

open Sys2Proof.Machine

set_option Elab.async false

/-! ### Helpers -/

/-- Bytes from numbers. -/
def bytes (l : List Nat) : List Byte := l.map (BitVec.ofNat 8)

/-- The next state, if there is one. -/
def nextOf : Host.Outcome State Fault Refusal → Option State
  | .next s => some s
  | .fault _ => none
  | .refused _ => none

/-- What is looked at in the next state. -/
def after {α : Type} (o : Host.Outcome State Fault Refusal) (f : State → α) : Option α := (nextOf o).map f

/-- An engine as `*_INIT m` leaves it, with a cursor or previous code and a bound source. -/
def live (m : Nat) (n : NodeId) (src : List Nat) : Engine :=
  { Engine.fresh m Engine.reset with node := n, port := { src := bytes src, pos := 0, snk := [], events := [] } }

/-- Both engines so. -/
def both (m : Nat) (n : NodeId) (src : List Nat) : State :=
  { State.reset with enc := live m n src, dec := live m n src }

/-- The table with one learned entry, 257 = (65, 66). -/
def learnedTable : Table := Table.put literalTable 257 { parent := some 65, last := 66, first := 65, len := 2 }

/-- Both engines with that table. -/
def learned (n : NodeId) : State :=
  let g : Engine := { live 0 n [] with dict := { codeWidth := 9, nextCode := 258, maxCode := 0, tab := learnedTable } }
  { State.reset with enc := g, dec := g }

/-- Both engines with a dictionary of the given scalars over an empty table: a state no run reaches. -/
def bare (maxw cw nc m : Nat) (n : NodeId) : State :=
  let g : Engine := { live 0 n [] with dict := { codeWidth := cw, nextCode := nc, maxCode := m, tab := [] } }
  { State.reset with build := { maxw := maxw, wbufw := 64, rbufw := 64, ctrw := 64 }, enc := g, dec := g }

/-! ### WellFormed: every check refuses an ill-formed term -/

theorem test_wf_string_refuses_clear_code : Instr.wf (.string 256) = false := by decide
theorem test_wf_string_refuses_too_wide : Instr.wf (.string (2 ^ 27)) = false := by decide
theorem test_wf_kwkwk_refuses_literal : Instr.wf (.kwkwk 255) = false := by decide
theorem test_wf_invalid_refuses_clear_code : Instr.wf (.invalid 256) = false := by decide
theorem test_wf_extend_refuses_256 : Instr.wf (.dictExtend .enc (some 256) 0) = false := by decide
theorem test_wf_extend_refuses_too_large : Instr.wf (.dictExtend .enc (some (2 ^ 27 + 1)) 0) = false := by decide
theorem test_wf_seq_refuses_256 : Instr.wf (.dictSeq .dec 256) = false := by decide
theorem test_wf_pull_refuses_0 : Instr.wf (.brPull 0) = false := by decide
theorem test_wf_pull_refuses_28 : Instr.wf (.brPull 28) = false := by decide
theorem test_wf_accepts :
    Instr.wf (.string 257) && Instr.wf (.kwkwk 257) && Instr.wf (.invalid 511) &&
    Instr.wf (.dictExtend .dec none 0) && Instr.wf (.dictSeq .enc 0) && Instr.wf (.brPull 9) = true := by decide

/-! ### Decoding: words written out from 30 R99 to R103 and V30 -/

theorem test_decode_encoder_words :
    decode 0x10001000#32 = .encInit 4096#28 ∧ decode 0x20000003#32 = .encChunk 3#28 ∧
    decode 0x3ABCDEF0#32 = .encEnd 0xABCDEF0#28 ∧ decode 0x40000000#32 = .encClear 0#28 ∧
    decode 0x50000000#32 = .encDestroy 0#28 := by decide

theorem test_decode_decoder_words :
    decode 0x90000102#32 = .decInit 258#28 ∧ decode 0xAFFFFFFF#32 = .decChunk 268435455#28 ∧
    decode 0xD0000000#32 = .decDestroy 0#28 := by decide

theorem test_decode_reserved_words :
    decode 0x00000000#32 = .reserved0 0#28 ∧ decode 0x60000001#32 = .reserved6 1#28 ∧
    decode 0x7FFFFFFF#32 = .reserved7 0xFFFFFFF#28 ∧ decode 0x80000002#32 = .reserved8 2#28 ∧
    decode 0xB0000001#32 = .reservedB 1#28 ∧ decode 0xC0000000#32 = .reservedC 0#28 ∧
    decode 0xE0000000#32 = .reservedE 0#28 ∧ decode 0xF0000000#32 = .reservedF 0#28 := by decide

theorem test_encode_words :
    encode (.encInit 4096#28) = some 0x10001000#32 ∧ encode (.decChunk 268435455#28) = some 0xAFFFFFFF#32 ∧
    encode (.reservedB 1#28) = some 0xB0000001#32 ∧ encode .decStep = none := by decide

theorem test_table_word :
    decodeTableWord 32 0x20000003 = some (.encChunk 3#28) ∧ decodeTableWord 64 0 = none := by decide

/-- 30 R93: the example at `w = 9`, `v = 0x041`. -/
theorem test_code_bits : codeBits 9 0x041 = [false, false, true, false, false, false, false, false, true] := by decide

/-- The five classes at width 9, after `A` (`next_code` 258, so that 257 is learned). -/
theorem test_decode_codewords :
    decodeCodeword 9 258 true [false, false, true, false, false, false, false, false, true] =
      .ok (.literal 0x41#8, []) ∧
    decodeCodeword 9 258 true [true, false, false, false, false, false, false, false, false] = .ok (.clear, []) ∧
    decodeCodeword 9 258 true [true, false, false, false, false, false, false, false, true, false] =
      .ok (.string 257, [false]) ∧
    decodeCodeword 9 258 true [true, false, false, false, false, false, false, true, false] =
      .ok (.kwkwk 258, []) ∧
    decodeCodeword 9 258 true [true, true, true, true, true, true, true, true, true] = .ok (.invalid 511, []) ∧
    decodeCodeword 9 258 true [true] = .error .truncatedCodeword := ⟨rfl, rfl, rfl, rfl, rfl, rfl⟩

/-! ### The step -/

/-- P1 step 1: the word on the command port is the next command; with none waiting nothing happens. -/
theorem test_step : after (step (State.reset.withFetchWord 32 0x10000000)) (fun t => (t.enc.status, t.cmds)) =
      some (0x1#32, []) ∧
    after (step State.reset) (fun t => decide (t = State.reset)) = some true := by decide +kernel

/-! ### The commands -/

/-- 42 R156, P1 step 1. -/
theorem test_encInit : after (exec (.encInit 0) State.reset)
    (fun t => (t.enc.status, t.readReg .enc 3, t.readReg .enc 4, t.readReg .enc 6)) =
    some (0x1#32, 9#32, 257#32, 0xFFFFFFFF#32) := by decide +kernel

/-- 42 R156, V31: refused `BAD_CONFIG` in `UNINIT`. -/
theorem test_encInit_refused : after (exec (.encInit 100) State.reset) (fun t => t.enc.status) =
    some 0x38#32 := by decide +kernel

/-- 42 R161, P1 step 2; 00 R16: the emission stands between the second and the third read. -/
theorem test_encChunk : after (exec (.encChunk 3) (both 0 none [0x2D, 0x2D, 0x2D, 0x2D]))
    (fun t => (t.enc.result, t.enc.node, t.enc.dict.nextCode, t.enc.port.events)) =
    some (3#32, some 257, 258, [.gave 0x2D, .gave 0x2D, .wrote 0x16, .gave 0x2D]) := by decide +kernel

/-- 42 R161: past the end of the source, `EOI` is latched (V31: `READY` with `EOI`). -/
theorem test_encChunk_end : after (exec (.encChunk 3) (both 0 none [0x2D]))
    (fun t => (t.enc.result, t.enc.status, t.enc.port.events)) =
    some (1#32, 0x5#32, [.gave 0x2D, .ended]) := by decide +kernel

/-- 42 R163: the worked example. -/
theorem test_encEnd :
    after (exec (.encEnd 0) { both 0 none [] with enc := { live 0 (some 0x2D) [] with bits := 2, buf := 1, eoi := true } })
      (fun t => (t.enc.port.snk, t.enc.status, t.enc.node, t.enc.bits)) =
    some (bytes [0x45, 0xA0], 0x6#32, none, 0) := by decide +kernel

/-- 44 R196: the worked example. -/
theorem test_encClear :
    after (exec (.encClear 0) { learned none with
        enc := { (learned (some 0x42)).enc with bits := 1, buf := 1, port := { src := [], pos := 0, snk := bytes [0x20], events := [] } } })
      (fun t => (t.enc.port.snk, t.enc.dict.nextCode, t.enc.node, t.enc.bits)) =
    some (bytes [0x20, 0x90, 0xA0, 0x00], 257, none, 0) := by decide +kernel

/-- 44 R197, V29. -/
theorem test_encClear_exhausted :
    after (exec (.encClear 0) { both 0 none [] with enc := { live 0 (some 0x41) [] with eoi := true } })
      (fun t => (t.enc.port.snk, t.enc.node, t.enc.status)) = some ([], some 0x41, 0x5#32) := by decide +kernel

/-- 42 R164: the worked example. -/
theorem test_encDestroy :
    after (exec (.encDestroy 0) { both 0 none [] with enc := { live 0 (some 0x41) [] with bits := 3 } })
      (fun t => (t.enc.status, t.enc.port.snk)) = some (0#32, []) := by decide +kernel

/-- P2 step 1. -/
theorem test_decInit : after (exec (.decInit 0) State.reset)
    (fun t => (t.dec.status, t.readReg .dec 3, t.readReg .dec 6)) =
    some (0x1#32, 9#32, 0xFFFFFFFF#32) := by decide +kernel

/-- 43 R189, P2 step 2; 00 R16: each code's bytes are read, then its sequence is written. -/
theorem test_decChunk : after (exec (.decChunk 2) (both 0 none [0x16, 0xC0, 0x45, 0xA0]))
    (fun t => (t.dec.result, t.dec.node, t.dec.dict.nextCode, t.dec.buf, t.dec.port.events)) =
    some (2#32, some 257, 258, 5,
      [.gave 0x16, .gave 0xC0, .wrote 0x2D, .gave 0x45, .wrote 0x2D, .wrote 0x2D]) := by decide +kernel

/-- V19. -/
theorem test_decChunk_corrupt : after (exec (.decChunk 100) (both 0 none [0x20, 0xFF, 0xC0]))
    (fun t => (t.dec.result, t.dec.status, t.dec.errinfo, t.dec.port.snk, t.dec.bits)) =
    some (1#32, 0x103#32, 511#32, bytes [0x41], 6) := by decide +kernel

/-- 43 R190: from `ERROR` with `ERR = 1`. -/
theorem test_decDestroy :
    after (exec (.decDestroy 5) { both 0 none [] with dec := { live 0 none [] with st := .error, err := .protocolViolation } })
      (fun t => t.dec.status) = some 0#32 := by decide +kernel

/-- 30 R102, V31: refused in `UNINIT`, in the engine that bit 31 selects. -/
theorem test_reserved_encoder :
    after (exec (.reserved0 0) State.reset) (fun t => (t.enc.status, t.dec.status)) = some (0x18#32, 0#32) ∧
    after (exec (.reserved6 1) State.reset) (fun t => (t.enc.status, t.dec.status)) = some (0x18#32, 0#32) ∧
    after (exec (.reserved7 2) State.reset) (fun t => (t.enc.status, t.dec.status)) = some (0x18#32, 0#32) := by
  decide +kernel

theorem test_reserved_decoder :
    after (exec (.reserved8 0) State.reset) (fun t => (t.enc.status, t.dec.status)) = some (0#32, 0x18#32) ∧
    after (exec (.reservedB 1) State.reset) (fun t => (t.enc.status, t.dec.status)) = some (0#32, 0x18#32) ∧
    after (exec (.reservedC 2) State.reset) (fun t => (t.enc.status, t.dec.status)) = some (0#32, 0x18#32) ∧
    after (exec (.reservedE 3) State.reset) (fun t => (t.enc.status, t.dec.status)) = some (0#32, 0x18#32) ∧
    after (exec (.reservedF 4) State.reset) (fun t => (t.enc.status, t.dec.status)) = some (0#32, 0x18#32) := by
  decide +kernel

/-! ### The code words -/

/-- V4: `LITERAL 66` after 65 inserts 257 = `AB`. -/
theorem test_literal : after (exec (.literal 66) (both 0 (some 65) []))
    (fun t => (t.dec.port.snk, t.dec.node, t.dec.dict.nextCode, Table.find t.dec.dict.tab 257)) =
    some (bytes [66], some 66, 258, some { parent := some 65, last := 66, first := 65, len := 2 }) := by decide +kernel

/-- As in V23: a `Matched` mirror inserts nothing. -/
theorem test_literal_matched : after (exec (.literal 66) (learned (some 65)))
    (fun t => (t.dec.port.snk, t.dec.dict.nextCode)) = some (bytes [66], 258) := by decide +kernel

/-- V4: `STRING 257` after 66 writes `AB` and inserts 258 = `BA`. -/
theorem test_string : after (exec (.string 257) (learned (some 66)))
    (fun t => (t.dec.port.snk, t.dec.node, Table.find t.dec.dict.tab 258)) =
    some (bytes [65, 66], some 257, some { parent := some 66, last := 65, first := 66, len := 2 }) := by decide +kernel

/-- V3: `KWKWK 257` after 45. -/
theorem test_kwkwk : after (exec (.kwkwk 257) (both 0 (some 45) []))
    (fun t => (t.dec.port.snk, t.dec.node, t.dec.dict.nextCode)) =
    some (bytes [45, 45], some 257, 258) := by decide +kernel

/-- V18: 257 with no previous code. -/
theorem test_invalid : after (exec (.invalid 257) (both 0 none []))
    (fun t => (t.dec.status, t.dec.errinfo, t.dec.port.snk, t.dec.node)) =
    some (0x103#32, 257#32, [], none) := by decide +kernel

/-- 44 R199: the worked example's third code, with the pad `000`. -/
theorem test_clear :
    after (exec .clear { learned none with dec := { (learned (some 66)).dec with bits := 3 } })
      (fun t => (t.dec.dict.nextCode, t.dec.node, t.dec.bits, t.dec.port.snk)) =
    some (257, none, 0, []) := by decide +kernel

/-! ### The primitives -/

/-- V10. -/
theorem test_dictInit : after (exec (.dictInit .enc) State.reset)
    (fun t => (t.enc.dict.codeWidth, t.enc.dict.nextCode, t.enc.dict.tab.length)) = some (9, 257, 256) := by
  decide +kernel

/-- V11, second row. -/
theorem test_dictExtend_inserts : after (exec (.dictExtend .enc (some 0x41) 0x42) (both 0 none []))
    (fun t => (t.ret, Table.find t.enc.dict.tab 257, t.enc.dict.nextCode)) =
    some (.inserted 257, some { parent := some 0x41, last := 0x42, first := 0x41, len := 2 }, 258) := by
  decide +kernel

/-- V11, fifth and sixth rows: a match is found before fullness is tested. -/
theorem test_dictExtend_full :
    after (exec (.dictExtend .dec (some 0x41) 0x42) (both 257 none [])) (fun t => t.ret) = some .full ∧
    after (exec (.dictExtend .dec none 0x42) (both 257 none [])) (fun t => t.ret) = some (.matched 0x42) := by
  decide +kernel

/-- V11: 512 does not grow, 513 does. -/
theorem test_dictGrow :
    after (exec (.dictGrow .enc) (bare 24 9 512 0 none)) (fun t => t.enc.dict.codeWidth) = some 9 ∧
    after (exec (.dictGrow .enc) (bare 24 9 513 0 none)) (fun t => t.enc.dict.codeWidth) = some 10 := by
  decide +kernel

/-- V11, last row. -/
theorem test_dictGrow_raises : after (exec (.dictGrow .enc) (bare 24 24 16777217 0 none))
    (fun t => (t.enc.status, t.enc.errinfo, t.enc.dict.codeWidth)) = some (0x203#32, 0x01000001#32, 24) := by
  decide +kernel

/-- 40 R131: `seq(257) = AB` by the chain 257 → 65. -/
theorem test_dictSeq : after (exec (.dictSeq .dec 257) (learned none)) (fun t => t.ret) =
    some (.bytes (bytes [65, 66])) := by decide +kernel

/-- 40 R133: the worked example. -/
theorem test_dictReset : after (exec (.dictReset .dec) (bare 24 13 5000 700 none))
    (fun t => (t.dec.dict.codeWidth, t.dec.dict.nextCode, t.dec.dict.maxCode)) = some (9, 257, 700) := by
  decide +kernel

/-- V16 d: 31 bits held momentarily. -/
theorem test_bwPush : after (exec (.bwPush 0xFFFFFF 24) { both 0 none [] with enc := { live 0 none [] with bits := 7, buf := 127 } })
    (fun t => (t.enc.port.snk, t.enc.bits, t.enc.buf, t.enc.bytesWritten)) =
    some (bytes [0xFF, 0xFF, 0xFF], 7, 127, 3) := by decide +kernel

/-- V16 f. -/
theorem test_bwPush_raises : after (exec (.bwPush 0x200 9) (both 0 none []))
    (fun t => (t.enc.status, t.enc.errinfo, t.enc.port.snk, t.enc.bits)) = some (0x203#32, 0x200#32, [], 0) := by
  decide +kernel

/-- V16 a. -/
theorem test_bwFlush : after (exec .bwFlush { both 0 none [] with enc := { live 0 none [] with bits := 3, buf := 5 } })
    (fun t => (t.enc.port.snk, t.enc.bits, t.enc.buf)) = some (bytes [0xA0], 0, 0) := by decide +kernel

/-- V17: a pull of 9. -/
theorem test_brPull : after (exec (.brPull 9) (both 0 none [0x16, 0xC0, 0x45, 0xA0]))
    (fun t => (t.ret, t.dec.bits, t.dec.buf, t.dec.bytesRead)) = some (.someVal 0x02D, 7, 0x40, 2) := by
  decide +kernel

/-- V17: at the end of the input the bytes stay in the buffer. -/
theorem test_brPull_none : after (exec (.brPull 17) (both 0 none [0x12, 0x34]))
    (fun t => (t.ret, t.dec.bits, t.dec.buf, t.dec.port.pos)) = some (.noneVal, 16, 0x1234, 2) := by decide +kernel

/-- 42 R157: the second byte of the worked example. -/
theorem test_encByte : after (exec (.encByte 0x2D) (both 0 (some 0x2D) []))
    (fun t => (t.enc.node, t.enc.dict.nextCode, t.enc.dict.codeWidth, t.enc.port.snk, t.enc.bits, t.enc.buf)) =
    some (some 0x2D, 258, 9, bytes [0x16], 1, 1) := by decide +kernel

/-- 42 R169 with `MAXW = 9`: the insertion and the emission happen, the cursor stays (V32). -/
theorem test_encByte_raises : after (exec (.encByte 0) (bare 9 9 512 0 (some 0xFF)))
    (fun t => (t.enc.status, t.enc.errinfo, t.enc.node, t.enc.dict.nextCode, t.enc.dict.codeWidth, t.enc.bits)) =
    some (0x203#32, 513#32, some 0xFF, 513, 9, 1) := by decide +kernel

/-- 42 R160: the worked example. -/
theorem test_encPending : after (exec .encPending (both 0 (some 0x2D) []))
    (fun t => (t.enc.node, t.enc.port.snk, t.enc.bits, t.enc.buf)) = some (none, bytes [0x16], 1, 1) := by
  decide +kernel

/-- 43 R177: the first step of the worked example. -/
theorem test_decStep : after (exec .decStep (both 0 none [0x16, 0xC0, 0x45, 0xA0]))
    (fun t => (t.ret, t.dec.port.snk, t.dec.node)) = some (.decoded, bytes [0x2D], some 0x2D) := by decide +kernel

/-- V24 a: one byte is no code. -/
theorem test_decStep_end : after (exec .decStep (both 0 none [0x20]))
    (fun t => (t.ret, t.dec.bits, t.dec.buf, t.dec.port.events)) =
    some (.endOfStream, 8, 0x20, [.gave 0x20, .ended]) := by decide +kernel

/-- 43 R182: the worked example. -/
theorem test_decGrow :
    after (exec .decGrow (bare 24 9 511 0 none)) (fun t => t.dec.dict.codeWidth) = some 9 ∧
    after (exec .decGrow (bare 24 9 512 0 none)) (fun t => t.dec.dict.codeWidth) = some 10 ∧
    after (exec .decGrow (bare 24 9 512 512 none)) (fun t => t.dec.dict.codeWidth) = some 9 := by decide +kernel

/-- 43 R182 at `MAXW` (V32: `CapacityViolation(512)` with `MAXW = 9`). -/
theorem test_decGrow_raises : after (exec .decGrow (bare 9 9 512 0 none))
    (fun t => (t.dec.status, t.dec.errinfo)) = some (0x203#32, 512#32) := by decide +kernel

/-- 44 R199. -/
theorem test_decClear : after (exec .decClear { learned none with dec := { (learned (some 66)).dec with bits := 3, buf := 5 } })
    (fun t => (t.dec.dict.nextCode, t.dec.node, t.dec.bits, t.dec.buf)) = some (257, none, 0, 0) := by decide +kernel

/-- 20 R66: `Some`, and `None` at the end. -/
theorem test_srcRead :
    after (exec (.srcRead .enc) (both 0 none [7])) (fun t => (t.ret, t.enc.port.pos, t.enc.port.events)) =
      some (.someVal 7, 1, [.gave 7]) ∧
    after (exec (.srcRead .dec) (both 0 none [])) (fun t => (t.ret, t.dec.port.pos, t.dec.port.events)) =
      some (.noneVal, 0, [.ended]) := by
  decide +kernel

/-- 20 R67. -/
theorem test_snkWrite : after (exec (.snkWrite .dec 9) (both 0 none [])) (fun t => (t.dec.port.snk, t.dec.bytesWritten)) =
    some (bytes [9], 0) := by decide +kernel

/-- 10 R37, V31: `ERROR` after a protocol violation with a `WRONG_STATE` refusal. -/
theorem test_status :
    ({ live 0 none [] with st := .error, err := .protocolViolation, refused := true, rsn := .wrongState } : Engine).status =
      0x12B#32 := by decide +kernel

/-! ### Witnesses: states that meet the invariants -/

/-- The node of a one-byte sequence, or the root, is resident in a fresh dictionary. -/
theorem live_resident (m : Nat) (n : NodeId) (src : List Nat) (hn : n = none ∨ ∃ b : Byte, n = some b.toNat) :
    (live m n src).nodeResident := by
  rcases hn with h | ⟨b, h⟩
  · exact .inl h
  · refine .inr ⟨b.toNat, h, ?_⟩
    have : Table.find literalTable b.toNat = _ := literalTable_find b.toNat
    simp [live, Engine.fresh, Dict.init, this, b.isLt]

/-- A fresh engine meets what holds in every lifecycle state. -/
theorem live_flagInv (m : Nat) (n : NodeId) (src : List Nat) (hm : m < 2 ^ 28) :
    (live m n src).FlagInv Config.defaultBuild where
  errState := by simp [live, Engine.fresh]
  errInfo := by simp [live, Engine.fresh]
  noResource := by simp [live, Engine.fresh]
  reason := by simp [live, Engine.fresh]
  uninit := by simp [live, Engine.fresh]
  result := by simp [live, Engine.fresh]
  counters := ⟨Nat.two_pow_pos _, Nat.two_pow_pos _⟩
  maxCode := hm
  sorted := literalTable_wf
  source := Nat.zero_le _

theorem live_dictInv (m : Nat) (n : NodeId) (src : List Nat) (hm : m = 0 ∨ 257 ≤ m) :
    (live m n src).dict.Inv Config.defaultBuild.maxw :=
  Dict.init_inv _ _ (by decide) hm

theorem live_encInv (m : Nat) (n : NodeId) (src : List Nat) (hm : m = 0 ∨ 257 ≤ m) (hb : m < 2 ^ 28)
    (hn : n = none ∨ ∃ b : Byte, n = some b.toNat) : (live m n src).EncInv Config.defaultBuild where
  toFlagInv := live_flagInv m n src hb
  dict _ := live_dictInv m n src hm
  cursor _ := live_resident m n src hn
  buffer _ := by simp [live, Engine.fresh]
  finished := by simp [live, Engine.fresh]
  noProtocol := by simp [live, Engine.fresh]

theorem live_decInv (m : Nat) (n : NodeId) (src : List Nat) (hm : m = 0 ∨ 257 ≤ m) (hb : m < 2 ^ 28)
    (hn : n = none ∨ ∃ b : Byte, n = some b.toNat) : (live m n src).DecInv Config.defaultBuild where
  toFlagInv := live_flagInv m n src hb
  dict _ := live_dictInv m n src hm
  prev _ := live_resident m n src hn
  buffer _ := by simp [live, Engine.fresh]
  ready _ := by simp [live, Engine.fresh]
  residue := by simp [live, Engine.fresh]
  room _ _ := by show firstFree < 2 ^ initWidth; decide
  eoiDone := by simp [live, Engine.fresh]

theorem both_inv (m : Nat) (n : NodeId) (src : List Nat) (hm : m = 0 ∨ 257 ≤ m) (hb : m < 2 ^ 28)
    (hn : n = none ∨ ∃ b : Byte, n = some b.toNat) : (both m n src).Inv where
  legal := by show Config.defaultBuild.Legal; decide
  enc := live_encInv m n src hm hb hn
  dec := live_decInv m n src hm hb hn

/-- The table with one learned entry meets the dictionary invariants. -/
theorem learned_dictInv (n : NodeId) : (learned n).dec.dict.Inv Config.defaultBuild.maxw := by
  have h0 := live_dictInv 0 n [] (.inl rfl)
  have hf : ∀ k, Table.find learnedTable k =
      if k = 257 then some { parent := some 65, last := 66, first := 65, len := 2 } else Table.find literalTable k :=
    fun k => Table.find_put _ _ _ _
  have hl := literalTable_find
  refine ⟨by show 9 ≤ 9 ∧ 9 ≤ 24; decide, by show 257 ≤ 258 ∧ 258 ≤ 2 ^ 9; decide, Table.put_wf _ _ _ literalTable_wf, ?_, ?_, ?_, ?_,
    .inl rfl, fun h => absurd rfl h⟩
  · intro k
    show (Table.find learnedTable k).isSome = true ↔ k < 258 ∧ k ≠ 256
    rw [hf, hl]; split <;> [simp_all; (split <;> simp <;> omega)]
  · intro b
    show Table.find learnedTable b.toNat = _
    have := b.isLt
    rw [hf, if_neg (by omega)]; exact h0.literals b
  · intro k e hk he
    replace he : Table.find learnedTable k = some e := he
    rw [hf, hl] at he
    split at he
    · cases he
      refine ⟨65, literalEntry 65, rfl, by omega, (hf 65).trans ?_, rfl, rfl⟩
      rw [if_neg (by decide), hl, if_pos (by decide)]
    · rw [if_neg (by omega)] at he; cases he
  · intro j k e f hj hk hp hq
    replace hj : Table.find learnedTable j = some e := hj
    replace hk : Table.find learnedTable k = some f := hk
    rw [hf] at hj hk
    split at hj <;> split at hk
    · omega
    · cases hj
      rw [hl] at hk; split at hk <;> cases hk; cases hp
    · cases hk
      rw [hl] at hj; split at hj <;> cases hj; cases hp
    · exact h0.unique j k e f hj hk hp hq

/-- `W(257) = W(258) = 9` (00 R15). -/
theorem leastWidth_start : leastWidth 257 = 9 ∧ leastWidth 258 = 9 := by
  constructor <;> norm_num [leastWidth]

theorem both_widthInv (n : NodeId) (src : List Nat) : (both 0 n src).WidthInv ∧ (both 257 n src).WidthInv :=
  ⟨⟨fun _ => leastWidth_start.1.symm, fun _ => leastWidth_start.2.symm⟩,
    ⟨fun _ => leastWidth_start.1.symm, fun _ => leastWidth_start.1.symm⟩⟩

theorem learned_decInv (n : NodeId) (hn : n = none ∨ n = some 66) : (learned n).dec.DecInv Config.defaultBuild where
  toFlagInv := { live_flagInv 0 n [] (by decide) with sorted := Table.put_wf _ _ _ literalTable_wf }
  dict _ := learned_dictInv n
  prev _ := by
    rcases hn with h | h
    · exact .inl h
    · exact .inr ⟨66, h, by rw [show (learned n).dec.dict.tab = learnedTable from rfl]; decide +kernel⟩
  buffer _ := by simp [learned, live, Engine.fresh]
  ready _ := by simp [learned, live, Engine.fresh]
  residue := by simp [learned, live, Engine.fresh]
  room _ _ := by show 258 < 2 ^ 9; decide
  eoiDone := by simp [learned, live, Engine.fresh]

/-! ### Witnesses: every statement with hypotheses, clause by clause -/

theorem witness_CommandWordsRoundTrip : encode (.encInit 4096#28) = some 0x10001000#32 := rfl

theorem witness_CodeWordsRoundTrip :
    (8 < 9 ∧ 0x1FF < 2 ^ 9 ∧ [true].length < 9) ∧
    (codeValue (.literal 255#8) = some 255 ∧ classInstr (classify 257 true 255) 255 = .literal 255#8) ∧
    (codeValue .clear = some 256 ∧ classInstr (classify 257 true 256) 256 = .clear) ∧
    (codeValue (.string 257) = some 257 ∧ classInstr (classify 258 true 257) 257 = .string 257) ∧
    (codeValue (.kwkwk 257) = some 257 ∧ classInstr (classify 257 true 257) 257 = .kwkwk 257) ∧
    (codeValue (.invalid 257) = some 257 ∧ classInstr (classify 257 false 257) 257 = .invalid 257) ∧
    (encodeCodeword 9 .clear).isSome = true := by decide

theorem witness_ClassOfEveryCodeValue :
    257 ≤ (learned (some 66)).dec.dict.nextCode ∧
    ([255, 256, 257, 258, 259].map (learned (some 66)).dec.classOf =
      [.literal, .clear, .string, .kwkwk, .invalid]) ∧
    (learned none).dec.classOf 258 = .invalid := by decide +kernel

theorem witness_StepRunsTheDecodedCommand :
    ({ State.reset with cmds := [0x20000003#32] } : State).cmds = 0x20000003#32 :: [] ∧
    State.reset.cmds = [] ∧ 0xFFFFFFFF < 2 ^ 32 := by decide

theorem witness_EveryInstructionTouchesOneEngine :
    EngineId.dec ≠ (Instr.encChunk 1#28).engine ∧ (Instr.encChunk 1#28).format ≠ .prim := by decide

theorem witness_OtherEngineIsNotRead :
    let s := both 0 none [1]
    let s' : State := { both 0 none [1] with dec := Engine.reset }
    s.build = s'.build ∧ s.free = s'.free ∧ s.eng (Instr.encChunk 1#28).engine = s'.eng (Instr.encChunk 1#28).engine ∧
    s.dec ≠ s'.dec ∧ (Instr.encByte 1).format = .prim := by decide +kernel

theorem witness_PortsOnlyAdvance : (both 0 none [1]).enc.port.pos ≤ (both 0 none [1]).enc.port.src.length := by
  decide +kernel

theorem witness_MaxCodeIsConfiguration : ∀ a, Instr.encChunk 3 ≠ .encInit a ∧ Instr.encChunk 3 ≠ .decInit a ∧
    Instr.encChunk 3 ≠ .encDestroy a ∧ Instr.encChunk 3 ≠ .decDestroy a :=
  fun _ => ⟨nofun, nofun, nofun, nofun⟩

theorem witness_InitGivesAFreshEngine : (0#28 = 0 ∨ 257 ≤ (0#28).toNat) ∧ (257#28 = 0 ∨ 257 ≤ (257#28).toNat) := by
  decide

theorem witness_DestroyGivesTheResetState :
    (EngineId.enc ≠ .dec) ∧ State.reset.enc.st = .uninit ∧ State.reset.enc.eoi = false ∧
    State.reset.enc.err = .none ∧ State.reset.enc.result = 0 ∧ State.reset.enc.errinfo = 0 := by decide

theorem witness_ReservedOpcodesRefused :
    [0x0#32, 0x60000000#32, 0x7FFFFFFF#32, 0x80000000#32, 0xB0000000#32, 0xC0000000#32, 0xE0000000#32,
      0xFFFFFFFF#32].map (fun w => (opField w).toNat) = [0x0, 0x6, 0x7, 0x8, 0xB, 0xC, 0xE, 0xF] := by decide

theorem witness_RefusedCommandsChangeNothingElse :
    (1 ≤ (1#28).toNat ∧ (1#28).toNat ≤ 256) ∧ (1 ≤ (256#28).toNat ∧ (256#28).toNat ≤ 256) ∧
    (State.reset.eng .enc).st ≠ .ready ∧ (State.reset.eng .dec).st ≠ .ready := by decide

theorem witness_DictExtendResults :
    (both 0 none []).enc.dict.child none 0x41 = some 0x41 ∧
    ((both 257 none []).enc.dict.child (some 0x41) 0x42 = none ∧
      (both 257 none []).enc.dict.maxCode ≠ 0 ∧
      (both 257 none []).enc.dict.maxCode ≤ (both 257 none []).enc.dict.nextCode) ∧
    ((both 258 none []).enc.dict.child (some 0x41) 0x42 = none ∧
      ¬((both 258 none []).enc.dict.maxCode ≠ 0 ∧
        (both 258 none []).enc.dict.maxCode ≤ (both 258 none []).enc.dict.nextCode) ∧
      Table.find (both 258 none []).enc.dict.tab 0x41 = some (literalEntry 0x41)) := by decide +kernel

theorem witness_DictExtendRootMatches :
    (learned none).dec.dict.child (some 65) 66 = some 257 ∧ (learned none).dec.dict.Inv (learned none).build.maxw :=
  ⟨by decide +kernel, learned_dictInv none⟩

theorem witness_DictGrowRule :
    ((bare 24 9 512 0 none).enc.dict.nextCode ≤ 2 ^ (bare 24 9 512 0 none).enc.dict.codeWidth) ∧
    (2 ^ (bare 24 9 513 0 none).enc.dict.codeWidth < (bare 24 9 513 0 none).enc.dict.nextCode ∧
      (bare 24 9 513 0 none).enc.dict.codeWidth ≠ (bare 24 9 513 0 none).build.maxw) ∧
    (2 ^ (bare 9 9 513 0 none).enc.dict.codeWidth < (bare 9 9 513 0 none).enc.dict.nextCode ∧
      (bare 9 9 513 0 none).enc.dict.codeWidth = (bare 9 9 513 0 none).build.maxw) := by decide +kernel

theorem witness_DictInitAndReset : (Instr.dictReset .dec = .dictInit .dec ∨ Instr.dictReset .dec = .dictReset .dec) :=
  .inr rfl

theorem witness_DictInitLoopIsClosedForm :
    Config.defaultBuild.Legal ∧ ({ maxw := 9, wbufw := 18, rbufw := 18, ctrw := 1 } : Config.Build).Legal := by decide

theorem witness_DictSeqWalksTheParents :
    (learned none).dec.dict.Inv (learned none).build.maxw ∧
    Table.find (learned none).dec.dict.tab 257 = some { parent := some 65, last := 66, first := 65, len := 2 } :=
  ⟨learned_dictInv none, by decide +kernel⟩

theorem witness_ResidentSequencesDistinctAndClosed :
    (learned none).dec.dict.Inv 24 ∧ (Table.find (learned none).dec.dict.tab 257).isSome = true ∧
    (learned none).dec.dict.seq 257 = bytes [65, 66] ∧ bytes [65] ≠ [] ∧ bytes [65] <+: bytes [65, 66] :=
  ⟨learned_dictInv none, by decide +kernel, by decide +kernel, by decide, by decide⟩

theorem witness_ExtendAndGrowKeepTheDictionary :
    (learned none).dec.dict.Inv 24 ∧ (Table.find (learned none).dec.dict.tab 257).isSome = true ∧
    ((learned none).dec.dict.extend (some 257) 0).2.nextCode ≤ 2 ^ (learned none).dec.dict.codeWidth ∧
    (((learned none).dec.dict.extend (some 257) 0).2.grow 24).isSome = true :=
  ⟨learned_dictInv none, by decide +kernel, by decide +kernel, by decide +kernel⟩

theorem witness_BwPushAppendsTheCode :
    let s := both 0 none []
    (1 ≤ 1 ∧ 1 ≤ s.build.maxw ∧ 1 < 2 ^ 1) ∧ (24 ≤ s.build.maxw ∧ 0xFFFFFF < 2 ^ 24) ∧
    s.enc.bits ≤ 7 ∧ s.enc.buf < 2 ^ s.enc.bits ∧ s.enc.bytesWritten < 2 ^ s.build.ctrw := by decide +kernel

theorem witness_BwPushRejectsABadOperand :
    (0 < 1 ∨ (both 0 none []).build.maxw < 0 ∨ 2 ^ 0 ≤ 0) ∧ (25 < 1 ∨ (both 0 none []).build.maxw < 25 ∨ 2 ^ 25 ≤ 0) ∧
    (9 < 1 ∨ (both 0 none []).build.maxw < 9 ∨ 2 ^ 9 ≤ 512) := by decide +kernel

theorem witness_BwFlushPadsWithZeros :
    ((both 0 none []).enc.bits = 0 ∧ (both 0 none []).enc.buf < 2 ^ (both 0 none []).enc.bits) ∧
    (let g : Engine := { live 0 none [] with bits := 7, buf := 127 }
     g.bits ≤ 7 ∧ g.buf < 2 ^ g.bits ∧ 0 < g.bits) := by decide +kernel

theorem witness_BrPullTakesTheNextBits :
    let s := both 0 none [0x12, 0x34]
    s.dec.buf < 2 ^ s.dec.bits ∧ s.dec.port.pos ≤ s.dec.port.src.length ∧ s.dec.bytesRead < 2 ^ s.build.ctrw ∧
    (1 ≤ 16 ∧ 16 ≤ s.dec.unreadBits.length) ∧ s.dec.unreadBits.length < 17 := by decide +kernel

theorem witness_WriterReaderDuality :
    (∀ p ∈ [(0x2D, 9), (0x101, 9), (1, 1)], 1 ≤ p.2 ∧ p.2 ≤ Config.defaultBuild.maxw ∧ p.1 < 2 ^ p.2) ∧
    (live 0 none []).bits = 0 ∧ (live 0 none []).buf = 0 ∧ (live 0 none []).port.snk = [] ∧
    (live 0 none []).port.pos = 0 := by decide +kernel

theorem witness_SourceReadIsDestructive :
    (both 0 none [7]).enc.port.src[(both 0 none [7]).enc.port.pos]? = some 7#8 ∧
    (both 0 none []).enc.port.pos = (both 0 none []).enc.port.src.length := by decide +kernel

theorem witness_EncByteMatched : (both 0 none []).enc.dict.child (both 0 none []).enc.node 0x2D = some 0x2D := by
  decide +kernel

/-- A fresh encoder with the pending code 45, its dictionary open (`max_code` 0) or full (257). -/
theorem pending_encInv :
    (both 0 (some 45) [45]).enc.EncInv Config.defaultBuild ∧ (both 257 (some 45) [45]).enc.EncInv Config.defaultBuild :=
  ⟨live_encInv 0 _ _ (.inl rfl) (by decide) (.inr ⟨45, rfl⟩),
    live_encInv 257 _ _ (.inr (by decide)) (by decide) (.inr ⟨45, rfl⟩)⟩

theorem witness_EncByteEmits :
    ((both 0 (some 45) [45]).enc.EncInv Config.defaultBuild ∧ (both 257 (some 45) [45]).enc.EncInv Config.defaultBuild) ∧
    Config.defaultBuild.Legal ∧
    ((both 0 (some 45) [45]).enc.st = .ready ∧ (both 0 (some 45) [45]).enc.dict.child (some 45) 45 = none ∧
      (both 0 (some 45) [45]).enc.dict.codeWidth ≠ (both 0 (some 45) [45]).build.maxw) ∧
    ((both 257 (some 45) [45]).enc.dict.child (some 45) 45 = none ∧ (both 257 (some 45) [45]).enc.dict.full = true) :=
  ⟨pending_encInv, by decide, by decide +kernel, by decide +kernel⟩

theorem witness_EncByteCapacityViolation :
    let s := bare 9 9 512 0 (some 0xFF)
    1 ≤ s.build.maxw ∧ s.enc.dict.codeWidth = s.build.maxw ∧ s.enc.dict.nextCode = 2 ^ s.build.maxw ∧
    s.enc.dict.full = false ∧ s.enc.node = some 0xFF ∧ 0xFF < 2 ^ s.build.maxw ∧
    s.enc.dict.child (some 0xFF) 0 = none ∧ s.enc.bits ≤ 7 ∧ s.enc.buf < 2 ^ s.enc.bits := by decide +kernel

theorem witness_EncPendingEmitsTheCursor :
    (both 0 none []).enc.node = none ∧ (both 0 (some 45) [45]).enc.EncInv Config.defaultBuild ∧
    (both 0 (some 45) [45]).enc.st = .ready ∧ (both 0 (some 45) [45]).enc.node = some 45 :=
  ⟨rfl, pending_encInv.1, rfl, rfl⟩

theorem witness_EncChunkByUnits :
    (both 0 none [7]).enc.st = .ready ∧ ((both 0 none [7]).enc.eoi = false ∧
      (both 0 none [7]).enc.port.src[(both 0 none [7]).enc.port.pos]? = some 7#8) ∧
    (1#28 ≠ 0 ∧ (both 0 none []).enc.port.src.length ≤ (both 0 none []).enc.port.pos) ∧
    (let g : Engine := { live 0 none [] with eoi := true }
     g.st = .ready ∧ g.eoi = true) := by decide +kernel

theorem witness_EncChunksCompose :
    (0#28).toNat + (268435455#28).toNat < 2 ^ 28 ∧ (both 0 none [1, 2]).enc.st = .ready ∧
    after (exec (.encChunk 1) (both 0 none [1, 2])) (fun t => t.enc.st) = some .ready ∧
    after (exec (.encChunk 1)
      { bare 9 9 512 0 (some 0xFF) with enc := { (bare 9 9 512 0 (some 0xFF)).enc with port := { src := [0], pos := 0, snk := [], events := [] } } })
      (fun t => t.enc.st) = some .error := by decide +kernel

theorem witness_EncChunkCountsItsBytes :
    Config.defaultBuild.Legal ∧ (both 0 (some 45) [45]).enc.EncInv Config.defaultBuild ∧
    (both 257 (some 45) [45]).enc.EncInv Config.defaultBuild ∧
    ((both 0 (some 45) [45]).enc.st = .ready ∧ (both 0 (some 45) [45]).enc.eoi = false ∧
      (both 0 (some 45) [45]).enc.dict.nextCode + (16776959#28).toNat ≤ 2 ^ Config.defaultBuild.maxw) ∧
    ((both 257 (some 45) [45]).enc.dict.maxCode ≠ 0 ∧
      (both 257 (some 45) [45]).enc.dict.maxCode ≤ 2 ^ Config.defaultBuild.maxw) :=
  ⟨by decide, pending_encInv.1, pending_encInv.2, by decide +kernel, by decide +kernel⟩

theorem witness_FullDictionaryStaysFrozen :
    (both 257 none [1, 2, 3]).Inv ∧ (both 257 none [1, 2, 3]).WidthInv ∧ (both 257 none [1, 2, 3]).enc.st = .ready ∧
    (both 257 none [1, 2, 3]).enc.dict.maxCode = 257 :=
  ⟨both_inv 257 none _ (.inr (by decide)) (by decide) (.inl rfl), (both_widthInv none _).2, rfl, rfl⟩

theorem witness_EncEndFinishesTheStream :
    Config.defaultBuild.Legal ∧ (both 0 (some 45) [45]).enc.EncInv (both 0 (some 45) [45]).build ∧
    (both 0 (some 45) [45]).enc.st = .ready :=
  ⟨by decide, pending_encInv.1, rfl⟩

theorem witness_EncClearWritesTheClearCode :
    Config.defaultBuild.Legal ∧ (both 0 (some 45) [45]).enc.EncInv (both 0 (some 45) [45]).build ∧
    (both 0 (some 45) [45]).enc.st = .ready ∧ (both 0 (some 45) [45]).enc.eoi = false :=
  ⟨by decide, pending_encInv.1, rfl, rfl⟩

theorem witness_EncClearAfterEndOfInput :
    let s : State := { both 0 none [] with enc := { live 0 (some 0x41) [] with eoi := true } }
    s.enc.st = .ready ∧ s.enc.eoi = true := by decide +kernel

theorem witness_DecGrowRule :
    ((bare 24 9 512 512 none).dec.dict.full = true ∧
      (bare 24 9 511 0 none).dec.dict.nextCode < 2 ^ (bare 24 9 511 0 none).dec.dict.codeWidth) ∧
    ((bare 24 9 512 0 none).dec.dict.full = false ∧
      2 ^ (bare 24 9 512 0 none).dec.dict.codeWidth ≤ (bare 24 9 512 0 none).dec.dict.nextCode ∧
      (bare 24 9 512 0 none).dec.dict.codeWidth ≠ (bare 24 9 512 0 none).build.maxw) ∧
    ((bare 9 9 512 0 none).dec.dict.full = false ∧
      2 ^ (bare 9 9 512 0 none).dec.dict.codeWidth ≤ (bare 9 9 512 0 none).dec.dict.nextCode ∧
      (bare 9 9 512 0 none).dec.dict.codeWidth = (bare 9 9 512 0 none).build.maxw) := by decide +kernel

theorem witness_LookupCodesDecode :
    ((learned (some 66)).dec.DecInv (learned (some 66)).build ∧ (learned none).dec.DecInv (learned none).build) ∧
    (learned (some 66)).dec.st = .ready ∧ (255#8).toNat = 255 ∧ (257 ≤ 257) ∧
    (Table.find (learned (some 66)).dec.dict.tab 255).isSome = true ∧
    (Table.find (learned (some 66)).dec.dict.tab 257).isSome = true ∧
    ((learned (some 66)).dec.dict.extend (some 66) ((learned (some 66)).dec.dict.firstOf (some 257))).2.codeWidth ≠
      (learned (some 66)).build.maxw :=
  ⟨⟨learned_decInv _ (.inr rfl), learned_decInv _ (.inl rfl)⟩, rfl, rfl, by decide, by decide +kernel,
    by decide +kernel, by decide +kernel⟩

theorem witness_KwkwkCodeDecodes :
    (both 0 (some 45) []).dec.DecInv (both 0 (some 45) []).build ∧ (both 0 (some 45) []).dec.st = .ready ∧
    (both 0 (some 45) []).dec.node = some 45 ∧ (both 0 (some 45) []).dec.dict.full = false ∧
    (both 0 (some 45) []).dec.dict.child (some 45) ((both 0 (some 45) []).dec.dict.firstOf (some 45)) = none ∧
    (both 0 (some 45) []).dec.dict.codeWidth ≠ (both 0 (some 45) []).build.maxw :=
  ⟨live_decInv 0 _ _ (.inl rfl) (by decide) (.inr ⟨45, rfl⟩), rfl, rfl, by decide +kernel, by decide +kernel,
    by decide +kernel⟩

theorem witness_InvalidCodeRaises :
    (257 ≤ (both 0 none []).dec.dict.nextCode ∧ (both 0 none []).dec.dict.nextCode < 258) ∧
    (257 = (both 0 none []).dec.dict.nextCode ∧ (both 0 none []).dec.node = none) ∧
    (257 = (both 257 (some 65) []).dec.dict.nextCode ∧ (both 257 (some 65) []).dec.dict.full = true) ∧
    (let d : Dict := { codeWidth := 9, nextCode := 258, maxCode := 0,
                       tab := Table.put literalTable 257 { parent := some 65, last := 65, first := 65, len := 2 } }
     258 = d.nextCode ∧ d.child (some 65) (d.firstOf (some 65)) ≠ none) := by decide +kernel

theorem witness_DecStepPullsAndRunsTheCode :
    (both 0 none [0x20, 0x80]).dec.st ≠ .error ∧
    after (exec (.brPull (both 0 none [0x20, 0x80]).dec.dict.codeWidth) (both 0 none [0x20, 0x80])) (fun t => t.ret) =
      some (.someVal 0x41) ∧
    after (exec (.brPull (both 0 none [0x20]).dec.dict.codeWidth) (both 0 none [0x20])) (fun t => t.ret) =
      some .noneVal := by decide +kernel

theorem witness_DecChunkByUnits : (both 0 none [0x20, 0x80]).dec.st = .ready := rfl

theorem witness_DecChunksCompose :
    (1#28).toNat + (268435454#28).toNat < 2 ^ 28 ∧ (both 0 none [0x20, 0x80]).dec.st = .ready ∧
    after (exec (.decChunk 1) (both 0 none [0x20, 0x80])) (fun t => t.dec.st) = some .ready ∧
    after (exec (.decChunk 2) (both 0 none [0x20, 0x80])) (fun t => t.dec.st) = some .done := by decide +kernel

theorem witness_DecChunkReachesTheEnd :
    (both 0 none [0x20, 0x80]).build.Legal ∧ (both 0 none [0x20, 0x80]).dec.DecInv (both 0 none [0x20, 0x80]).build ∧
    (both 0 none [0x20, 0x80]).dec.st = .ready ∧
    (both 0 none [0x20, 0x80]).dec.unreadBits.length / 9 + 1 ≤ (2#28).toNat :=
  ⟨by show Config.defaultBuild.Legal; decide, live_decInv 0 _ _ (.inl rfl) (by decide) (.inl rfl), rfl,
    by decide +kernel⟩

/-- A decoder one insertion short of `2^9` codes with `MAXW = 9` and the entry 257 = (65, 66). -/
def nearMaxw (m : Nat) (n : NodeId) : State :=
  { bare 9 9 511 m n with
    dec := { live 0 n [] with dict := { codeWidth := 9, nextCode := 511, maxCode := m, tab := learnedTable } } }

/-- Both cases of `max_code`, and each of the three rows after the previous code 66. -/
theorem witness_DecCapacityViolation :
    (let s := nearMaxw 513 (some 66)
     9 ≤ s.build.maxw ∧ s.dec.dict.codeWidth = s.build.maxw ∧ s.dec.dict.nextCode + 1 = 2 ^ s.build.maxw ∧
     (nearMaxw 0 (some 66)).dec.dict.maxCode = 0 ∧ 2 ^ s.build.maxw < s.dec.dict.maxCode ∧ s.dec.node = some 66) ∧
    (let d := (nearMaxw 0 (some 66)).dec.dict
     ((255#8).toNat < d.nextCode ∧ (Table.find d.tab (255#8).toNat).isSome = true ∧
       (d.seq (255#8).toNat).head? = some 255#8 ∧ d.child (some 66) 255 = none) ∧
     (257 ≤ 257 ∧ 257 < d.nextCode ∧ (Table.find d.tab 257).isSome = true ∧ (d.seq 257).head? = some 65#8 ∧
       d.child (some 66) 65 = none) ∧
     d.child (some 66) (d.firstOf (some 66)) = none) := by decide +kernel

/-- 43 R182, 60 R216 at `MAXW = 9`: STRING and KWKWK write and insert before they raise `CapacityViolation(512)`. -/
theorem test_string_kwkwk_raise :
    after (exec (.string 257) (nearMaxw 0 (some 66)))
      (fun t => (t.dec.status, t.dec.errinfo, t.dec.port.snk, t.dec.node)) =
      some (0x203#32, 512#32, bytes [65, 66], some 257) ∧
    after (exec (.kwkwk 511) (nearMaxw 0 (some 66)))
      (fun t => (t.dec.status, t.dec.errinfo, t.dec.port.snk, t.dec.node)) =
      some (0x203#32, 512#32, bytes [66, 66], some 511) := by decide +kernel

theorem witness_EntriesAreWrittenOnce :
    (both 0 (some 45) [45]).enc.EncInv (both 0 (some 45) [45]).build ∧ (both 0 (some 45) [45]).enc.st = .ready ∧
    (learned (some 66)).dec.DecInv (learned (some 66)).build ∧ (learned (some 66)).dec.st = .ready ∧
    codeValue (.string 257) = some 257 ∧ 257 ≠ 256 :=
  ⟨pending_encInv.1, rfl, learned_decInv _ (.inr rfl), rfl, rfl, by decide⟩

theorem witness_RegisterFile :
    (both 0 none []).dec.st ≠ .uninit ∧ (both 0 none []).dec.bytesRead < 2 ^ 64 ∧
    (both 0 none []).dec.bytesWritten < 2 ^ 64 := by decide +kernel

theorem witness_LifecycleTable : (both 0 (some 45) [45]).Inv ∧ (opField 0xB0000000#32).toNat = 0xB :=
  ⟨both_inv 0 _ _ (.inl rfl) (by decide) (.inr ⟨45, rfl⟩), by decide⟩

theorem witness_ResetMeetsTheInvariants : (both 0 none []).Inv := both_inv 0 _ _ (.inl rfl) (by decide) (.inl rfl)

theorem witness_StepKeepsTheInvariant : (both 0 (some 45) [45]).Inv :=
  both_inv 0 _ _ (.inl rfl) (by decide) (.inr ⟨45, rfl⟩)

theorem witness_StepKeepsTheWidthSchedule : (both 0 (some 45) [45]).Inv ∧ (both 0 (some 45) [45]).WidthInv :=
  ⟨both_inv 0 _ _ (.inl rfl) (by decide) (.inr ⟨45, rfl⟩), (both_widthInv _ _).1⟩

/-- 43 R192 on `AA` (V24 c): every hypothesis of the round trip, inner ones too. -/
theorem witness_RoundTrip :
    Config.defaultBuild.Legal ∧ (0#28 = 0 ∨ 257 ≤ (0#28).toNat) ∧
    (bytes [65, 65]).length ≤ ([1#28, 1#28].map BitVec.toNat).sum ∧
    after (runCommands (encodeProgram 0 [1, 1]) (State.reset.bindEnc (bytes [65, 65])))
      (fun t => (decide (t.enc.st ≠ .error ∧ t.enc.dict.nextCode < 2 ^ State.reset.build.maxw ∧
        8 * t.enc.port.snk.length / 9 + 1 ≤ ([100#28].map BitVec.toNat).sum), t.enc.port.snk)) =
      some (true, bytes [0x20, 0x90, 0x40]) := ⟨by decide, by decide, by decide, by decide +kernel⟩

/-- 44 R200 on `A`, clear, `A`: no boundary at the clear, and the inner hypotheses. -/
theorem witness_RoundTripWithClears :
    after (runCommands (openProgram 0 [.chunk 1]) (State.reset.bindEnc (bytes [65, 65])))
      (fun p => decide (p.enc.eoi = true ∨ ¬p.enc.clearHazard)) = some true ∧
    after (runCommands (openProgram 0 [.chunk 1, .clear, .chunk 5] ++ [0x3#4 ++ 0#28]) (State.reset.bindEnc (bytes [65, 65])))
      (fun t => decide (t.enc.st ≠ .error ∧ t.enc.dict.nextCode < 2 ^ State.reset.build.maxw ∧
        8 * t.enc.port.snk.length / 9 + 1 ≤ ([100#28].map BitVec.toNat).sum)) = some true := by decide +kernel

end Sys2Proof.Tests
end

section
/-! SUPPORT. What the operations of the two engines do at the ports (00 R16; 20 R66, R67), and O8. -/

namespace Sys2Proof.Machine

/-! ### Events at a port -/

/-- A sequence of port events that can happen at `p` leads to `q` (00 R16). -/
def Port.Reaches (p q : Port) : Prop := ∃ ev, Port.replay ev p = some q

theorem Port.replay_append (ev fv : List PortEvent) (p : Port) :
    Port.replay (ev ++ fv) p = (Port.replay ev p).bind (Port.replay fv) := by
  induction ev generalizing p with
  | nil => rfl
  | cons e ev ih => cases e <;> simp only [List.cons_append, Port.replay, ih] <;> split <;> rfl

@[simp] theorem Port.Reaches.refl (p : Port) : p.Reaches p := ⟨[], rfl⟩

theorem Port.Reaches.trans {p q r : Port} (h : p.Reaches q) (h' : q.Reaches r) : p.Reaches r := by
  obtain ⟨ev, hev⟩ := h
  obtain ⟨fv, hfv⟩ := h'
  exact ⟨ev ++ fv, by rw [Port.replay_append, hev, Option.bind_some, hfv]⟩

theorem Port.reaches_write (p : Port) (b : Byte) : p.Reaches (p.write b) := ⟨[.wrote b], rfl⟩

theorem Port.reaches_gained (p : Port) (out : List Byte) : p.Reaches (p.gained out) := by
  induction out generalizing p with
  | nil => simp
  | cons b out ih => simpa [Port.write_eq] using (p.reaches_write b).trans (ih (p.write b))

theorem Port.reaches_answeredNone (p : Port) (h : p.src.length ≤ p.pos) : p.Reaches p.answeredNone :=
  ⟨[.ended], by simp [Port.replay, h]⟩

theorem Port.reaches_advanced_one (p : Port) (h : p.pos < p.src.length) : p.Reaches (p.advanced 1) :=
  ⟨[.gave p.src[p.pos]], by simp [Port.replay, h]⟩

theorem Port.reaches_read (p : Port) : p.Reaches p.read.2 := by
  rcases p.read_cases with ⟨hend, hr⟩ | ⟨hlt, hr⟩ <;> rw [hr]
  · exact p.reaches_answeredNone hend
  · exact p.reaches_advanced_one hlt

/-- No event changes the source, moves it back or past its end, or takes a byte from the sink (20 R66, R67). -/
theorem Port.replay_advances (ev : List PortEvent) (p q : Port) (h : Port.replay ev p = some q) :
    q.src = p.src ∧ p.pos ≤ q.pos ∧ (p.pos ≤ p.src.length → q.pos ≤ q.src.length) ∧ p.snk <+: q.snk := by
  induction ev generalizing p with
  | nil => cases h; simp
  | cons e ev ih =>
    cases e with
    | gave b =>
      simp only [Port.replay, Option.ite_none_right_eq_some] at h
      obtain ⟨hlt, -⟩ := List.getElem?_eq_some_iff.1 h.1
      obtain ⟨hsrc, hpos, hlen, hsnk⟩ := ih _ h.2
      simp only [Port.advanced_src, Port.advanced_pos, Port.advanced_snk] at hsrc hpos hlen hsnk
      exact ⟨hsrc, by omega, fun _ => hlen hlt, hsnk⟩
    | ended =>
      simp only [Port.replay, Option.ite_none_right_eq_some] at h
      exact ih p.answeredNone h.2
    | wrote b =>
      obtain ⟨hsrc, hpos, hlen, hsnk⟩ := ih (p.gained [b]) h
      exact ⟨hsrc, hpos, hlen, (List.prefix_append p.snk [b]).trans hsnk⟩

/-! ### The Bit Stream Codec at the ports -/

theorem Engine.takeByte_reaches (B : Config.Build) (g : Engine) : g.port.Reaches (g.takeByte B).2.port := by
  rcases g.takeByte_cases B with ⟨hend, ht⟩ | ⟨hlt, ht⟩ <;> rw [ht]
  · exact g.port.reaches_answeredNone hend
  · exact g.port.reaches_advanced_one hlt

theorem Engine.drain_reaches (B : Config.Build) (n : Nat) (g : Engine) : g.port.Reaches (g.drain B n).port := by
  induction n generalizing g with
  | zero => exact .refl _
  | succ n ih =>
    rw [Engine.drain]
    split
    · exact (g.port.reaches_write (topByte g.buf g.bits)).trans
        (ih { g.emit B (topByte g.buf g.bits) with bits := g.bits - 8, buf := g.buf % 2 ^ (g.bits - 8) })
    · exact .refl _

theorem Engine.push_reaches (B : Config.Build) (g : Engine) (v w : Nat) :
    g.port.Reaches (g.push B v w).engine.port := by
  unfold Engine.push
  split
  · exact .refl _
  · exact (g.append v w).drain_reaches B _

theorem Engine.flush_reaches (B : Config.Build) (g : Engine) : g.port.Reaches (g.flush B).port := by
  rcases Nat.eq_zero_or_pos g.bits with h | h
  · rw [g.flush_empty B h]; exact .refl _
  · rw [g.flush_pad B h]; exact g.port.reaches_gained _

/-- The refill loop in any state; `refill_eq` says more where the position is within the source. -/
theorem Engine.refill_reaches (B : Config.Build) (w n : Nat) (g : Engine) :
    g.port.Reaches (g.refill B w n).port := by
  induction n generalizing g with
  | zero => exact .refl _
  | succ n ih =>
    by_cases hw : g.bits < w
    · have ht := g.takeByte_reaches B
      rw [Engine.refill, if_pos hw]
      split
      next g' heq => rw [heq] at ht; exact ht
      next b g' heq =>
        rw [heq] at ht
        exact ht.trans (ih { g' with buf := g.buf * 256 + b.toNat, bits := g.bits + 8 })
    · rw [Engine.refill, if_neg hw]; exact .refl _

theorem Engine.pull_reaches (B : Config.Build) (w : Nat) (g : Engine) :
    g.port.Reaches (g.pull B w).2.port := by
  unfold Engine.pull
  dsimp only
  split <;> exact g.refill_reaches B w w

/-! ### The Encoder at the ports -/

@[simp] theorem Engine.grow_port (B : Config.Build) (g : Engine) : (g.grow B).engine.port = g.port := by
  rcases g.grow_cases B with ⟨-, h⟩ | ⟨-, -, h⟩ | ⟨-, -, h⟩ <;> rw [h] <;> rfl

@[simp] theorem Engine.growIfInserted_port (B : Config.Build) (r : ExtendResult) (g : Engine) :
    (g.growIfInserted B r).engine.port = g.port := by
  cases r with
  | inserted k => exact g.grow_port B
  | matched n => rfl
  | full => rfl

theorem Engine.emitCursor_reaches (B : Config.Build) (g : Engine) :
    g.port.Reaches (g.emitCursor B).engine.port := by
  unfold Engine.emitCursor
  split
  · exact g.push_reaches B _ _
  · exact .refl _

theorem Engine.emitAndRestart_reaches (B : Config.Build) (r : ExtendResult) (c : Byte) (g : Engine) :
    g.port.Reaches (g.emitAndRestart B r c).engine.port := by
  have he := g.emitCursor_reaches B
  unfold Engine.emitAndRestart
  split <;> rename_i g1 h1 <;> rw [h1] at he
  · exact he
  · have hg := g1.growIfInserted_port B r
    split <;> rename_i g2 h2 <;> rw [h2] at hg <;> exact hg.symm ▸ he

theorem Engine.encByte_reaches (B : Config.Build) (c : Byte) (g : Engine) :
    g.port.Reaches (g.encByte B c).engine.port := by
  rcases g.encByte_cases B c with ⟨k, -, h⟩ | ⟨-, h⟩ <;> rw [h]
  · exact .refl _
  · exact Engine.emitAndRestart_reaches B (g.dict.extend g.node c).1 c { g with dict := (g.dict.extend g.node c).2 }

theorem Engine.encPending_reaches (B : Config.Build) (g : Engine) :
    g.port.Reaches (g.encPending B).engine.port := by
  have he := g.emitCursor_reaches B
  unfold Engine.encPending
  split <;> rename_i h <;> rw [h] at he <;> exact he

theorem Engine.encLoop_reaches (B : Config.Build) (left count : Nat) (g : Engine) :
    g.port.Reaches (g.encLoop B left count).port := by
  induction left generalizing count g with
  | zero => exact .refl _
  | succ left ih =>
    rcases g.encLoop_succ B left count with ⟨-, h⟩ | ⟨-, hend, h⟩ | ⟨-, hlt, hbyte⟩
    · rw [h]; exact .refl _
    · rw [h]; exact g.port.reaches_answeredNone hend
    · have hb := (g.port.reaches_advanced_one hlt).trans (Engine.encByte_reaches B g.port.src[g.port.pos]
        { g with port := g.port.advanced 1, bytesRead := countUp B g.bytesRead })
      rcases hbyte with ⟨g2, he, h⟩ | ⟨g2, he, h⟩ <;> rw [he] at hb <;> rw [h]
      · exact hb
      · exact hb.trans (ih (count + 1) { g2 with result := BitVec.ofNat 32 (count + 1) })

theorem Engine.encEnd_reaches (B : Config.Build) (g : Engine) : g.port.Reaches (g.encEnd B).port := by
  have hp := g.encPending_reaches B
  unfold Engine.encEnd
  split <;> rename_i g1 h1 <;> rw [h1] at hp
  · exact hp
  · exact hp.trans (g1.flush_reaches B)

theorem Engine.encClear_reaches (B : Config.Build) (g : Engine) : g.port.Reaches (g.encClear B).port := by
  have hp := g.encPending_reaches B
  unfold Engine.encClear
  split
  · exact .refl _
  · split <;> rename_i g1 h1 <;> rw [h1] at hp
    · exact hp
    · have hc := hp.trans (g1.push_reaches B clearCode g1.dict.codeWidth)
      split <;> rename_i g2 h2 <;> rw [h2] at hc
      · exact hc
      · exact hc.trans (g2.flush_reaches B)

/-! ### The Decoder at the ports -/

@[simp] theorem Engine.decGrow_port (B : Config.Build) (g : Engine) : (g.decGrow B).engine.port = g.port := by
  rcases g.decGrow_cases B with ⟨-, h⟩ | ⟨-, -, h⟩ | ⟨-, -, h⟩ <;> rw [h] <;> rfl

@[simp] theorem Engine.mirror_port (b : Byte) (g : Engine) : (g.mirror b).port = g.port := by
  rw [Engine.mirror_eq]

@[simp] theorem Engine.finishCode_port (B : Config.Build) (v : Nat) (g : Engine) :
    (g.finishCode B v).engine.port = g.port := by
  have hg := Engine.decGrow_port B { g with node := some v }
  unfold Engine.finishCode
  split <;> rename_i h <;> rw [h] at hg <;> exact hg

/-- Classes LITERAL and STRING write the sequence of the code and do nothing else at the ports (43 R179). -/
@[simp] theorem Engine.lookupCode_port (B : Config.Build) (v : Nat) (g : Engine) :
    (g.lookupCode B v).engine.port = g.port.gained (g.dict.seq v) := by
  simp [Engine.lookupCode, Engine.emitAll_eq]

theorem Engine.kwkwkCode_reaches (B : Config.Build) (v : Nat) (g : Engine) :
    g.port.Reaches (g.kwkwkCode B v).engine.port := by
  simp only [Engine.kwkwkCode, Engine.finishCode_port, Engine.mirror_port, Engine.emitAll_eq]
  exact g.port.reaches_gained _

theorem Engine.lookupCode_reaches (B : Config.Build) (v : Nat) (g : Engine) :
    g.port.Reaches (g.lookupCode B v).engine.port := by
  rw [g.lookupCode_port B v]
  exact g.port.reaches_gained _

theorem Engine.codeWord_reaches (B : Config.Build) (v : Nat) (g : Engine) :
    g.port.Reaches (g.codeWord B v).engine.port := by
  rcases g.codeWord_cases B v with ⟨-, h⟩ | ⟨-, h⟩ | ⟨-, h⟩ | ⟨-, h⟩ | ⟨-, h⟩ <;> rw [h]
  · exact .refl _
  · exact g.lookupCode_reaches B v
  · exact g.lookupCode_reaches B v
  · exact g.kwkwkCode_reaches B v
  · exact .refl _

theorem Engine.decStep_reaches (B : Config.Build) (g : Engine) :
    g.port.Reaches (g.decStep B).engine.port := by
  have hp := g.pull_reaches B g.dict.codeWidth
  unfold Engine.decStep
  split <;> rename_i h <;> rw [h] at hp
  · exact hp
  · exact hp.trans (Engine.codeWord_reaches B _ _)

theorem Engine.decLoop_reaches (B : Config.Build) (left count : Nat) (g : Engine) :
    g.port.Reaches (g.decLoop B left count).port := by
  induction left generalizing count g with
  | zero => exact .refl _
  | succ left ih =>
    have hs := g.decStep_reaches B
    rcases g.decLoop_succ B left count with
      ⟨-, h⟩ | ⟨-, g2, he, h⟩ | ⟨-, g2, he, h⟩ | ⟨-, r, g2, -, he, h⟩
    · rw [h]; exact .refl _
    · rw [he] at hs; rw [h]; exact hs
    · rw [he] at hs; rw [h]; exact hs
    · rw [he] at hs; rw [h]; exact hs.trans (ih (count + 1) { g2 with result := BitVec.ofNat 32 (count + 1) })

/-! ### Commands at the ports -/

@[simp] theorem Engine.initCmd_port (m : Nat) (g : Engine) : (g.initCmd m).port = g.port := by
  unfold Engine.initCmd
  split <;> rfl

theorem Engine.whenReady_reaches (f : Engine → Engine) (hf : ∀ g : Engine, g.port.Reaches (f g).port)
    (g : Engine) : g.port.Reaches (g.whenReady f).port := by
  unfold Engine.whenReady
  split
  · exact hf g.accept
  · exact .refl _

/-! ### The primitives whose operation can raise, run alone -/

/-- How an operation ended, with the tagged value that 00 R14 gives its result. -/
def Res.tagged {α : Type} (f : α → PrimResult) : Res α → Res PrimResult
  | .ok a g => .ok (f a) g
  | .raised g => .raised g

@[simp] theorem Res.tagged_engine {α : Type} (f : α → PrimResult) (r : Res α) :
    (r.tagged f).engine = r.engine := by cases r <;> rfl

theorem execDictGrow_eq (z : EngineId) (s : State) :
    execDictGrow z s = .next (s.afterPrim z (((s.eng z).grow s.build).tagged fun _ => .unit)) := by
  unfold execDictGrow
  cases (s.eng z).grow s.build <;> rfl

theorem execBwPush_eq (v w : Nat) (s : State) :
    execBwPush v w s = .next (s.afterPrim .enc ((s.enc.push s.build v w).tagged fun _ => .unit)) := by
  unfold execBwPush
  cases s.enc.push s.build v w <;> rfl

theorem execEncByte_eq (c : Byte) (s : State) :
    execEncByte c s = .next (s.afterPrim .enc ((s.enc.encByte s.build c).tagged fun _ => .unit)) := by
  unfold execEncByte
  cases s.enc.encByte s.build c <;> rfl

theorem execEncPending_eq (s : State) :
    execEncPending s = .next (s.afterPrim .enc ((s.enc.encPending s.build).tagged fun _ => .unit)) := by
  unfold execEncPending
  cases s.enc.encPending s.build <;> rfl

theorem execDecStep_eq (s : State) :
    execDecStep s = .next (s.afterPrim .dec ((s.dec.decStep s.build).tagged StepResult.tag)) := by
  unfold execDecStep
  cases s.dec.decStep s.build <;> rfl

theorem execDecGrow_eq (s : State) :
    execDecGrow s = .next (s.afterPrim .dec ((s.dec.decGrow s.build).tagged fun _ => .unit)) := by
  unfold execDecGrow
  cases s.dec.decGrow s.build <;> rfl

/-! ### Instructions at the ports -/

/-- The outcome is a next state, and events at each engine's ports lead from `s` to it. -/
def PortsReach (s : State) (o : Host.Outcome State Fault Refusal) : Prop :=
  ∃ t, o = .next t ∧ ∀ z, (s.eng z).port.Reaches (t.eng z).port

/-- Events at the ports of one engine are events of the whole state: the other port stays. -/
theorem State.setEng_reaches (s : State) (z : EngineId) (g : Engine) (h : (s.eng z).port.Reaches g.port)
    (y : EngineId) : (s.eng y).port.Reaches ((s.setEng z g).eng y).port := by
  by_cases hy : y = z
  · rw [hy, State.setEng_eng]; exact h
  · rw [State.setEng_eng_other s z y g hy]; exact .refl _

theorem State.onEng_portsReach (s : State) (z : EngineId) (f : Engine → Engine)
    (h : (s.eng z).port.Reaches (f (s.eng z)).port) : PortsReach s (.next (s.onEng z f)) :=
  ⟨_, rfl, s.setEng_reaches z _ h⟩

theorem State.afterCode_portsReach {α : Type} (s : State) (r : Res α)
    (h : s.dec.port.Reaches r.engine.port) : PortsReach s (.next (s.afterCode r)) :=
  ⟨_, rfl, s.setEng_reaches .dec _ h⟩

theorem State.afterPrim_portsReach (s : State) (z : EngineId) (r : Res PrimResult)
    (h : (s.eng z).port.Reaches r.engine.port) : PortsReach s (.next (s.afterPrim z r)) := by
  refine ⟨_, rfl, fun y => ?_⟩
  have hs := s.setEng_reaches z r.engine h y
  cases r <;> cases y <;> exact hs

theorem State.destroy_portsReach (s : State) (z : EngineId) : PortsReach s (.next (s.destroy z)) := by
  refine ⟨_, rfl, fun y => ?_⟩
  have hs := s.setEng_reaches z (Engine.unspecified s.build z s.free (s.eng z).port) (.refl _) y
  cases y <;> exact hs

/-- A code word run alone: its own operation `r` in a state that gives it its class (`c`), else the operation of
the class its value has there (log 10). -/
theorem State.codeWord_portsReach (s : State) (c : Prop) [Decidable c] (v : Nat) (r : Res StepResult)
    (h : s.dec.port.Reaches r.engine.port) :
    PortsReach s (if c then .next (s.afterCode r) else .next (s.afterCode (s.dec.codeWord s.build v))) := by
  split
  · exact s.afterCode_portsReach r h
  · exact s.afterCode_portsReach _ (s.dec.codeWord_reaches s.build v)

/-- Every instruction answers a next state that port events lead to (00 R16). -/
theorem exec_portsReach (i : Instr) (s : State) : PortsReach s (exec i s) := by
  cases i with
  | encInit m => exact s.onEng_portsReach .enc _ (by simp)
  | encChunk n => exact s.onEng_portsReach .enc _ (Engine.whenReady_reaches _
      (fun g => Engine.encLoop_reaches s.build _ 0 { g with result := 0 }) _)
  | encEnd _ => exact s.onEng_portsReach .enc _ (Engine.whenReady_reaches _ (Engine.encEnd_reaches s.build) _)
  | encClear _ => exact s.onEng_portsReach .enc _ (Engine.whenReady_reaches _ (Engine.encClear_reaches s.build) _)
  | encDestroy a =>
    show PortsReach s (execEncDestroy a s)
    unfold execEncDestroy
    split
    · exact s.onEng_portsReach .enc _ (.refl _)
    · exact s.destroy_portsReach .enc
  | decInit m => exact s.onEng_portsReach .dec _ (by simp)
  | decChunk n => exact s.onEng_portsReach .dec _ (Engine.whenReady_reaches _
      (fun g => Engine.decLoop_reaches s.build _ 0 { g with result := 0 }) _)
  | decDestroy _ => exact s.destroy_portsReach .dec
  | reserved0 _ | reserved6 _ | reserved7 _ => exact s.onEng_portsReach .enc _ (.refl _)
  | reserved8 _ | reservedB _ | reservedC _ | reservedE _ | reservedF _ =>
    exact s.onEng_portsReach .dec _ (.refl _)
  | literal v => exact s.codeWord_portsReach _ v.toNat _ (s.dec.lookupCode_reaches s.build v.toNat)
  | clear => exact s.afterCode_portsReach _ (.refl _)
  | string v => exact s.codeWord_portsReach _ v _ (s.dec.lookupCode_reaches s.build v)
  | kwkwk v => exact s.codeWord_portsReach _ v _ (s.dec.kwkwkCode_reaches s.build v)
  | invalid v => exact s.codeWord_portsReach _ v _ (.refl _)
  | dictInit z | dictExtend z _ _ | dictSeq z _ | dictReset z => exact s.afterPrim_portsReach z _ (.refl _)
  | dictGrow z =>
    show PortsReach s (execDictGrow z s)
    rw [execDictGrow_eq]
    exact s.afterPrim_portsReach z _ (by simp)
  | bwPush v w =>
    show PortsReach s (execBwPush v w s)
    rw [execBwPush_eq]
    exact s.afterPrim_portsReach .enc _ (by simpa using s.enc.push_reaches s.build v w)
  | bwFlush => exact s.afterPrim_portsReach .enc _ (s.enc.flush_reaches s.build)
  | brPull w => exact s.afterPrim_portsReach .dec _ (s.dec.pull_reaches s.build w)
  | encByte c =>
    show PortsReach s (execEncByte c s)
    rw [execEncByte_eq]
    exact s.afterPrim_portsReach .enc _ (by simpa using s.enc.encByte_reaches s.build c)
  | encPending =>
    show PortsReach s (execEncPending s)
    rw [execEncPending_eq]
    exact s.afterPrim_portsReach .enc _ (by simpa using s.enc.encPending_reaches s.build)
  | decStep =>
    show PortsReach s (execDecStep s)
    rw [execDecStep_eq]
    exact s.afterPrim_portsReach .dec _ (by simpa using s.dec.decStep_reaches s.build)
  | decGrow =>
    show PortsReach s (execDecGrow s)
    rw [execDecGrow_eq]
    exact s.afterPrim_portsReach .dec _ (by simp)
  | decClear => exact s.afterPrim_portsReach .dec _ (.refl _)
  | srcRead z => exact s.afterPrim_portsReach z _ (s.eng z).port.reaches_read
  | snkWrite z b => exact s.afterPrim_portsReach z _ ((s.eng z).port.reaches_write b)

/-- Settles O8: every operation of an engine composes single port events, and what holds of one event at the
ports holds of a sequence. -/
theorem portsOnlyAdvance : Obligations.PortsOnlyAdvance := by
  intro i s z
  obtain ⟨t, ht, hports⟩ := exec_portsReach i s
  obtain ⟨ev, hev⟩ := hports z
  exact ⟨t, ev, ht, hev, Port.replay_events ev _ _ hev, Port.replay_advances ev _ _ hev⟩

end Sys2Proof.Machine
end

section
/-! SUPPORT. What a dictionary operation keeps: `max_code`, every entry, and the invariants of 10 R43. -/

namespace Sys2Proof.Machine

/-! ### A dictionary that only grows (10 R21, R22, R30) -/

/-- Every code with an entry is below `next_code` (10 R30). -/
def Dict.Bounded (d : Dict) : Prop := ∀ k e, Table.find d.tab k = some e → k < d.nextCode

/-- From `d` to `d'` nothing is forgotten: `max_code` is the same, `next_code` and `code_width` do not fall, and no
entry of a bounded dictionary is modified or removed. -/
structure Dict.Grows (d d' : Dict) : Prop where
  maxCode : d'.maxCode = d.maxCode
  next : d.nextCode ≤ d'.nextCode
  width : d.codeWidth ≤ d'.codeWidth
  bounded : d.Bounded → d'.Bounded
  entries : d.Bounded → ∀ k e, Table.find d.tab k = some e → Table.find d'.tab k = some e

theorem Dict.Inv.bounded {maxw : Nat} {d : Dict} (h : d.Inv maxw) : d.Bounded :=
  fun _ _ hk => (h.find_lt hk).1

theorem Dict.Grows.refl (d : Dict) : d.Grows d :=
  ⟨rfl, Nat.le_refl _, Nat.le_refl _, id, fun _ _ _ => id⟩

theorem Dict.Grows.of_eq {d d' : Dict} (h : d' = d) : d.Grows d' := h ▸ .refl d

theorem Dict.Grows.trans {d d' d'' : Dict} (h : d.Grows d') (h' : d'.Grows d'') : d.Grows d'' where
  maxCode := h'.maxCode.trans h.maxCode
  next := h.next.trans h'.next
  width := h.width.trans h'.width
  bounded hb := h'.bounded (h.bounded hb)
  entries hb k e hk := h'.entries (h.bounded hb) k e (h.entries hb k e hk)

theorem Dict.grows_widen (d : Dict) {w : Nat} (hw : d.codeWidth ≤ w) : d.Grows { d with codeWidth := w } :=
  ⟨rfl, Nat.le_refl _, hw, id, fun _ _ _ => id⟩

/-- `DICT.EXTEND` writes at `next_code` only, where a bounded dictionary has no entry (40 R125). -/
theorem Dict.grows_extend (d : Dict) (n : NodeId) (b : Byte) : d.Grows (d.extend n b).2 := by
  rcases d.extend_cases n b with ⟨_, _, h⟩ | ⟨_, _, h⟩ | ⟨_, _, h⟩ <;> rw [h]
  · exact .refl d
  · exact .refl d
  · refine ⟨rfl, Nat.le_succ _, Nat.le_refl _, fun hb k e hk => ?_, fun hb k e hk => ?_⟩
    · rw [Table.find_put] at hk
      split at hk
      · subst_vars; exact Nat.lt_succ_self _
      · exact Nat.lt_succ_of_lt (hb k e hk)
    · rw [Table.find_put_other _ _ _ _ (Nat.ne_of_lt (hb k e hk)), hk]

/-! ### The invariants of 10 R43 under the operations (40 R135) -/

/-- A wider `code_width` up to `MAXW` keeps the invariants. -/
theorem Dict.Inv.widen {maxw : Nat} {d : Dict} (h : d.Inv maxw) {w : Nat} (hw : d.codeWidth ≤ w) (hm : w ≤ maxw) :
    ({ d with codeWidth := w } : Dict).Inv maxw :=
  { h with
    width := ⟨h.width.1.trans hw, hm⟩
    next := ⟨h.next.1, h.next.2.trans (Nat.pow_le_pow_right (by decide) hw)⟩ }

/-- A new entry that extends a resident code by a byte without an edge, in a dictionary that is not full, keeps the
invariants if the raised `next_code` fits the width. -/
theorem Dict.Inv.insert {maxw : Nat} {d : Dict} (h : d.Inv maxw) {p : Nat} {f : Entry} {b : Byte}
    (hp : Table.find d.tab p = some f) (hc : d.child (some p) b = none) (hf : d.full = false)
    (hn : d.nextCode + 1 ≤ 2 ^ d.codeWidth) :
    ({ d with
      tab := Table.put d.tab d.nextCode { parent := some p, last := b, first := f.first, len := f.len + 1 }
      nextCode := d.nextCode + 1 } : Dict).Inv maxw := by
  have hfresh := (Table.child_none_find d.tab h.sorted (some p) b).1 hc
  have h257 := h.next.1
  exact
    { width := h.width
      next := ⟨Nat.le_succ_of_le h.next.1, hn⟩
      sorted := Table.put_wf _ _ _ h.sorted
      domain := fun k => by
        have hdom := h.domain k
        simp only [Table.find_put]
        split
        · subst_vars
          exact ⟨fun _ => ⟨Nat.lt_succ_self _, by omega⟩, fun _ => rfl⟩
        · rw [hdom]; omega
      literals := fun c => by
        have := c.isLt
        rw [Table.find_put_other _ _ _ _ (by omega)]
        exact h.literals c
      parents := fun k e hk he => by
        simp only [Table.find_put] at he ⊢
        split at he
        · cases he
          have hlt := h.bounded p f hp
          exact ⟨p, f, rfl, by omega, by rw [if_neg (by omega), hp], rfl, rfl⟩
        · obtain ⟨q, f', hq, hqk, hqf, hlen, hfirst⟩ := h.parents k e hk he
          have hlt := h.bounded q f' hqf
          exact ⟨q, f', hq, hqk, by rw [if_neg (by omega), hqf], hlen, hfirst⟩
      unique := fun j k e e' hj hk hpar hlast => by
        simp only [Table.find_put] at hj hk
        split at hj <;> split at hk
        · omega
        · cases hj; exact absurd ⟨hpar.symm, hlast.symm⟩ (hfresh k e' hk)
        · cases hk; exact absurd ⟨hpar, hlast⟩ (hfresh j e hj)
        · exact h.unique j k e e' hj hk hpar hlast
      cap := h.cap
      capNext := fun hm => by
        have hcap : ¬(d.maxCode ≠ 0 ∧ d.maxCode ≤ d.nextCode) := by simpa [Dict.full] using hf
        exact Nat.lt_of_not_le fun hle => hcap ⟨hm, hle⟩ }

/-- An extend of a resident node keeps the invariants at every width up to `MAXW` that holds the resulting
`next_code`: the present one, or the one `DICT.GROW` gives. -/
theorem Dict.Inv.extend_widen {maxw : Nat} {d : Dict} (h : d.Inv maxw) {n : NodeId} (b : Byte)
    (hn : n = none ∨ ∃ k, n = some k ∧ (Table.find d.tab k).isSome = true) {w : Nat}
    (hw : d.codeWidth ≤ w) (hm : w ≤ maxw) (hnext : (d.extend n b).2.nextCode ≤ 2 ^ w) :
    ({ (d.extend n b).2 with codeWidth := w } : Dict).Inv maxw := by
  rcases hn with rfl | ⟨p, rfl, hp⟩
  · rw [h.extend_root b]; exact h.widen hw hm
  · obtain ⟨f, hf⟩ := Option.isSome_iff_exists.1 hp
    rcases d.extend_cases (some p) b with ⟨_, _, he⟩ | ⟨_, _, he⟩ | ⟨hc, hfull, he⟩ <;> rw [he] at hnext ⊢
    · exact h.widen hw hm
    · exact h.widen hw hm
    · have hins := (h.widen hw hm).insert (p := p) (b := b) hf hc hfull hnext
      simpa only [Dict.firstOf, Dict.lenOf, Dict.entry, hf] using hins

/-- The code an edge leads to is resident. -/
theorem Dict.Inv.child_resident {maxw : Nat} {d : Dict} (h : d.Inv maxw) {n : NodeId} {b : Byte} {k : Nat}
    (hc : d.child n b = some k) : (Table.find d.tab k).isSome = true := by
  obtain ⟨e, he, -⟩ := Table.find_of_child d.tab h.sorted n b k hc
  simp [he]

/-- A resident node stays resident when the dictionary grows. -/
theorem Dict.Grows.resident {d d' : Dict} (h : d.Grows d') (hb : d.Bounded) {k : Nat}
    (hk : (Table.find d.tab k).isSome = true) : (Table.find d'.tab k).isSome = true := by
  obtain ⟨e, he⟩ := Option.isSome_iff_exists.1 hk
  simp [h.entries hb k e he]

end Sys2Proof.Machine
end

section
/-! SUPPORT. The flag invariants under the operations that write flags, and the engine after an INIT or a DESTROY. -/

namespace Sys2Proof.Machine

/-! ### How an operation ends (00 R13) -/

/-- `P` holds of the value and the engine of an operation that completes, `Q` of the engine of one that raises. -/
def Res.EndsIn {α : Type} (P : α → Engine → Prop) (Q : Engine → Prop) : Res α → Prop
  | .ok a g => P a g
  | .raised g => Q g

/-! ### Flags, results and counters (10 R36 to R39; 60 R211 to R213) -/

theorem Engine.FlagInv.err_none {B : Config.Build} {g : Engine} (h : g.FlagInv B) (hst : g.st ≠ .error) :
    g.err = .none := by
  by_contra he
  exact hst (h.errState.1 he)

theorem Engine.FlagInv.accept {B : Config.Build} {g : Engine} (h : g.FlagInv B) : g.accept.FlagInv B :=
  { h with reason := by simp }

theorem Engine.FlagInv.refuse {B : Config.Build} {g : Engine} (h : g.FlagInv B) {r : Reason} (hr : r ≠ .none) :
    (g.refuse r).FlagInv B :=
  { h with reason := by simp [hr] }

/-- Entering the error state sets `ERR`, `ERRINFO` and `ST` together (60 R212). -/
theorem Engine.FlagInv.raise {B : Config.Build} {g : Engine} (h : g.FlagInv B) {x : ErrKind} (n : Nat)
    (hx : x ≠ .none) (hres : x ≠ .resourceError) : (g.raise x n).FlagInv B :=
  { h with
    errState := by simp [hx]
    errInfo := fun he => absurd he hx
    noResource := hres
    uninit := by simp }

/-- A count of a chunk command fits `RESULT` (10 R38, 30 R101). -/
theorem Engine.FlagInv.setResult {B : Config.Build} {g : Engine} (h : g.FlagInv B) (hst : g.st = .ready) {n : Nat}
    (hn : n < 2 ^ 28) : ({ g with result := BitVec.ofNat 32 n } : Engine).FlagInv B :=
  { h with
    uninit := fun hu => absurd (hst.symm.trans hu) (by decide)
    result := by rw [BitVec.toNat_ofNat]; omega }

/-- The sink has gained bytes, each counted (10 R29). -/
theorem Engine.FlagInv.gained {B : Config.Build} {g : Engine} (h : g.FlagInv B) (out : List Byte) (n : Nat) :
    ({ g with
      bytesWritten := (countUp B)^[n] g.bytesWritten
      port := g.port.gained out } : Engine).FlagInv B :=
  { h with counters := ⟨h.counters.1, countUp_iterate_lt B n _ h.counters.2⟩ }

/-- The source has given bytes, each counted (10 R29, 20 R66). -/
theorem Engine.FlagInv.advanced {B : Config.Build} {g : Engine} (h : g.FlagInv B) {m : Nat}
    (hm : g.port.pos + m ≤ g.port.src.length) :
    ({ g with
      bytesRead := (countUp B)^[m] g.bytesRead
      port := g.port.advanced m } : Engine).FlagInv B :=
  { h with
    counters := ⟨countUp_iterate_lt B m _ h.counters.1, h.counters.2⟩
    source := hm }

/-- The dictionary has only grown. -/
theorem Engine.FlagInv.setDict {B : Config.Build} {g : Engine} (h : g.FlagInv B) {d : Dict}
    (hm : d.maxCode = g.dict.maxCode) (hw : Table.wf d.tab) : ({ g with dict := d } : Engine).FlagInv B :=
  { h with
    maxCode := by show d.maxCode < 2 ^ 28; rw [hm]; exact h.maxCode
    sorted := hw }

/-! ### INIT, DESTROY and hardware reset (10 R49, R50) -/

/-- The flags, `RESULT` and `ERRINFO` at the values that hardware reset and INIT give them. -/
structure Engine.FlagsZero (g : Engine) : Prop where
  eoi : g.eoi = false
  refused : g.refused = false
  rsn : g.rsn = .none
  err : g.err = .none
  result : g.result = 0
  errinfo : g.errinfo = 0

theorem Engine.fresh_flagsZero (m : Nat) (g : Engine) : (g.fresh m).FlagsZero := ⟨rfl, rfl, rfl, rfl, rfl, rfl⟩

theorem Engine.unspecified_flagsZero (B : Config.Build) (z : EngineId) (n : Nat) (p : Port) :
    (Engine.unspecified B z n p).FlagsZero := ⟨rfl, rfl, rfl, rfl, rfl, rfl⟩

theorem Engine.reset_flagsZero : Engine.reset.FlagsZero := ⟨rfl, rfl, rfl, rfl, rfl, rfl⟩

theorem Engine.zeroFlags_flagsZero (g : Engine) : g.zeroFlags.FlagsZero := ⟨rfl, rfl, rfl, rfl, rfl, rfl⟩

/-- With those values, the flag invariants ask for the ranges of the other registers only. -/
theorem Engine.FlagsZero.flagInv {B : Config.Build} {g : Engine} (h : g.FlagsZero) (hst : g.st ≠ .error)
    (hctr : g.bytesRead < 2 ^ B.ctrw ∧ g.bytesWritten < 2 ^ B.ctrw) (hmax : g.dict.maxCode < 2 ^ 28)
    (hsort : Table.wf g.dict.tab) (hsrc : g.port.pos ≤ g.port.src.length) : g.FlagInv B where
  errState := by simp [h.err, hst]
  errInfo _ := h.errinfo
  noResource := by simp [h.err]
  reason := by simp [h.refused, h.rsn]
  uninit _ := ⟨h.eoi, h.result⟩
  result := by simp [h.result]
  counters := hctr
  maxCode := hmax
  sorted := hsort
  source := hsrc

theorem Engine.FlagInv.fresh {B : Config.Build} {g : Engine} (h : g.FlagInv B) {m : Nat} (hm : m < 2 ^ 28) :
    (g.fresh m).FlagInv B :=
  (g.fresh_flagsZero m).flagInv (by simp) ⟨Nat.two_pow_pos _, Nat.two_pow_pos _⟩ hm literalTable_wf h.source

theorem Engine.unspecified_flagInv (B : Config.Build) (z : EngineId) (n : Nat) (p : Port)
    (hp : p.pos ≤ p.src.length) : (Engine.unspecified B z n p).FlagInv B :=
  (Engine.unspecified_flagsZero B z n p).flagInv (by simp)
    ⟨Nat.mod_lt _ (Nat.two_pow_pos _), Nat.mod_lt _ (Nat.two_pow_pos _)⟩ (Nat.mod_lt _ (by decide))
    (Table.ofList_wf _) hp

theorem Engine.reset_flagInv (B : Config.Build) : Engine.reset.FlagInv B :=
  Engine.reset_flagsZero.flagInv (by simp [Engine.reset]) ⟨Nat.two_pow_pos _, Nat.two_pow_pos _⟩
    (Nat.two_pow_pos _) List.Pairwise.nil (Nat.le_refl 0)

/-- Zeroing the flags in `UNINIT` leaves the ranges as they are. -/
theorem Engine.FlagInv.zeroFlags {B : Config.Build} {g : Engine} (h : g.FlagInv B) (hst : g.st = .uninit) :
    g.zeroFlags.FlagInv B :=
  g.zeroFlags_flagsZero.flagInv (by simp [hst]) h.counters h.maxCode h.sorted h.source

/-- In `UNINIT` the encoder invariants are the flag invariants: nothing is claimed of the rest (10 R44, R49). -/
theorem Engine.FlagInv.encInv_of_uninit {B : Config.Build} {g : Engine} (h : g.FlagInv B) (hst : g.st = .uninit) :
    g.EncInv B where
  toFlagInv := h
  dict hl := by simp [Engine.live, hst] at hl
  cursor hr := by simp [hst] at hr
  buffer hu := absurd hst hu
  finished hd := by simp [hst] at hd
  noProtocol := by simp [h.err_none (by simp [hst])]

/-- In `UNINIT` the decoder invariants are the flag invariants, `EOI` included (10 R45, R49). -/
theorem Engine.FlagInv.decInv_of_uninit {B : Config.Build} {g : Engine} (h : g.FlagInv B) (hst : g.st = .uninit) :
    g.DecInv B where
  toFlagInv := h
  dict hl := by simp [Engine.live, hst] at hl
  prev hl := by simp [Engine.live, hst] at hl
  buffer hu := absurd hst hu
  ready hr := by simp [hst] at hr
  residue hd := by simp [hst] at hd
  room hl := by simp [Engine.live, hst] at hl
  eoiDone := by simp [hst, (h.uninit hst).1]

/-! ### A stream command (60 R211) -/

/-- What holds of the refusal, and of the command's work in `READY`, holds of the command. -/
theorem Engine.whenReady_induction {P : Engine → Prop} {f : Engine → Engine} (g : Engine)
    (hready : g.st = .ready → P (f g.accept)) (hother : P (g.refuse .wrongState)) : P (g.whenReady f) := by
  by_cases hr : g.st = .ready
  · rw [g.whenReady_ready f hr]; exact hready hr
  · rw [g.whenReady_other f hr]; exact hother

end Sys2Proof.Machine
end

section
/-! SUPPORT. The encoder invariants (10 R44, 41 R141) under every operation of the encoder. -/

namespace Sys2Proof.Machine

/-! ### Inside a command -/

/-- An encoder inside a command: `READY`, less than a byte of residue, and the flag invariants. The dictionary
invariants are left out, because between an insertion and its growth step item 1 of 10 R43 can fail. -/
structure Engine.EncRun (B : Config.Build) (g : Engine) : Prop extends Engine.FlagInv B g where
  ready : g.st = .ready
  residue : g.bits ≤ 7 ∧ g.buf < 2 ^ g.bits

theorem Engine.EncInv.run {B : Config.Build} {g : Engine} (h : g.EncInv B) (hr : g.st = .ready) : g.EncRun B where
  toFlagInv := h.toFlagInv
  ready := hr
  residue := h.buffer (by simp [hr])

theorem Engine.EncInv.dictInv {B : Config.Build} {g : Engine} (h : g.EncInv B) (hr : g.st = .ready) :
    g.dict.Inv B.maxw := h.dict (.inl hr)

theorem Engine.EncInv.canEmit {B : Config.Build} {g : Engine} (h : g.EncInv B) (hr : g.st = .ready) :
    g.CanEmit B := g.canEmit_of_inv B (h.dictInv hr) (h.cursor hr) (h.run hr).residue

/-- With a sound dictionary and a resident cursor the invariants hold again. -/
theorem Engine.EncRun.encInv {B : Config.Build} {g : Engine} (h : g.EncRun B) (hd : g.dict.Inv B.maxw)
    (hn : g.nodeResident) : g.EncInv B where
  toFlagInv := h.toFlagInv
  dict _ := hd
  cursor _ := hn
  buffer _ := h.residue
  finished hst := by simp [h.ready] at hst
  noProtocol := by simp [h.err_none (by simp [h.ready])]

/-- A capacity violation keeps the invariants from inside a command, whatever the dictionary (60 R216). -/
theorem Engine.EncRun.raise {B : Config.Build} {g : Engine} (h : g.EncRun B) (n : Nat) :
    (g.raise .capacityViolation n).EncInv B where
  toFlagInv := h.toFlagInv.raise n (by decide) (by decide)
  dict hl := by simp [Engine.live] at hl
  cursor hr := by simp at hr
  buffer _ := h.residue
  finished hd := by simp at hd
  noProtocol := by simp

theorem Engine.EncRun.setDict {B : Config.Build} {g : Engine} (h : g.EncRun B) {d : Dict}
    (hm : d.maxCode = g.dict.maxCode) (hw : Table.wf d.tab) : ({ g with dict := d } : Engine).EncRun B :=
  { h with toFlagInv := h.toFlagInv.setDict hm hw }

/-! ### Emission -/

/-- A push within its precondition completes inside the command and leaves dictionary and cursor alone (41 R142). -/
theorem Engine.EncRun.push {B : Config.Build} {g : Engine} (h : g.EncRun B) {v w : Nat} (h1 : 1 ≤ w) (h2 : w ≤ B.maxw)
    (hv : v < 2 ^ w) :
    ∃ g1, g.push B v w = .ok () g1 ∧ g1.EncRun B ∧ g1.dict = g.dict ∧ g1.node = g.node := by
  obtain ⟨out, -, he⟩ := g.push_ok B v w h1 h2 hv h.residue.2
  refine ⟨_, he, ?_, rfl, rfl⟩
  exact { h.toFlagInv.gained out ((g.bits + w) / 8) with
    ready := h.ready
    residue := ⟨Nat.le_of_lt_succ (Nat.mod_lt _ (by decide)), Nat.mod_lt _ (Nat.two_pow_pos _)⟩ }

theorem Engine.EncRun.emitCursor {B : Config.Build} {g : Engine} (h : g.EncRun B) (hc : g.CanEmit B) :
    ∃ g1, g.emitCursor B = .ok () g1 ∧ g1.EncRun B ∧ g1.dict = g.dict ∧ g1.node = g.node := by
  unfold Engine.emitCursor
  split
  next k hk => exact h.push hc.width.1 hc.width.2 (hc.cursor k hk)
  next => exact ⟨g, rfl, h, rfl, rfl⟩

theorem Engine.EncRun.encPending {B : Config.Build} {g : Engine} (h : g.EncRun B) (hc : g.CanEmit B) :
    ∃ g1, g.encPending B = .ok () g1 ∧ g1.EncRun B ∧ g1.dict = g.dict ∧ g1.node = none := by
  obtain ⟨g1, he, h1, hd, -⟩ := h.emitCursor hc
  exact ⟨{ g1 with node := none }, by simp only [Engine.encPending, he], { h1 with }, hd, rfl⟩

/-- The pad leaves an empty buffer (41 R144). -/
theorem Engine.EncRun.flush {B : Config.Build} {g : Engine} (h : g.EncRun B) :
    (g.flush B).EncRun B ∧ (g.flush B).bits = 0 ∧ (g.flush B).buf = 0 ∧
      (g.flush B).dict = g.dict ∧ (g.flush B).node = g.node := by
  rcases Nat.eq_zero_or_pos g.bits with h0 | hpos
  · have hb := h.residue.2
    rw [h0, Nat.pow_zero, Nat.lt_one_iff] at hb
    rw [g.flush_empty B h0]
    exact ⟨h, h0, hb, rfl, rfl⟩
  · rw [g.flush_pad B hpos]
    exact ⟨{ h.toFlagInv.gained _ 1 with ready := h.ready, residue := ⟨by simp, by simp⟩ }, rfl, rfl, rfl, rfl⟩

/-! ### ENC.BYTE (42 R157) -/

/-- The growth step after an extend of the cursor raises, or leaves a dictionary that meets its invariants. -/
theorem Engine.EncRun.growIfInserted {B : Config.Build} {g : Engine} (h : g.EncRun B) {d : Dict} {n : NodeId} {c : Byte}
    (hd : d.Inv B.maxw) (hn : n = none ∨ ∃ k, n = some k ∧ (Table.find d.tab k).isSome = true)
    (hg : g.dict = (d.extend n c).2) :
    (∃ g2, g.growIfInserted B (d.extend n c).1 = .ok () g2 ∧ g2.EncRun B ∧ g2.dict.Inv B.maxw) ∨
    (g.growIfInserted B (d.extend n c).1 = .raised (g.raise .capacityViolation g.dict.nextCode)) := by
  rcases d.extend_cases n c with ⟨_, _, he⟩ | ⟨_, _, he⟩ | ⟨-, -, he⟩
  · rw [he] at hg ⊢
    exact .inl ⟨g, rfl, h, by rw [hg]; exact hd⟩
  · rw [he] at hg ⊢
    exact .inl ⟨g, rfl, h, by rw [hg]; exact hd⟩
  · have hw : g.dict.codeWidth = d.codeWidth := by rw [hg, Dict.extend_codeWidth]
    have hnext : g.dict.nextCode = d.nextCode + 1 := by rw [hg, he]
    have hinv : ∀ w, d.codeWidth ≤ w → w ≤ B.maxw → g.dict.nextCode ≤ 2 ^ w →
        ({ g.dict with codeWidth := w } : Dict).Inv B.maxw := by
      rw [hg]; exact fun w => hd.extend_widen c hn
    have hle := hd.width.2
    have hfit := hd.next.2
    rw [show (d.extend n c).1 = .inserted d.nextCode by rw [he]]
    rcases g.grow_cases B with ⟨hsmall, hgr⟩ | ⟨-, -, hgr⟩ | ⟨hbig, hne, hgr⟩
    · exact .inl ⟨g, hgr, h, hinv g.dict.codeWidth (by omega) (by omega) hsmall⟩
    · exact .inr hgr
    · refine .inl ⟨_, hgr, h.setDict rfl h.sorted, hinv (g.dict.codeWidth + 1) (by omega) (by omega) ?_⟩
      rw [hnext, hw, Nat.pow_succ]
      have := Nat.two_pow_pos d.codeWidth
      omega

/-- The restart of the match leaves the cursor at a resident one-byte sequence (42 R157). -/
theorem Engine.EncRun.restart {B : Config.Build} {g : Engine} (h : g.EncRun B) (hd : g.dict.Inv B.maxw) (c : Byte) :
    (g.restart c).EncInv B ∧ (g.restart c).st = .ready := by
  have he : (g.restart c).dict = g.dict := by rw [Engine.restart_dict, hd.extend_root c]
  have hrun : (g.restart c).EncRun B :=
    { h.setDict (d := (g.restart c).dict) (by rw [he]) (by rw [he]; exact h.sorted) with }
  refine ⟨hrun.encInv (by rw [he]; exact hd) (.inr ⟨c.toNat, rfl, ?_⟩), h.ready⟩
  rw [he, hd.literals c]; rfl

/-- `ENC.BYTE` keeps the invariants, whether it completes or raises. -/
theorem Engine.EncInv.encByte {B : Config.Build} {g : Engine} (h : g.EncInv B) (hr : g.st = .ready) (c : Byte) :
    (g.encByte B c).EndsIn (fun _ g' => g'.EncInv B ∧ g'.st = .ready) (fun g' => g'.EncInv B) := by
  have hd := h.dictInv hr
  have hrun := h.run hr
  rcases g.encByte_cases B c with ⟨k, hk, he⟩ | ⟨-, he⟩ <;> rw [he]
  · exact ⟨Engine.EncRun.encInv { hrun with } hd (.inr ⟨k, rfl, hd.child_resident hk⟩), hr⟩
  · have h0 := hrun.setDict (g.dict.extend_maxCode g.node c) (g.dict.extend_wf g.node c hd.sorted)
    have hcan : ({ g with dict := (g.dict.extend g.node c).2 } : Engine).CanEmit B :=
      ⟨by simpa using (h.canEmit hr).width, hrun.residue, by simpa using (h.canEmit hr).cursor⟩
    obtain ⟨g1, he1, h1, hd1, -⟩ := h0.emitCursor hcan
    rcases h1.growIfInserted hd (h.cursor hr) hd1 with ⟨g2, he2, h2, hd2⟩ | he2 <;>
      simp only [Engine.emitAndRestart, he1, he2]
    · exact h2.restart hd2 c
    · exact h1.raise g1.dict.nextCode

/-! ### The commands -/

theorem Engine.EncInv.accept {B : Config.Build} {g : Engine} (h : g.EncInv B) : g.accept.EncInv B :=
  { h with toFlagInv := h.toFlagInv.accept }

theorem Engine.EncInv.refuse {B : Config.Build} {g : Engine} (h : g.EncInv B) {r : Reason} (hr : r ≠ .none) :
    (g.refuse r).EncInv B :=
  { h with toFlagInv := h.toFlagInv.refuse hr }

theorem Engine.EncInv.setResult {B : Config.Build} {g : Engine} (h : g.EncInv B) (hr : g.st = .ready) {n : Nat}
    (hn : n < 2 ^ 28) : ({ g with result := BitVec.ofNat 32 n } : Engine).EncInv B :=
  { h with toFlagInv := h.toFlagInv.setResult hr hn }

/-- A stream command keeps the invariants if what it does in `READY` keeps them. -/
theorem Engine.EncInv.whenReady {B : Config.Build} {g : Engine} (h : g.EncInv B) {f : Engine → Engine}
    (hf : ∀ g : Engine, g.EncInv B → g.st = .ready → (f g).EncInv B) : (g.whenReady f).EncInv B :=
  g.whenReady_induction (hf _ h.accept) (h.refuse (by decide))

theorem Engine.EncInv.initCmd {B : Config.Build} {g : Engine} (h : g.EncInv B) (hB : 9 ≤ B.maxw) {m : Nat}
    (hm : m < 2 ^ 28) : (g.initCmd m).EncInv B := by
  by_cases hbad : badMaxCode m
  · rw [g.initCmd_bad m hbad]; exact h.refuse (by decide)
  · rw [g.initCmd_good m hbad]
    have hrun : (g.fresh m).EncRun B := { h.toFlagInv.fresh hm with ready := rfl, residue := ⟨by simp, by simp⟩ }
    exact hrun.encInv (Dict.init_inv _ _ hB (by show m = 0 ∨ 257 ≤ m; omega)) (.inl rfl)

theorem Engine.EncInv.encLoop {B : Config.Build} (left count : Nat) {g : Engine} (h : g.EncInv B) (hr : g.st = .ready)
    (hc : count + left < 2 ^ 28) : (g.encLoop B left count).EncInv B := by
  induction left generalizing count g with
  | zero => exact h
  | succ left ih =>
    rcases g.encLoop_succ B left count with ⟨-, he⟩ | ⟨-, -, he⟩ | ⟨-, hlt, hbyte⟩
    · rw [he]; exact h
    · rw [he]
      exact { h with uninit := fun hu => absurd (hr.symm.trans hu) (by decide) }
    · have h1 : ({ g with port := g.port.advanced 1, bytesRead := countUp B g.bytesRead } : Engine).EncInv B :=
        { h with toFlagInv := h.toFlagInv.advanced (m := 1) hlt }
      have hb := h1.encByte hr g.port.src[g.port.pos]
      rcases hbyte with ⟨g2, he2, he⟩ | ⟨g2, he2, he⟩ <;> rw [he2] at hb <;> rw [he]
      · exact hb
      · obtain ⟨h2, hr2⟩ := hb
        exact ih (count + 1) (h2.setResult hr2 (by omega)) hr2 (by omega)

theorem Engine.EncInv.encChunk {B : Config.Build} {g : Engine} (h : g.EncInv B) (hr : g.st = .ready) {n : Nat}
    (hn : n < 2 ^ 28) : (g.encChunk B n).EncInv B :=
  Engine.EncInv.encLoop n 0 (h.setResult hr (n := 0) (by decide)) hr (by omega)

theorem Engine.EncInv.encEnd {B : Config.Build} {g : Engine} (h : g.EncInv B) (hr : g.st = .ready) :
    (g.encEnd B).EncInv B := by
  obtain ⟨g1, he, h1, hd, hn⟩ := (h.run hr).encPending (h.canEmit hr)
  obtain ⟨h2, hbits, hbuf, hd2, hn2⟩ := h1.flush
  have herr := h2.err_none (by simp [h2.ready])
  have hend : g.encEnd B = { g1.flush B with st := .done } := by simp only [Engine.encEnd, he]
  rw [hend]
  exact { h2 with
    errState := by simp [herr]
    uninit := by simp
    dict := fun _ => by show (g1.flush B).dict.Inv B.maxw; rw [hd2, hd]; exact h.dictInv hr
    cursor := by simp
    buffer := fun _ => h2.residue
    finished := fun _ => ⟨hn2.trans hn, hbits, hbuf⟩
    noProtocol := by simp [herr] }

theorem Engine.EncInv.encClear {B : Config.Build} {g : Engine} (h : g.EncInv B) (hr : g.st = .ready) :
    (g.encClear B).EncInv B := by
  have hd := h.dictInv hr
  by_cases heoi : g.eoi = true
  · simp only [Engine.encClear, if_pos heoi]; exact h
  · obtain ⟨g1, he1, h1, hd1, -⟩ := (h.run hr).encPending (h.canEmit hr)
    have h256 : clearCode < 2 ^ g1.dict.codeWidth := by
      rw [hd1]
      exact Nat.lt_of_lt_of_le (by decide) (Nat.pow_le_pow_right (by decide) hd.width.1)
    obtain ⟨g2, he2, h2, hd2, -⟩ := h1.push (by rw [hd1]; exact Nat.le_trans (by decide) hd.width.1)
      (by rw [hd1]; exact hd.width.2) h256
    obtain ⟨h3, -, -, hd3, -⟩ := h2.flush
    have hclear : g.encClear B = { g2.flush B with dict := (g2.flush B).dict.reset, node := none } := by
      simp only [Engine.encClear, if_neg heoi, he1, he2]
    rw [hclear]
    have hrun : ({ g2.flush B with dict := (g2.flush B).dict.reset, node := none } : Engine).EncRun B :=
      { h3.setDict (d := (g2.flush B).dict.reset) rfl literalTable_wf with }
    refine hrun.encInv (Dict.init_inv _ _ (hd.width.1.trans hd.width.2) ?_) (.inl rfl)
    rw [hd3, hd2, hd1]
    exact hd.cap

end Sys2Proof.Machine
end

section
/-! SUPPORT. The decoder invariants (10 R45, 41 R148) under every operation of the decoder. -/

namespace Sys2Proof.Machine

/-! ### Inside a command -/

/-- A decoder inside a command: `READY`, no `EOI`, less than a byte of residue, and the flag invariants. The
dictionary's invariants are left out, because between an insertion and its growth step `room` can fail. -/
structure Engine.DecRun (B : Config.Build) (g : Engine) : Prop extends Engine.FlagInv B g where
  ready : g.st = .ready
  noEoi : g.eoi = false
  residue : g.bits ≤ 7 ∧ g.buf < 2 ^ g.bits

theorem Engine.DecInv.run {B : Config.Build} {g : Engine} (h : g.DecInv B) (hr : g.st = .ready) : g.DecRun B where
  toFlagInv := h.toFlagInv
  ready := hr
  noEoi := by
    rw [← Bool.not_eq_true, h.eoiDone, hr]; decide
  residue := ⟨h.ready hr, h.buffer (by simp [hr])⟩

/-- With a sound dictionary that has room for the next code, and a resident previous code, the invariants hold again. -/
theorem Engine.DecRun.decInv {B : Config.Build} {g : Engine} (h : g.DecRun B) (hd : g.dict.Inv B.maxw)
    (hn : g.nodeResident) (hroom : g.dict.full = false → g.dict.nextCode < 2 ^ g.dict.codeWidth) : g.DecInv B where
  toFlagInv := h.toFlagInv
  dict _ := hd
  prev _ := hn
  buffer _ := h.residue.2
  ready _ := h.residue.1
  residue hst := by simp [h.ready] at hst
  room _ := hroom
  eoiDone := by simp [h.noEoi, h.ready]

/-- An error keeps the invariants from inside a command, whatever the dictionary (60 R216). -/
theorem Engine.DecRun.raise {B : Config.Build} {g : Engine} (h : g.DecRun B) {x : ErrKind} (n : Nat)
    (hx : x ≠ .none) (hres : x ≠ .resourceError) : (g.raise x n).DecInv B where
  toFlagInv := h.toFlagInv.raise n hx hres
  dict hl := by simp [Engine.live] at hl
  prev hl := by simp [Engine.live] at hl
  buffer _ := h.residue.2
  ready hr := by simp at hr
  residue hd := by simp at hd
  room hl := by simp [Engine.live] at hl
  eoiDone := by simp [h.noEoi]

theorem Engine.DecRun.setDict {B : Config.Build} {g : Engine} (h : g.DecRun B) {d : Dict}
    (hm : d.maxCode = g.dict.maxCode) (hw : Table.wf d.tab) : ({ g with dict := d } : Engine).DecRun B :=
  { h with toFlagInv := h.toFlagInv.setDict hm hw }

/-! ### BR.PULL (41 R146, R148) -/

/-- The refill loop takes no byte more than it needs. -/
theorem Engine.refill_bits_lt (B : Config.Build) (w n : Nat) (g : Engine) (h : g.bits < w + 8) :
    (g.refill B w n).bits < w + 8 := by
  induction n generalizing g with
  | zero => exact h
  | succ n ih =>
    rw [Engine.refill]
    by_cases hw : g.bits < w
    · rw [if_pos hw]
      rcases g.takeByte_cases B with ⟨-, ht⟩ | ⟨_, ht⟩ <;> rw [ht]
      · exact h
      · exact ih _ (by show g.bits + 8 < w + 8; omega)
    · rw [if_neg hw]; exact h

/-- A pull that returns a value leaves less than a byte of residue (41 R148). -/
theorem Engine.pull_residue {B : Config.Build} {w v : Nat} {g g' : Engine} (h : g.bits ≤ 7)
    (hp : g.pull B w = (some v, g')) : g'.bits ≤ 7 := by
  have hb := g.refill_bits_lt B w w (by omega)
  simp only [Engine.pull] at hp
  split at hp <;> cases hp
  show (g.refill B w w).bits - w ≤ 7
  omega

/-- A pull at `code_width` returns a value and keeps the invariants, or finds the end of the stream, which may then
be latched (41 R146, R147; 43 R188). -/
theorem Engine.DecInv.pull {B : Config.Build} {g : Engine} (h : g.DecInv B) (hr : g.st = .ready) :
    (∃ v g', g.pull B g.dict.codeWidth = (some v, g') ∧ g'.DecInv B ∧ g'.st = .ready) ∨
    (∃ g', g.pull B g.dict.codeWidth = (none, g') ∧ ({ g'.latchEoi with st := .done } : Engine).DecInv B) := by
  have hrun := h.run hr
  have herr := h.err_none (by simp [hr])
  obtain ⟨m, v, hv, hpos, ⟨hshort, -, he⟩ | ⟨-, he⟩⟩ := g.pull_cases B g.dict.codeWidth h.source
  · refine .inr ⟨_, he, ?_⟩
    have hbuf : g.buf * 256 ^ m + v < 2 ^ (g.bits + 8 * m) := by
      rw [Nat.pow_add, Nat.pow_mul, show 2 ^ 8 = 256 from rfl]
      calc g.buf * 256 ^ m + v < g.buf * 256 ^ m + 256 ^ m := by omega
        _ = (g.buf + 1) * 256 ^ m := by rw [Nat.add_mul, Nat.one_mul]
        _ ≤ 2 ^ g.bits * 256 ^ m := Nat.mul_le_mul_right _ hrun.residue.2
    exact { h.toFlagInv.advanced hpos with
      errState := by simp [herr]
      uninit := by simp
      dict := fun _ => h.dict (.inl hr)
      prev := fun _ => h.prev (.inl hr)
      buffer := fun _ => hbuf
      ready := by simp
      residue := fun _ => hshort
      room := fun _ => h.room (.inl hr)
      eoiDone := by simp }
  · refine .inl ⟨_, _, he, Engine.DecRun.decInv ?_ (h.dict (.inl hr)) (h.prev (.inl hr)) (h.room (.inl hr)), hr⟩
    exact { h.toFlagInv.advanced hpos with
      ready := hr
      noEoi := hrun.noEoi
      residue := ⟨Engine.pull_residue hrun.residue.1 he, Nat.mod_lt _ (Nat.two_pow_pos _)⟩ }

/-! ### The code-word classes (43 R177 to R185) -/

/-- The dictionary of an extend of a resident code that had room for the next code still meets its invariants:
`next_code` may have reached `2^code_width`, not passed it. -/
theorem Dict.Inv.extend_of_room {maxw : Nat} {d : Dict} (h : d.Inv maxw) {n : NodeId} (b : Byte)
    (hn : n = none ∨ ∃ k, n = some k ∧ (Table.find d.tab k).isSome = true)
    (hroom : d.full = false → d.nextCode < 2 ^ d.codeWidth) : (d.extend n b).2.Inv maxw := by
  have hnext : (d.extend n b).2.nextCode ≤ 2 ^ d.codeWidth := by
    rcases d.extend_cases n b with ⟨_, _, he⟩ | ⟨_, _, he⟩ | ⟨_, hf, he⟩ <;> rw [he]
    · exact h.next.2
    · exact h.next.2
    · exact hroom hf
  have hinv := h.extend_widen b hn (Nat.le_refl _) h.width.2 hnext
  rwa [← Dict.extend_codeWidth d n b] at hinv

/-- `DEC.GROW` makes room for the next code again, or raises (43 R182). -/
theorem Engine.DecRun.decGrow {B : Config.Build} {g : Engine} (h : g.DecRun B) (hd : g.dict.Inv B.maxw)
    (hn : g.nodeResident) :
    (g.decGrow B).EndsIn (fun _ g' => g'.DecInv B ∧ g'.st = .ready) (fun g' => g'.DecInv B) := by
  rcases g.decGrow_cases B with ⟨hroom, he⟩ | ⟨-, -, he⟩ | ⟨-, hne, he⟩ <;> rw [he]
  · exact ⟨h.decInv hd hn fun hf => by simpa [hf] using hroom, h.ready⟩
  · exact h.raise _ (by decide) (by decide)
  · have hle := hd.width.2
    have hrun := h.setDict (d := { g.dict with codeWidth := g.dict.codeWidth + 1 }) rfl h.sorted
    refine ⟨hrun.decInv (hd.widen (Nat.le_succ g.dict.codeWidth) (by omega)) hn fun _ => ?_, h.ready⟩
    exact Nat.lt_of_le_of_lt hd.next.2 (Nat.pow_lt_pow_right (by decide) (Nat.lt_succ_self _))

/-- A code word keeps the decoder invariants: it completes in `READY`, or raises. -/
def Res.KeepsDecInv (B : Config.Build) (r : Res StepResult) : Prop :=
  r.EndsIn (fun a g => a ≠ .endOfStream ∧ g.DecInv B ∧ g.st = .ready) (fun g => g.DecInv B)

theorem Engine.DecInv.emitAll {B : Config.Build} {g : Engine} (h : g.DecInv B) (s : List Byte) :
    (g.emitAll B s).DecInv B := by
  rw [Engine.emitAll_eq]
  exact { h with toFlagInv := h.toFlagInv.gained s s.length }

theorem Engine.mirror_grows (b : Byte) (g : Engine) : g.dict.Grows (g.mirror b).dict := by
  unfold Engine.mirror
  split
  · exact .refl _
  · exact g.dict.grows_extend _ b

theorem Engine.DecInv.mirror {B : Config.Build} {g : Engine} (h : g.DecInv B) (hr : g.st = .ready) (b : Byte) :
    (g.mirror b).DecRun B ∧ (g.mirror b).dict.Inv B.maxw := by
  have hd := h.dict (.inl hr)
  unfold Engine.mirror
  split
  next => exact ⟨h.run hr, hd⟩
  next p hp =>
    exact ⟨(h.run hr).setDict (g.dict.extend_maxCode _ b) (g.dict.extend_wf _ b hd.sorted),
      hd.extend_of_room b (hp ▸ h.prev (.inl hr)) (h.room (.inl hr))⟩

/-- A data code `v`: bytes written, the mirrored insertion, `prev_code <- v` and `DEC.GROW` keep the invariants, if
`v` is resident once the insertion is made. -/
theorem Engine.DecInv.dataCode {B : Config.Build} {g : Engine} (h : g.DecInv B) (hr : g.st = .ready) (s : List Byte)
    (b : Byte) {v : Nat} (hv : (Table.find (g.mirror b).dict.tab v).isSome = true) :
    (((g.emitAll B s).mirror b).finishCode B v).KeepsDecInv B := by
  have hdict : ((g.emitAll B s).mirror b).dict = (g.mirror b).dict := by simp only [Engine.mirror_eq, Engine.emitAll_eq]
  obtain ⟨hm, hdm⟩ := (h.emitAll s).mirror (by rw [Engine.emitAll_eq]; exact hr) b
  have hrun : ({ (g.emitAll B s).mirror b with node := some v } : Engine).DecRun B := { hm with }
  have hg := hrun.decGrow hdm (.inr ⟨v, rfl, by rwa [hdict]⟩)
  unfold Engine.finishCode
  split <;> rename_i he <;> rw [he] at hg
  · exact ⟨by decide, hg⟩
  · exact hg

/-- Classes LITERAL and STRING: a code below `next_code` other than 256 is resident. -/
theorem Engine.DecInv.lookupCode {B : Config.Build} {g : Engine} (h : g.DecInv B) (hr : g.st = .ready) {v : Nat}
    (hv : v < g.dict.nextCode) (h256 : v ≠ 256) : (g.lookupCode B v).KeepsDecInv B := by
  have hd := h.dict (.inl hr)
  exact h.dataCode hr _ _ ((Engine.mirror_grows _ g).resident hd.bounded ((hd.domain v).2 ⟨hv, h256⟩))

/-- Class KWKWK: its side conditions make the mirrored insertion give the code itself an entry (43 R181). -/
theorem Engine.DecInv.kwkwkCode {B : Config.Build} {g : Engine} (h : g.DecInv B) (hr : g.st = .ready)
    (hk : g.kwkwkAllowed = true) : (g.kwkwkCode B g.dict.nextCode).KeepsDecInv B := by
  obtain ⟨hnode, hfull, hchild⟩ := g.kwkwkAllowed_iff.1 hk
  obtain ⟨p, hp⟩ := Option.ne_none_iff_exists'.1 hnode
  refine h.dataCode hr _ _ ?_
  rw [hp] at hchild
  rcases g.dict.extend_cases (some p) g.firstPrev with ⟨_, hc, -⟩ | ⟨-, hc, -⟩ | ⟨-, -, he⟩
  · simp [Engine.firstPrev, hp, hchild] at hc
  · simp [hfull] at hc
  · simp [Engine.mirror_eq, hp, he]

theorem Engine.DecInv.decClear {B : Config.Build} {g : Engine} (h : g.DecInv B) (hr : g.st = .ready) :
    g.decClear.DecInv B ∧ g.decClear.st = .ready := by
  have hd := h.dict (.inl hr)
  have hrun : g.decClear.DecRun B :=
    { (h.run hr).setDict (d := g.dict.reset) rfl literalTable_wf with residue := ⟨by simp, by simp⟩ }
  exact ⟨hrun.decInv (Dict.init_inv _ _ (hd.width.1.trans hd.width.2) hd.cap) (.inl rfl)
    fun _ => by show firstFree < 2 ^ initWidth; decide, hr⟩

/-- The decoder's step on a value keeps the invariants, whatever the value's class. -/
theorem Engine.DecInv.codeWord {B : Config.Build} {g : Engine} (h : g.DecInv B) (hr : g.st = .ready) (v : Nat) :
    (g.codeWord B v).KeepsDecInv B := by
  rcases classify_cases g.dict.nextCode g.kwkwkAllowed v with
    ⟨-, hc⟩ | ⟨h256, hlt, -, hc⟩ | ⟨h256, hlt, -, hc⟩ | ⟨-, rfl, hk, hc⟩ | ⟨-, -, -, hc⟩ <;>
    simp only [Engine.codeWord, Engine.classOf, hc]
  · exact ⟨by decide, h.decClear hr⟩
  · exact h.lookupCode hr hlt h256
  · exact h.lookupCode hr hlt h256
  · exact h.kwkwkCode hr hk
  · exact (h.run hr).raise v (by decide) (by decide)

/-- `DEC.STEP` keeps the invariants, and at the end of the stream `EOI` and `DONE` may be set (43 R177, R188). -/
theorem Engine.DecInv.decStep {B : Config.Build} {g : Engine} (h : g.DecInv B) (hr : g.st = .ready) :
    (g.decStep B).EndsIn
      (fun r g' => if r = .endOfStream then ({ g'.latchEoi with st := .done } : Engine).DecInv B
        else g'.DecInv B ∧ g'.st = .ready)
      (fun g' => g'.DecInv B) := by
  rcases h.pull hr with ⟨v, g1, he, h1, hr1⟩ | ⟨g1, he, h1⟩ <;> simp only [Engine.decStep, he]
  · have hc := h1.codeWord hr1 v
    cases hw : g1.codeWord B v <;> rw [hw] at hc
    · obtain ⟨hne, hg⟩ := hc
      simpa only [Res.EndsIn, if_neg hne] using hg
    · exact hc
  · simpa only [Res.EndsIn, if_true] using h1

/-! ### The commands -/

theorem Engine.DecInv.accept {B : Config.Build} {g : Engine} (h : g.DecInv B) : g.accept.DecInv B :=
  { h with toFlagInv := h.toFlagInv.accept }

theorem Engine.DecInv.refuse {B : Config.Build} {g : Engine} (h : g.DecInv B) {r : Reason} (hr : r ≠ .none) :
    (g.refuse r).DecInv B :=
  { h with toFlagInv := h.toFlagInv.refuse hr }

theorem Engine.DecInv.setResult {B : Config.Build} {g : Engine} (h : g.DecInv B) (hr : g.st = .ready) {n : Nat}
    (hn : n < 2 ^ 28) : ({ g with result := BitVec.ofNat 32 n } : Engine).DecInv B :=
  { h with toFlagInv := h.toFlagInv.setResult hr hn }

/-- A stream command keeps the invariants if what it does in `READY` keeps them. -/
theorem Engine.DecInv.whenReady {B : Config.Build} {g : Engine} (h : g.DecInv B) {f : Engine → Engine}
    (hf : ∀ g : Engine, g.DecInv B → g.st = .ready → (f g).DecInv B) : (g.whenReady f).DecInv B :=
  g.whenReady_induction (hf _ h.accept) (h.refuse (by decide))

theorem Engine.DecInv.initCmd {B : Config.Build} {g : Engine} (h : g.DecInv B) (hB : 9 ≤ B.maxw) {m : Nat}
    (hm : m < 2 ^ 28) : (g.initCmd m).DecInv B := by
  by_cases hbad : badMaxCode m
  · rw [g.initCmd_bad m hbad]; exact h.refuse (by decide)
  · rw [g.initCmd_good m hbad]
    have hrun : (g.fresh m).DecRun B :=
      { h.toFlagInv.fresh hm with ready := rfl, noEoi := rfl, residue := ⟨by simp, by simp⟩ }
    exact hrun.decInv (Dict.init_inv _ _ hB (by show m = 0 ∨ 257 ≤ m; omega)) (.inl rfl)
      fun _ => by show firstFree < 2 ^ initWidth; decide

theorem Engine.DecInv.decLoop {B : Config.Build} (left count : Nat) {g : Engine} (h : g.DecInv B)
    (hc : count + left < 2 ^ 28) : (g.decLoop B left count).DecInv B := by
  induction left generalizing count g with
  | zero => exact h
  | succ left ih =>
    rcases g.decLoop_succ B left count with
      ⟨-, he⟩ | ⟨hr, g2, hs, he⟩ | ⟨hr, g2, hs, he⟩ | ⟨hr, r, g2, hne, hs, he⟩
    · rw [he]; exact h
    · have hstep := h.decStep hr
      rw [hs] at hstep; rw [he]; exact hstep
    · have hstep := h.decStep hr
      rw [hs] at hstep; rw [he]; exact hstep
    · have hstep := h.decStep hr
      rw [hs] at hstep; rw [he]
      simp only [Res.EndsIn, if_neg hne] at hstep
      exact ih (count + 1) (hstep.1.setResult hstep.2 (by omega)) (by omega)

theorem Engine.DecInv.decChunk {B : Config.Build} {g : Engine} (h : g.DecInv B) (hr : g.st = .ready) {n : Nat}
    (hn : n < 2 ^ 28) : (g.decChunk B n).DecInv B :=
  Engine.DecInv.decLoop n 0 (h.setResult hr (n := 0) (by decide)) (by omega)

end Sys2Proof.Machine
end

section
/-! SUPPORT. The invariant of the block under the commands, the reset event and the step; O56 and O57. -/

namespace Sys2Proof.Machine

/-! ### The two engines in the state -/

theorem State.Inv.onEng_enc {s : State} (h : s.Inv) {f : Engine → Engine} (hf : (f s.enc).EncInv s.build) :
    (s.onEng .enc f).Inv := ⟨h.legal, hf, h.dec⟩

theorem State.Inv.onEng_dec {s : State} (h : s.Inv) {f : Engine → Engine} (hf : (f s.dec).DecInv s.build) :
    (s.onEng .dec f).Inv := ⟨h.legal, h.enc, hf⟩

/-- A destroyed engine meets its invariants, whatever the free values are (10 R52). -/
theorem State.Inv.destroy {s : State} (h : s.Inv) (z : EngineId) : (s.destroy z).Inv := by
  have hflag := Engine.unspecified_flagInv s.build z s.free (s.eng z).port
  cases z
  · exact ⟨h.legal, (hflag h.enc.source).encInv_of_uninit rfl, h.dec⟩
  · exact ⟨h.legal, h.enc, (hflag h.dec.source).decInv_of_uninit rfl⟩

theorem State.Inv.refuseOpcode {s : State} (h : s.Inv) (z : EngineId) : (s.refuseOpcode z).Inv := by
  cases z
  · exact h.onEng_enc (h.enc.refuse (by decide))
  · exact h.onEng_dec (h.dec.refuse (by decide))

/-- What `ENC_DESTROY` does in `UNINIT` (42 R164). -/
theorem State.Inv.zeroFlags {s : State} (h : s.Inv) (hst : s.enc.st = .uninit) :
    (s.onEng .enc Engine.zeroFlags).Inv :=
  h.onEng_enc ((h.enc.toFlagInv.zeroFlags hst).encInv_of_uninit hst)

/-! ### Hardware reset -/

theorem State.reset_inv : State.reset.Inv where
  legal := by show Config.defaultBuild.Legal; decide
  enc := (Engine.reset_flagInv _).encInv_of_uninit rfl
  dec := (Engine.reset_flagInv _).decInv_of_uninit rfl

theorem State.Inv.hwReset {s : State} (h : s.Inv) : s.hwReset.Inv := (h.destroy .enc).destroy .dec

/-- The width schedule claims nothing in `UNINIT`. -/
theorem State.widthInv_of_uninit {s : State} (he : s.enc.st = .uninit) (hd : s.dec.st = .uninit) : s.WidthInv :=
  ⟨fun hl => by simp [Engine.live, he] at hl, fun hl => by simp [Engine.live, hd] at hl⟩

/-- Settles O56: in `UNINIT` the invariants ask for the stated reset values and the registers' ranges only. -/
theorem resetMeetsTheInvariants : Obligations.ResetMeetsTheInvariants :=
  ⟨State.reset_inv, State.widthInv_of_uninit rfl rfl,
    fun _ h => ⟨h.hwReset, State.widthInv_of_uninit rfl rfl⟩⟩

/-! ### The step -/

theorem execEncDestroy_inv {s : State} (h : s.Inv) (a : BitVec 28) : ∃ t, execEncDestroy a s = .next t ∧ t.Inv := by
  unfold execEncDestroy
  split
  next hst => exact ⟨_, rfl, h.zeroFlags hst⟩
  next => exact ⟨_, rfl, h.destroy .enc⟩

/-- Every command keeps the invariant of the block (60 R205). -/
theorem exec_command_inv {s : State} (h : s.Inv) {i : Instr} (hi : i.format = .cmd) :
    ∃ t, exec i s = .next t ∧ t.Inv := by
  have hB := h.legal.1
  cases i with
  | encInit m => exact ⟨_, rfl, h.onEng_enc (h.enc.initCmd hB m.isLt)⟩
  | encChunk n => exact ⟨_, rfl, h.onEng_enc (h.enc.whenReady fun _ hg hr => hg.encChunk hr n.isLt)⟩
  | encEnd _ => exact ⟨_, rfl, h.onEng_enc (h.enc.whenReady fun _ hg hr => hg.encEnd hr)⟩
  | encClear _ => exact ⟨_, rfl, h.onEng_enc (h.enc.whenReady fun _ hg hr => hg.encClear hr)⟩
  | encDestroy a => exact execEncDestroy_inv h a
  | decInit m => exact ⟨_, rfl, h.onEng_dec (h.dec.initCmd hB m.isLt)⟩
  | decChunk n => exact ⟨_, rfl, h.onEng_dec (h.dec.whenReady fun _ hg hr => hg.decChunk hr n.isLt)⟩
  | decDestroy _ => exact ⟨_, rfl, h.destroy .dec⟩
  | reserved0 _ | reserved6 _ | reserved7 _ => exact ⟨_, rfl, h.refuseOpcode .enc⟩
  | reserved8 _ | reservedB _ | reservedC _ | reservedE _ | reservedF _ => exact ⟨_, rfl, h.refuseOpcode .dec⟩
  | _ => cases hi

/-- A command word selects a row of format CMD (30 R100, R102). -/
theorem decode_format (w : Word) : (decode w).format = .cmd := by
  unfold decode
  split <;> rfl

/-- Settles O57: the step runs one command, and each engine's operations keep its invariants. -/
theorem stepKeepsTheInvariant : Obligations.StepKeepsTheInvariant := by
  intro s h
  rcases hc : s.cmds with _ | ⟨w, ws⟩
  · exact ⟨s, by simp only [step, s.takeCommand_nil hc], h⟩
  · simp only [step, s.takeCommand_cons w ws hc]
    exact exec_command_inv (s := { s with cmds := ws }) ⟨h.legal, h.enc, h.dec⟩ (decode_format w)

end Sys2Proof.Machine
end

section
/-! SUPPORT. What the operations of the two engines do to the dictionary: outside a reset it only grows, and `max_code` is written by INIT and DESTROY alone; O52 and O9. -/

namespace Sys2Proof.Machine

/-! ### The Bit Stream Codec leaves the dictionary alone -/

@[simp] theorem Engine.drain_dict (B : Config.Build) (n : Nat) (g : Engine) : (g.drain B n).dict = g.dict := by
  induction n generalizing g with
  | zero => rfl
  | succ n ih =>
    rw [Engine.drain]
    split
    · exact ih { g.emit B (topByte g.buf g.bits) with bits := g.bits - 8, buf := g.buf % 2 ^ (g.bits - 8) }
    · rfl

@[simp] theorem Engine.push_dict (B : Config.Build) (g : Engine) (v w : Nat) :
    (g.push B v w).engine.dict = g.dict := by
  unfold Engine.push
  split
  · rfl
  · exact (g.append v w).drain_dict B _

@[simp] theorem Engine.flush_dict (B : Config.Build) (g : Engine) : (g.flush B).dict = g.dict := by
  rcases Nat.eq_zero_or_pos g.bits with h | h
  · rw [g.flush_empty B h]
  · rw [g.flush_pad B h]

@[simp] theorem Engine.refill_dict (B : Config.Build) (w n : Nat) (g : Engine) :
    (g.refill B w n).dict = g.dict := by
  induction n generalizing g with
  | zero => rfl
  | succ n ih =>
    rw [Engine.refill]
    by_cases hw : g.bits < w
    · rw [if_pos hw]
      rcases g.takeByte_cases B with ⟨-, ht⟩ | ⟨_, ht⟩ <;> rw [ht]
      exact ih _
    · rw [if_neg hw]

@[simp] theorem Engine.pull_dict (B : Config.Build) (w : Nat) (g : Engine) : (g.pull B w).2.dict = g.dict := by
  unfold Engine.pull
  dsimp only
  split <;> exact g.refill_dict B w w

/-! ### The Encoder -/

theorem Engine.grow_grows (B : Config.Build) (g : Engine) : g.dict.Grows (g.grow B).engine.dict := by
  rcases g.grow_cases B with ⟨-, h⟩ | ⟨-, -, h⟩ | ⟨-, -, h⟩ <;> rw [h]
  · exact .refl _
  · exact .refl _
  · exact g.dict.grows_widen (Nat.le_succ _)

theorem Engine.growIfInserted_grows (B : Config.Build) (r : ExtendResult) (g : Engine) :
    g.dict.Grows (g.growIfInserted B r).engine.dict := by
  cases r with
  | inserted k => exact g.grow_grows B
  | matched n => exact .refl _
  | full => exact .refl _

@[simp] theorem Engine.emitCursor_dict (B : Config.Build) (g : Engine) :
    (g.emitCursor B).engine.dict = g.dict := by
  unfold Engine.emitCursor
  split
  · exact g.push_dict B _ _
  · rfl

theorem Engine.emitAndRestart_grows (B : Config.Build) (r : ExtendResult) (c : Byte) (g : Engine) :
    g.dict.Grows (g.emitAndRestart B r c).engine.dict := by
  have he := g.emitCursor_dict B
  unfold Engine.emitAndRestart
  split <;> rename_i g1 h1 <;> rw [h1] at he
  · exact .of_eq he
  · have hg := (Dict.Grows.of_eq he).trans (g1.growIfInserted_grows B r)
    split <;> rename_i g2 h2 <;> rw [h2] at hg
    · exact hg
    · exact hg.trans (g2.dict.grows_extend none c)

theorem Engine.encByte_grows (B : Config.Build) (c : Byte) (g : Engine) :
    g.dict.Grows (g.encByte B c).engine.dict := by
  rcases g.encByte_cases B c with ⟨k, -, h⟩ | ⟨-, h⟩ <;> rw [h]
  · exact .refl _
  · exact (g.dict.grows_extend g.node c).trans (Engine.emitAndRestart_grows B _ c { g with dict := _ })

@[simp] theorem Engine.encPending_dict (B : Config.Build) (g : Engine) :
    (g.encPending B).engine.dict = g.dict := by
  have he := g.emitCursor_dict B
  unfold Engine.encPending
  split <;> rename_i h <;> rw [h] at he <;> exact he

theorem Engine.encLoop_grows (B : Config.Build) (left count : Nat) (g : Engine) :
    g.dict.Grows (g.encLoop B left count).dict := by
  induction left generalizing count g with
  | zero => exact .refl _
  | succ left ih =>
    rcases g.encLoop_succ B left count with ⟨-, h⟩ | ⟨-, -, h⟩ | ⟨-, hlt, hbyte⟩
    · rw [h]; exact .refl _
    · rw [h]; exact .refl _
    · have hb := Engine.encByte_grows B g.port.src[g.port.pos]
        { g with port := g.port.advanced 1, bytesRead := countUp B g.bytesRead }
      rcases hbyte with ⟨g2, he, h⟩ | ⟨g2, he, h⟩ <;> rw [he] at hb <;> rw [h]
      · exact hb
      · exact hb.trans (ih (count + 1) { g2 with result := BitVec.ofNat 32 (count + 1) })

@[simp] theorem Engine.encEnd_dict (B : Config.Build) (g : Engine) : (g.encEnd B).dict = g.dict := by
  have hp := g.encPending_dict B
  unfold Engine.encEnd
  split <;> rename_i g1 h1 <;> rw [h1] at hp
  · exact hp
  · exact (g1.flush_dict B).trans hp

/-- `ENC_CLEAR` resets the dictionary and keeps `max_code` (10 R51). -/
theorem Engine.encClear_maxCode (B : Config.Build) (g : Engine) :
    (g.encClear B).dict.maxCode = g.dict.maxCode := by
  have hp := g.encPending_dict B
  unfold Engine.encClear
  split
  · rfl
  · split <;> rename_i g1 h1 <;> rw [h1] at hp
    · exact congrArg Dict.maxCode hp
    · have hc := (g1.push_dict B clearCode g1.dict.codeWidth).trans hp
      split <;> rename_i g2 h2 <;> rw [h2] at hc
      · exact congrArg Dict.maxCode hc
      · show (g2.flush B).dict.maxCode = g.dict.maxCode
        exact congrArg Dict.maxCode ((g2.flush_dict B).trans hc)

/-! ### The Decoder -/

theorem Engine.decGrow_grows (B : Config.Build) (g : Engine) : g.dict.Grows (g.decGrow B).engine.dict := by
  rcases g.decGrow_cases B with ⟨-, h⟩ | ⟨-, -, h⟩ | ⟨-, -, h⟩ <;> rw [h]
  · exact .refl _
  · exact .refl _
  · exact g.dict.grows_widen (Nat.le_succ _)

theorem Engine.finishCode_grows (B : Config.Build) (v : Nat) (g : Engine) :
    g.dict.Grows (g.finishCode B v).engine.dict := by
  have hg := Engine.decGrow_grows B { g with node := some v }
  unfold Engine.finishCode
  split <;> rename_i h <;> rw [h] at hg <;> exact hg

@[simp] theorem Engine.emitAll_dict (B : Config.Build) (g : Engine) (s : List Byte) :
    (g.emitAll B s).dict = g.dict := by rw [Engine.emitAll_eq]

/-- The end of every data code: bytes written, the mirrored insertion, `DEC.GROW`. -/
theorem Engine.emitAll_mirror_finishCode_grows (B : Config.Build) (v : Nat) (b : Byte) (s : List Byte) (g : Engine) :
    g.dict.Grows (((g.emitAll B s).mirror b).finishCode B v).engine.dict :=
  ((Dict.Grows.of_eq (g.emitAll_dict B s)).trans (Engine.mirror_grows b _)).trans (Engine.finishCode_grows B v _)

theorem Engine.lookupCode_grows (B : Config.Build) (v : Nat) (g : Engine) :
    g.dict.Grows (g.lookupCode B v).engine.dict := g.emitAll_mirror_finishCode_grows B v _ _

theorem Engine.kwkwkCode_grows (B : Config.Build) (v : Nat) (g : Engine) :
    g.dict.Grows (g.kwkwkCode B v).engine.dict := g.emitAll_mirror_finishCode_grows B v _ _

/-- Every code word but the clear code, an invalid one too (43 R177, R186). -/
theorem Engine.codeWord_grows (B : Config.Build) {v : Nat} (g : Engine) (hv : g.classOf v ≠ .clear) :
    g.dict.Grows (g.codeWord B v).engine.dict := by
  rcases g.codeWord_cases B v with ⟨hc, -⟩ | ⟨-, h⟩ | ⟨-, h⟩ | ⟨-, h⟩ | ⟨-, h⟩
  · exact absurd hc hv
  · rw [h]; exact g.lookupCode_grows B v
  · rw [h]; exact g.lookupCode_grows B v
  · rw [h]; exact g.kwkwkCode_grows B v
  · rw [h]; exact .refl _

/-- Only the value 256 has class CLEAR (30 R97). -/
theorem Engine.classOf_ne_clear {v : Nat} (g : Engine) (hv : v ≠ 256) : g.classOf v ≠ .clear := by
  rcases classify_cases g.dict.nextCode g.kwkwkAllowed v with
    ⟨h, -⟩ | ⟨-, -, -, h⟩ | ⟨-, -, -, h⟩ | ⟨-, -, -, h⟩ | ⟨-, -, -, h⟩
  · exact absurd h hv
  all_goals simp [Engine.classOf, h]

theorem Engine.codeWord_maxCode (B : Config.Build) (v : Nat) (g : Engine) :
    (g.codeWord B v).engine.dict.maxCode = g.dict.maxCode := by
  by_cases hc : g.classOf v = .clear
  · simp [Engine.codeWord, hc]
  · exact (g.codeWord_grows B hc).maxCode

theorem Engine.decStep_maxCode (B : Config.Build) (g : Engine) :
    (g.decStep B).engine.dict.maxCode = g.dict.maxCode := by
  have hp := congrArg Dict.maxCode (g.pull_dict B g.dict.codeWidth)
  unfold Engine.decStep
  split <;> rename_i h <;> rw [h] at hp
  · exact hp
  · exact (Engine.codeWord_maxCode B _ _).trans hp

theorem Engine.decLoop_maxCode (B : Config.Build) (left count : Nat) (g : Engine) :
    (g.decLoop B left count).dict.maxCode = g.dict.maxCode := by
  induction left generalizing count g with
  | zero => rfl
  | succ left ih =>
    have hs := g.decStep_maxCode B
    rcases g.decLoop_succ B left count with
      ⟨-, h⟩ | ⟨-, g2, he, h⟩ | ⟨-, g2, he, h⟩ | ⟨-, r, g2, -, he, h⟩
    · rw [h]
    · rw [he] at hs; rw [h]; exact hs
    · rw [he] at hs; rw [h]; exact hs
    · rw [he] at hs; rw [h]; exact (ih (count + 1) { g2 with result := BitVec.ofNat 32 (count + 1) }).trans hs

/-! ### Entries are written once -/

/-- The outcome is a next state in which the dictionary `d` of engine `z` has only grown. -/
def DictGrows (d : Dict) (z : EngineId) (o : Host.Outcome State Fault Refusal) : Prop :=
  ∃ t, o = .next t ∧ d.Grows (t.eng z).dict

theorem State.onEng_dictGrows (s : State) (z : EngineId) (f : Engine → Engine)
    (h : (s.eng z).dict.Grows (f (s.eng z)).dict) : DictGrows (s.eng z).dict z (.next (s.onEng z f)) :=
  ⟨_, rfl, by rwa [State.onEng_eq, State.setEng_eng]⟩

theorem State.afterPrim_eng (s : State) (z : EngineId) (r : Res PrimResult) : (s.afterPrim z r).eng z = r.engine := by
  cases r <;> cases z <;> rfl

theorem State.afterPrim_dictGrows (s : State) (z : EngineId) (r : Res PrimResult)
    (h : (s.eng z).dict.Grows r.engine.dict) : DictGrows (s.eng z).dict z (.next (s.afterPrim z r)) :=
  ⟨_, rfl, by rwa [State.afterPrim_eng]⟩

/-- A code word run alone: its own operation `r` in a state that gives it its class (`c`), else the operation of
the class its value has there (log 10). -/
theorem State.codeWord_dictGrows (s : State) (c : Prop) [Decidable c] {v : Nat} (hv : v ≠ 256) (r : Res StepResult)
    (h : s.dec.dict.Grows r.engine.dict) :
    DictGrows s.dec.dict .dec
      (if c then .next (s.afterCode r) else .next (s.afterCode (s.dec.codeWord s.build v))) := by
  split
  · exact ⟨_, rfl, h⟩
  · exact ⟨_, rfl, s.dec.codeWord_grows s.build (s.dec.classOf_ne_clear hv)⟩

/-- The encoder's operations in `READY` but `ENC_CLEAR`. -/
theorem exec_encoder_dictGrows {s : State} {i : Instr} {n a : BitVec 28} {c : Byte} (hr : s.enc.st = .ready)
    (hi : i = .encChunk n ∨ i = .encEnd a ∨ i = .encByte c ∨ i = .encPending) :
    DictGrows s.enc.dict .enc (exec i s) := by
  rcases hi with rfl | rfl | rfl | rfl
  · refine s.onEng_dictGrows .enc _ ?_
    rw [s.eng_enc, s.enc.whenReady_ready _ hr]
    exact Engine.encLoop_grows s.build _ 0 { s.enc.accept with result := 0 }
  · refine s.onEng_dictGrows .enc _ ?_
    rw [s.eng_enc, s.enc.whenReady_ready _ hr]
    exact .of_eq (Engine.encEnd_dict s.build _)
  · show DictGrows s.enc.dict .enc (execEncByte c s)
    rw [execEncByte_eq]
    exact s.afterPrim_dictGrows .enc _ (by rw [Res.tagged_engine]; exact s.enc.encByte_grows s.build c)
  · show DictGrows s.enc.dict .enc (execEncPending s)
    rw [execEncPending_eq]
    exact s.afterPrim_dictGrows .enc _ (by rw [Res.tagged_engine]; exact .of_eq (s.enc.encPending_dict s.build))

/-- Every code word but the clear code. -/
theorem exec_codeWord_dictGrows {s : State} {i : Instr} {v : Nat} (hi : codeValue i = some v) (hv : v ≠ 256) :
    DictGrows s.dec.dict .dec (exec i s) := by
  cases i with
  | literal b => cases hi; exact s.codeWord_dictGrows _ hv _ (s.dec.lookupCode_grows s.build _)
  | clear => cases hi; exact absurd rfl hv
  | string w => cases hi; exact s.codeWord_dictGrows _ hv _ (s.dec.lookupCode_grows s.build _)
  | kwkwk w => cases hi; exact s.codeWord_dictGrows _ hv _ (s.dec.kwkwkCode_grows s.build _)
  | invalid w => cases hi; exact s.codeWord_dictGrows _ hv _ (.refl _)
  | _ => cases hi

/-- Settles O52: each of these operations only grows its dictionary, and a dictionary that meets its invariants has no
entry at `next_code` or above, where alone an entry is written. -/
theorem entriesAreWrittenOnce : Obligations.EntriesAreWrittenOnce := by
  refine ⟨fun s i n a c h hr hi => ?_, fun s i v h hr hi hv => ?_⟩
  · obtain ⟨t, ht, hg⟩ := exec_encoder_dictGrows hr hi
    exact ⟨t, ht, hg.next, hg.width, hg.entries (h.dict (.inl hr)).bounded⟩
  · obtain ⟨t, ht, hg⟩ := exec_codeWord_dictGrows hi hv
    exact ⟨t, ht, hg.next, hg.width, hg.entries (h.dict (.inl hr)).bounded⟩

/-! ### `max_code` is configuration (10 R23) -/

/-- The outcome is a next state with the `max_code` of both engines as in `s`. -/
def KeepsMaxCode (s : State) (o : Host.Outcome State Fault Refusal) : Prop :=
  ∃ t, o = .next t ∧ t.enc.dict.maxCode = s.enc.dict.maxCode ∧ t.dec.dict.maxCode = s.dec.dict.maxCode

theorem State.setEng_keepsMaxCode (s : State) (z : EngineId) (g : Engine)
    (h : g.dict.maxCode = (s.eng z).dict.maxCode) : KeepsMaxCode s (.next (s.setEng z g)) := by
  cases z
  · exact ⟨_, rfl, h, rfl⟩
  · exact ⟨_, rfl, rfl, h⟩

theorem State.afterPrim_keepsMaxCode (s : State) (z : EngineId) (r : Res PrimResult)
    (h : r.engine.dict.maxCode = (s.eng z).dict.maxCode) : KeepsMaxCode s (.next (s.afterPrim z r)) := by
  cases z <;> cases r
  · exact ⟨_, rfl, h, rfl⟩
  · exact ⟨_, rfl, h, rfl⟩
  · exact ⟨_, rfl, rfl, h⟩
  · exact ⟨_, rfl, rfl, h⟩

theorem Engine.whenReady_maxCode {f : Engine → Engine} (hf : ∀ g : Engine, (f g).dict.maxCode = g.dict.maxCode)
    (g : Engine) : (g.whenReady f).dict.maxCode = g.dict.maxCode :=
  g.whenReady_induction (P := fun g' => g'.dict.maxCode = g.dict.maxCode) (fun _ => hf g.accept) rfl

/-- A code word run alone (log 10): `r` is its own operation, `c` says that the state gives it its class. -/
theorem State.codeWord_keepsMaxCode (s : State) (c : Prop) [Decidable c] (v : Nat) (r : Res StepResult)
    (h : r.engine.dict.maxCode = s.dec.dict.maxCode) :
    KeepsMaxCode s (if c then .next (s.afterCode r) else .next (s.afterCode (s.dec.codeWord s.build v))) := by
  split
  · exact s.setEng_keepsMaxCode .dec _ h
  · exact s.setEng_keepsMaxCode .dec _ (s.dec.codeWord_maxCode s.build v)

/-- Settles O9: of the operations that write a dictionary the growing ones and the resets keep `max_code`. -/
theorem maxCodeIsConfiguration : Obligations.MaxCodeIsConfiguration := by
  intro i s hi
  show KeepsMaxCode s (exec i s)
  cases i with
  | encInit m => exact absurd rfl (hi m).1
  | decInit m => exact absurd rfl (hi m).2.1
  | encDestroy a => exact absurd rfl (hi a).2.2.1
  | decDestroy a => exact absurd rfl (hi a).2.2.2
  | encChunk n => exact s.setEng_keepsMaxCode .enc _ (Engine.whenReady_maxCode
      (fun g => (Engine.encLoop_grows s.build _ 0 { g with result := 0 }).maxCode) _)
  | encEnd _ => exact s.setEng_keepsMaxCode .enc _ (Engine.whenReady_maxCode
      (fun g => congrArg Dict.maxCode (g.encEnd_dict s.build)) _)
  | encClear _ => exact s.setEng_keepsMaxCode .enc _ (Engine.whenReady_maxCode (Engine.encClear_maxCode s.build) _)
  | decChunk n => exact s.setEng_keepsMaxCode .dec _ (Engine.whenReady_maxCode
      (fun g => Engine.decLoop_maxCode s.build _ 0 { g with result := 0 }) _)
  | reserved0 _ | reserved6 _ | reserved7 _ => exact s.setEng_keepsMaxCode .enc _ rfl
  | reserved8 _ | reservedB _ | reservedC _ | reservedE _ | reservedF _ => exact s.setEng_keepsMaxCode .dec _ rfl
  | literal v => exact s.codeWord_keepsMaxCode _ _ _ (s.dec.lookupCode_grows s.build v.toNat).maxCode
  | clear => exact s.setEng_keepsMaxCode .dec _ rfl
  | string v => exact s.codeWord_keepsMaxCode _ _ _ (s.dec.lookupCode_grows s.build v).maxCode
  | kwkwk v => exact s.codeWord_keepsMaxCode _ _ _ (s.dec.kwkwkCode_grows s.build v).maxCode
  | invalid v => exact s.codeWord_keepsMaxCode _ _ _ rfl
  | dictInit z | dictSeq z _ | dictReset z => exact s.afterPrim_keepsMaxCode z _ rfl
  | dictExtend z n b => exact s.afterPrim_keepsMaxCode z _ (Dict.extend_maxCode _ n b)
  | dictGrow z =>
    show KeepsMaxCode s (execDictGrow z s)
    rw [execDictGrow_eq]
    exact s.afterPrim_keepsMaxCode z _ (by rw [Res.tagged_engine]; exact ((s.eng z).grow_grows s.build).maxCode)
  | bwPush v w =>
    show KeepsMaxCode s (execBwPush v w s)
    rw [execBwPush_eq]
    exact s.afterPrim_keepsMaxCode .enc _ (by simp)
  | bwFlush => exact s.afterPrim_keepsMaxCode .enc _ (by simp)
  | brPull w => exact s.afterPrim_keepsMaxCode .dec _ (by simp)
  | encByte c =>
    show KeepsMaxCode s (execEncByte c s)
    rw [execEncByte_eq]
    exact s.afterPrim_keepsMaxCode .enc _ (by rw [Res.tagged_engine]; exact (s.enc.encByte_grows s.build c).maxCode)
  | encPending =>
    show KeepsMaxCode s (execEncPending s)
    rw [execEncPending_eq]
    exact s.afterPrim_keepsMaxCode .enc _ (by simp)
  | decStep =>
    show KeepsMaxCode s (execDecStep s)
    rw [execDecStep_eq]
    exact s.afterPrim_keepsMaxCode .dec _ (by rw [Res.tagged_engine]; exact s.dec.decStep_maxCode s.build)
  | decGrow =>
    show KeepsMaxCode s (execDecGrow s)
    rw [execDecGrow_eq]
    exact s.afterPrim_keepsMaxCode .dec _ (by rw [Res.tagged_engine]; exact (s.dec.decGrow_grows s.build).maxCode)
  | decClear => exact s.afterPrim_keepsMaxCode .dec _ rfl
  | srcRead z | snkWrite z _ => exact s.afterPrim_keepsMaxCode z _ rfl

end Sys2Proof.Machine
end

section
/-! SUPPORT. The sequences of a dictionary (40 R131; 10 R43 items 6 and 7), and O22. -/

namespace Sys2Proof.Machine

/-- The sequence of a node: empty at the root (40 R131). -/
def Dict.nodeSeq (d : Dict) : NodeId → List Byte
  | none => []
  | some k => d.seq k

/-- The walk from a resident code is the same for every fuel that suffices. -/
theorem Dict.Inv.walk_eq_seq {maxw : Nat} {d : Dict} (h : d.Inv maxw) {k fuel : Nat}
    (hk : (Table.find d.tab k).isSome = true) (hf : k < fuel) : d.walk fuel (some k) = d.seq k := by
  induction k using Nat.strong_induction_on generalizing fuel with
  | _ k ih =>
    obtain ⟨e, he⟩ := Option.isSome_iff_exists.1 hk
    obtain ⟨fuel, rfl⟩ : ∃ n, fuel = n + 1 := ⟨fuel - 1, by omega⟩
    rw [Dict.seq, d.walk_step fuel k e he, d.walk_step k k e he]
    rcases h.parent_cases he with ⟨-, rfl⟩ | ⟨-, p, f, hp, hlt, hpf, -, -⟩
    · simp [literalEntry]
    · have hres : (Table.find d.tab p).isSome = true := by simp [hpf]
      rw [hp, ih p hlt hres (by omega), ih p hlt hres hlt]

/-- `seq(k)` is the sequence of the parent and the last byte (40 R131). -/
theorem Dict.Inv.seq_eq {maxw : Nat} {d : Dict} (h : d.Inv maxw) {k : Nat} {e : Entry}
    (he : Table.find d.tab k = some e) : d.seq k = d.nodeSeq e.parent ++ [e.last] := by
  rw [Dict.seq, d.walk_step k k e he]
  rcases h.parent_cases he with ⟨-, rfl⟩ | ⟨-, p, f, hp, hlt, hpf, -, -⟩
  · simp [literalEntry, Dict.nodeSeq]
  · rw [hp, h.walk_eq_seq (by simp [hpf]) hlt, Dict.nodeSeq]

/-- The root alone has the empty sequence. -/
theorem Dict.Inv.seq_ne_nil {maxw : Nat} {d : Dict} (h : d.Inv maxw) {k : Nat} {e : Entry}
    (he : Table.find d.tab k = some e) : d.seq k ≠ [] := by
  rw [h.seq_eq he]; simp

/-- Two resident codes with one sequence have parents with one sequence and the same last byte; by induction the
parents are equal, and 10 R43 item 6 gives the codes. -/
theorem Dict.Inv.seq_injective {maxw : Nat} {d : Dict} (h : d.Inv maxw) {j k : Nat} {e f : Entry}
    (hj : Table.find d.tab j = some e) (hk : Table.find d.tab k = some f) (hs : d.seq j = d.seq k) : j = k := by
  induction j using Nat.strong_induction_on generalizing k e f with
  | _ j ih =>
    rw [h.seq_eq hj, h.seq_eq hk] at hs
    obtain ⟨hpar, hlast⟩ := List.append_inj' hs rfl
    refine h.unique j k e f hj hk ?_ (by simpa using hlast)
    rcases h.parent_cases hj with ⟨-, rfl⟩ | ⟨-, p, e', hp, hpj, hpe, -, -⟩ <;>
      rcases h.parent_cases hk with ⟨-, rfl⟩ | ⟨-, q, f', hq, -, hqf, -, -⟩
    · rfl
    · rw [hq] at hpar
      exact absurd hpar.symm (h.seq_ne_nil hqf)
    · rw [hp] at hpar
      exact absurd hpar (h.seq_ne_nil hpe)
    · rw [hp, hq] at hpar ⊢
      rw [ih p hpj hpe hqf hpar]

/-- A non-empty initial part of a resident sequence is the whole of it or an initial part of the parent's sequence. -/
theorem Dict.Inv.exists_seq_of_isPrefix {maxw : Nat} {d : Dict} (h : d.Inv maxw) {k : Nat} {p : List Byte}
    (hk : (Table.find d.tab k).isSome = true) (hne : p ≠ []) (hp : p <+: d.seq k) :
    ∃ j, (Table.find d.tab j).isSome = true ∧ d.seq j = p := by
  induction k using Nat.strong_induction_on with
  | _ k ih =>
    obtain ⟨e, he⟩ := Option.isSome_iff_exists.1 hk
    rw [h.seq_eq he, List.prefix_concat_iff] at hp
    rcases hp with hp | hp
    · exact ⟨k, hk, by rw [h.seq_eq he, hp]⟩
    · rcases h.parent_cases he with ⟨-, rfl⟩ | ⟨-, q, f, hq, hlt, hqf, -, -⟩
      · exact absurd (List.prefix_nil.1 hp) hne
      · rw [hq] at hp
        exact ih q hlt (by simp [hqf]) hp

/-- Settles O22, by induction along the parent links. -/
theorem residentSequencesDistinctAndClosed : Obligations.ResidentSequencesDistinctAndClosed := by
  refine fun maxw d h => ⟨fun j k hj hk hs => ?_, fun k p hk hne hp => h.exists_seq_of_isPrefix hk hne hp⟩
  obtain ⟨e, he⟩ := Option.isSome_iff_exists.1 hj
  obtain ⟨f, hf⟩ := Option.isSome_iff_exists.1 hk
  exact h.seq_injective he hf hs

end Sys2Proof.Machine
end

section
/-! SUPPORT. The engine after INIT, DESTROY and hardware reset, and the host registers; O11, O10, O12, O53 and O54. -/

namespace Sys2Proof.Machine

/-! ### INIT (10 R50) -/

/-- In a fresh dictionary no one-byte code has an edge. -/
theorem Dict.init_child_code (d : Dict) (k : Nat) (b : Byte) : d.init.child (some k) b = none := by
  refine (Table.child_none_find literalTable literalTable_wf (some k) b).2 fun j e he hpar => ?_
  rw [literalTable_find] at he
  split at he <;> cases he
  cases hpar.1

theorem execInit_eq (s : State) (m : BitVec 28) (z : EngineId) (i : Instr)
    (hi : (z = .enc ∧ i = .encInit m) ∨ (z = .dec ∧ i = .decInit m)) :
    exec i s = .next (s.setEng z ((s.eng z).initCmd m.toNat)) := by
  rcases hi with ⟨rfl, rfl⟩ | ⟨rfl, rfl⟩ <;> rfl

/-- Settles O11: the fresh engine has the dictionary of `DICT.INIT`, whose table is the one of the literals. -/
theorem initGivesAFreshEngine : Obligations.InitGivesAFreshEngine := by
  intro s m z i hi hm
  have hm' : m.toNat = 0 ∨ 257 ≤ m.toNat := hm.imp_left fun h => by simp [h]
  have hinv := Dict.init_inv 9 { (s.eng z).dict with maxCode := m.toNat } (Nat.le_refl 9) hm'
  refine ⟨_, rfl, rfl, rfl, literalTable_find, hinv.child_root, Dict.init_child_code _, ?_⟩
  rw [execInit_eq s m z i hi, Engine.initCmd_good _ _ (by omega)]
  rfl

/-! ### Hardware reset and DESTROY (10 R49, R52) -/

/-- The values that hardware reset gives an engine (10 R49), with its port as it was (70 R236). -/
structure Engine.HasResetValues (g : Engine) (p : Port) : Prop extends g.FlagsZero where
  st : g.st = .uninit
  port : g.port = p

/-- `STATUS` is 0 with the values of hardware reset (10 R37). -/
theorem Engine.HasResetValues.status {g : Engine} {p : Port} (h : g.HasResetValues p) : g.status = 0 := by
  rw [Engine.status, h.st, h.eoi, h.refused, h.rsn, h.err]; decide

theorem Engine.unspecified_hasResetValues (B : Config.Build) (z : EngineId) (n : Nat) (p : Port) :
    (Engine.unspecified B z n p).HasResetValues p := ⟨Engine.unspecified_flagsZero B z n p, rfl, rfl⟩

theorem State.reset_hasResetValues (z : EngineId) :
    (State.reset.eng z).HasResetValues { src := [], pos := 0, snk := [], events := [] } := by
  cases z <;> exact ⟨Engine.reset_flagsZero, rfl, rfl⟩

theorem State.hwReset_hasResetValues (s : State) (z : EngineId) :
    (s.hwReset.eng z).HasResetValues (s.eng z).port := by
  cases z <;> exact Engine.unspecified_hasResetValues ..

/-- Settles O10: the event destroys both engines. -/
theorem hardwareReset : Obligations.HardwareReset := by
  refine ⟨fun z => ?_, fun s z => ?_⟩
  · have h := State.reset_hasResetValues z
    exact ⟨h.st, h.eoi, h.refused, h.rsn, h.err, h.result, h.errinfo, h.status⟩
  · have h := s.hwReset_hasResetValues z
    exact ⟨h.st, h.eoi, h.refused, h.rsn, h.err, h.result, h.errinfo, h.status, h.port, rfl, rfl⟩

/-- A state that differs from `s` in engine `z` and the count of free draws only, where `z` has the reset values. -/
structure State.DestroyedFrom (s : State) (z : EngineId) (t : State) : Prop where
  values : (t.eng z).HasResetValues (s.eng z).port
  other : ∀ y, y ≠ z → t.eng y = s.eng y
  build : t.build = s.build
  cmds : t.cmds = s.cmds
  ret : t.ret = s.ret

theorem State.destroy_destroyedFrom (s : State) (z : EngineId) : s.DestroyedFrom z (s.destroy z) where
  values := by rw [State.destroy_eng]; exact Engine.unspecified_hasResetValues ..
  other y hy := by
    have h := s.setEng_eng_other z y (Engine.unspecified s.build z s.free (s.eng z).port) hy
    cases y <;> exact h
  build := s.destroy_build z
  cmds := s.destroy_cmds z
  ret := s.destroy_ret z

theorem State.zeroFlags_destroyedFrom (s : State) (h : s.enc.st = .uninit) :
    s.DestroyedFrom .enc (s.onEng .enc Engine.zeroFlags) where
  values := ⟨s.enc.zeroFlags_flagsZero, h, rfl⟩
  other y hy := s.setEng_eng_other .enc y _ hy
  build := rfl
  cmds := rfl
  ret := rfl

theorem exec_destroy (s : State) (a : BitVec 28) (z : EngineId) (i : Instr)
    (hi : (z = .enc ∧ i = .encDestroy a) ∨ (z = .dec ∧ i = .decDestroy a)) :
    ∃ t, exec i s = .next t ∧ s.DestroyedFrom z t := by
  rcases hi with ⟨rfl, rfl⟩ | ⟨rfl, rfl⟩
  · by_cases h : s.enc.st = .uninit
    · exact ⟨_, if_pos h, s.zeroFlags_destroyedFrom h⟩
    · exact ⟨_, if_neg h, s.destroy_destroyedFrom .enc⟩
  · exact ⟨_, rfl, s.destroy_destroyedFrom .dec⟩

/-- Settles O12: in `UNINIT` `ENC_DESTROY` writes the flags only, and all but `REFUSED` and `RSN` of them hold their
reset values already. -/
theorem destroyGivesTheResetState : Obligations.DestroyGivesTheResetState := by
  refine ⟨fun s a z i hi => ?_, fun s a hst heoi herr hres hinfo => ?_⟩
  · obtain ⟨t, ht, hv, hother, hbuild, hcmds, hret⟩ := exec_destroy s a z i hi
    exact ⟨t, ht, hv.st, hv.eoi, hv.refused, hv.rsn, hv.err, hv.result, hv.errinfo, hv.port, hother, hbuild, hcmds,
      hret⟩
  · have he : s.enc.zeroFlags = { s.enc with refused := false, rsn := .none } := by
      simp only [Engine.zeroFlags, heoi, herr, hres, hinfo]
    show execEncDestroy a s = _
    rw [execEncDestroy, if_pos hst, State.onEng_eq, State.eng_enc, he]
    rfl

/-! ### The host registers (10 R37, R40, R41) -/

/-! #### The fields of `STATUS`: one part of the appended word each, read after the parts below it -/

theorem Engine.status_st (g : Engine) : g.status.extractLsb' 0 2 = g.st.code :=
  BitVec.extractLsb'_append_eq_right

theorem Engine.status_eoi (g : Engine) : g.status.getLsbD 2 = g.eoi := by
  rw [Engine.status, BitVec.getLsbD_append, if_neg (by decide), BitVec.getLsbD_append, if_pos (by decide)]
  simp

theorem Engine.status_refused (g : Engine) : g.status.getLsbD 3 = g.refused := by
  rw [Engine.status, BitVec.getLsbD_append, if_neg (by decide), BitVec.getLsbD_append, if_neg (by decide),
    BitVec.getLsbD_append, if_pos (by decide)]
  simp

theorem Engine.status_rsn (g : Engine) : g.status.extractLsb' 4 2 = g.rsn.code := by
  rw [Engine.status, BitVec.extractLsb'_append_eq_of_le (by decide),
    BitVec.extractLsb'_append_eq_of_le (by decide),
    BitVec.extractLsb'_append_eq_of_le (by decide)]
  exact BitVec.extractLsb'_append_eq_right

theorem Engine.status_reserved_low (g : Engine) : g.status.extractLsb' 6 2 = 0#2 := by
  rw [Engine.status, BitVec.extractLsb'_append_eq_of_le (by decide),
    BitVec.extractLsb'_append_eq_of_le (by decide),
    BitVec.extractLsb'_append_eq_of_le (by decide),
    BitVec.extractLsb'_append_eq_of_le (by decide)]
  exact BitVec.extractLsb'_append_eq_right

theorem Engine.status_err (g : Engine) : g.status.extractLsb' 8 4 = g.err.code := by
  rw [Engine.status, BitVec.extractLsb'_append_eq_of_le (by decide),
    BitVec.extractLsb'_append_eq_of_le (by decide),
    BitVec.extractLsb'_append_eq_of_le (by decide),
    BitVec.extractLsb'_append_eq_of_le (by decide),
    BitVec.extractLsb'_append_eq_of_le (by decide)]
  exact BitVec.extractLsb'_append_eq_right

theorem Engine.status_reserved_high (g : Engine) : g.status.extractLsb' 12 20 = 0#20 := by
  rw [Engine.status, BitVec.extractLsb'_append_eq_of_le (by decide),
    BitVec.extractLsb'_append_eq_of_le (by decide),
    BitVec.extractLsb'_append_eq_of_le (by decide),
    BitVec.extractLsb'_append_eq_of_le (by decide),
    BitVec.extractLsb'_append_eq_of_le (by decide)]
  exact BitVec.extractLsb'_append_eq_left

/-- Settles O53: each field is one part of the appended word. -/
theorem statusLayout : Obligations.StatusLayout := by
  refine ⟨fun g => ⟨g.status_st, g.status_eoi, g.status_refused, g.status_rsn, g.status_reserved_low, g.status_err,
    g.status_reserved_high⟩, fun z => (State.reset_hasResetValues z).status⟩

/-! #### The register file -/

/-- Outside the indices 3 to 12 a register reads the same in every state (10 R42). -/
theorem State.readReg_eq_reg (s : State) (z : EngineId) (i : BitVec 4) (hi : i.toNat < 3 ∨ 12 < i.toNat) :
    s.readReg z i = (s.eng z).reg i := by
  rw [State.readReg, if_neg (by omega)]

/-- Outside `UNINIT` every index reads its register (10 R42). -/
theorem State.readReg_eq_reg_of_ne_uninit (s : State) (z : EngineId) (i : BitVec 4) (hst : (s.eng z).st ≠ .uninit) :
    s.readReg z i = (s.eng z).reg i := by
  rw [State.readReg, if_neg fun h => hst h.1]

/-- A counter below `2^64` is read back from its two halves (10 R40). -/
theorem counter_halves {n : Nat} (h : n < 2 ^ 64) :
    (BitVec.ofNat 32 (n / 2 ^ 32) ++ BitVec.ofNat 32 n).toNat = n := by
  rw [BitVec.toNat_append, BitVec.toNat_ofNat, BitVec.toNat_ofNat,
    ← Nat.shiftLeft_add_eq_or_of_lt (Nat.mod_lt _ (by decide)), Nat.shiftLeft_eq]
  omega

/-- Settles O54: each index reads its register, and the two halves of a counter join. -/
theorem registerFile : Obligations.RegisterFile := by
  intro s z g
  refine ⟨⟨s.readReg_eq_reg z 0 (by decide), s.readReg_eq_reg z 1 (by decide), s.readReg_eq_reg z 2 (by decide),
    s.readReg_eq_reg z 13 (by decide), s.readReg_eq_reg z 14 (by decide), s.readReg_eq_reg z 15 (by decide)⟩,
    fun hst => ?_⟩
  have hread : ∀ i, s.readReg z i = g.reg i := fun i => s.readReg_eq_reg_of_ne_uninit z i hst
  simp only [hread]
  exact ⟨rfl, rfl, rfl, rfl, rfl, rfl, counter_halves, counter_halves⟩

end Sys2Proof.Machine
end

section
/-! SUPPORT. The port primitives run alone (20 R66, R67), and which part of the state an instruction reads; O29, O30 and O7. -/

namespace Sys2Proof.Machine

/-! ### The port primitives -/

/-- A read with a byte left gives that byte (20 R66). -/
theorem Port.read_of_byte {p : Port} {b : Byte} (h : p.src[p.pos]? = some b) : p.read = (some b, p.advanced 1) := by
  obtain ⟨hlt, rfl⟩ := List.getElem?_eq_some_iff.1 h
  rcases p.read_cases with ⟨hend, -⟩ | ⟨_, hr⟩
  · omega
  · exact hr

/-- A read at the end gives `None` (20 R66). -/
theorem Port.read_of_end {p : Port} (h : p.src.length ≤ p.pos) : p.read = (none, p.answeredNone) := by
  rcases p.read_cases with ⟨-, hr⟩ | ⟨hlt, -⟩
  · exact hr
  · omega

/-- Settles O29: the two answers of a read. -/
theorem sourceReadIsDestructive : Obligations.SourceReadIsDestructive := by
  refine fun s z => ⟨fun b hb => ?_, fun hend => ?_⟩ <;> show execSrcRead z s = _
  · rw [execSrcRead, Port.read_of_byte hb]; rfl
  · rw [execSrcRead, Port.read_of_end hend.ge]; rfl

/-- Settles O30: a write is a gain of one byte, and the primitive returns no value. -/
theorem sinkWriteAppends : Obligations.SinkWriteAppends := by
  intro s z b
  show execSnkWrite z b s = _
  rw [execSnkWrite, State.afterPrim_ok, Port.write_eq]

/-! ### What an instruction reads (20 R74, 10 R46) -/

/-- The meaning `m` answers from every state, and what it leaves in engine `z` and, where `p` holds, the tagged
value are a function of the build, the count of the free values and that engine. -/
def ReadsOnly (z : EngineId) (p : Prop) (m : State → Host.Outcome State Fault Refusal) : Prop :=
  ∃ f : Config.Build → Nat → Engine → Engine × PrimResult, ∀ s, ∃ t, m s = .next t ∧
    t.eng z = (f s.build s.free (s.eng z)).1 ∧ (p → t.ret = (f s.build s.free (s.eng z)).2)

/-- A command or a code word writes its engine and no tagged value. -/
theorem readsOnly_setEng (z : EngineId) {p : Prop} (hp : ¬p) (f : Config.Build → Engine → Engine) :
    ReadsOnly z p fun s => .next (s.setEng z (f s.build (s.eng z))) :=
  ⟨fun B _ g => (f B g, .idle), fun s => ⟨_, rfl, s.setEng_eng z _, fun h => absurd h hp⟩⟩

theorem readsOnly_destroy (z : EngineId) {p : Prop} (hp : ¬p) : ReadsOnly z p fun s => .next (s.destroy z) :=
  ⟨fun B n g => (Engine.unspecified B z n g.port, .idle), fun s => ⟨_, rfl, s.destroy_eng z, fun h => absurd h hp⟩⟩

/-- The tagged value a primitive returns, a `raise` included (00 R14). -/
def Res.ret : Res PrimResult → PrimResult
  | .ok a _ => a
  | .raised _ => .raised

theorem State.afterPrim_ret (s : State) (z : EngineId) (r : Res PrimResult) : (s.afterPrim z r).ret = r.ret := by
  cases r <;> rfl

theorem readsOnly_afterPrim (z : EngineId) (p : Prop) (r : Config.Build → Engine → Res PrimResult) :
    ReadsOnly z p fun s => .next (s.afterPrim z (r s.build (s.eng z))) :=
  ⟨fun B _ g => ((r B g).engine, (r B g).ret), fun s => ⟨_, rfl, s.afterPrim_eng z _, fun _ => s.afterPrim_ret z _⟩⟩

/-- A primitive whose operation can raise. -/
theorem readsOnly_tagged {α : Type} (z : EngineId) (p : Prop) (r : Config.Build → Engine → Res α) (f : α → PrimResult)
    {m : State → Host.Outcome State Fault Refusal}
    (hm : ∀ s, m s = .next (s.afterPrim z ((r s.build (s.eng z)).tagged f))) : ReadsOnly z p m := by
  rw [funext hm]
  exact readsOnly_afterPrim z p fun B g => (r B g).tagged f

/-- A choice that the engine itself decides. -/
theorem ReadsOnly.ite {z : EngineId} {p : Prop} {m₁ m₂ : State → Host.Outcome State Fault Refusal} (c : Engine → Prop)
    [DecidablePred c] (h₁ : ReadsOnly z p m₁) (h₂ : ReadsOnly z p m₂) :
    ReadsOnly z p fun s => if c (s.eng z) then m₁ s else m₂ s := by
  obtain ⟨f₁, hf₁⟩ := h₁
  obtain ⟨f₂, hf₂⟩ := h₂
  refine ⟨fun B n g => if c g then f₁ B n g else f₂ B n g, fun s => ?_⟩
  by_cases hc : c (s.eng z)
  · simpa only [if_pos hc] using hf₁ s
  · simpa only [if_neg hc] using hf₂ s

/-- A code word run alone: its own operation `r` in a state that gives `v` the class `c`, else the operation of the
class `v` has there (log 10). -/
theorem readsOnly_codeWord {p : Prop} (hp : ¬p) (c : CodeClass) (v : Nat)
    (r : Config.Build → Engine → Res StepResult) :
    ReadsOnly .dec p fun s => if s.dec.classOf v = c then .next (s.afterCode (r s.build s.dec))
      else .next (s.afterCode (s.dec.codeWord s.build v)) :=
  .ite (fun g => g.classOf v = c) (readsOnly_setEng .dec hp fun B g => (r B g).engine)
    (readsOnly_setEng .dec hp fun B g => (g.codeWord B v).engine)

/-- Every instruction reads its own engine only. -/
theorem exec_readsOnly (i : Instr) : ReadsOnly i.engine (i.format = .prim) (exec i) := by
  cases i with
  | encInit m => exact readsOnly_setEng .enc nofun fun _ => Engine.initCmd (argNat m)
  | encChunk n => exact readsOnly_setEng .enc nofun fun B => Engine.whenReady (Engine.encChunk B (argNat n))
  | encEnd _ => exact readsOnly_setEng .enc nofun fun B => Engine.whenReady (Engine.encEnd B)
  | encClear _ => exact readsOnly_setEng .enc nofun fun B => Engine.whenReady (Engine.encClear B)
  | encDestroy _ =>
    exact .ite (fun g => g.st = .uninit) (readsOnly_setEng .enc nofun fun _ => Engine.zeroFlags)
      (readsOnly_destroy .enc nofun)
  | decInit m => exact readsOnly_setEng .dec nofun fun _ => Engine.initCmd (argNat m)
  | decChunk n => exact readsOnly_setEng .dec nofun fun B => Engine.whenReady (Engine.decChunk B (argNat n))
  | decDestroy _ => exact readsOnly_destroy .dec nofun
  | reserved0 _ | reserved6 _ | reserved7 _ =>
    exact readsOnly_setEng .enc nofun fun _ => Engine.refuse .illegalOpcode
  | reserved8 _ | reservedB _ | reservedC _ | reservedE _ | reservedF _ =>
    exact readsOnly_setEng .dec nofun fun _ => Engine.refuse .illegalOpcode
  | literal v => exact readsOnly_codeWord nofun .literal v.toNat fun B g => g.lookupCode B v.toNat
  | clear => exact readsOnly_setEng .dec nofun fun _ => Engine.decClear
  | string v => exact readsOnly_codeWord nofun .string v fun B g => g.lookupCode B v
  | kwkwk v => exact readsOnly_codeWord nofun .kwkwk v fun B g => g.kwkwkCode B v
  | invalid v => exact readsOnly_codeWord nofun .invalid v fun _ g => g.invalidCode v
  | dictInit z => exact readsOnly_afterPrim z _ fun _ g => .ok .unit { g with dict := g.dict.init }
  | dictExtend z n b =>
    exact readsOnly_afterPrim z _ fun _ g =>
      .ok (g.dict.extend n b).1.tag { g with dict := (g.dict.extend n b).2 }
  | dictGrow z => exact readsOnly_tagged z _ (fun B g => g.grow B) (fun _ => .unit) (execDictGrow_eq z)
  | dictSeq z k => exact readsOnly_afterPrim z _ fun _ g => .ok (.bytes (g.dict.seq k)) g
  | dictReset z => exact readsOnly_afterPrim z _ fun _ g => .ok .unit { g with dict := g.dict.reset }
  | bwPush v w => exact readsOnly_tagged .enc _ (fun B g => g.push B v w) (fun _ => .unit) (execBwPush_eq v w)
  | bwFlush => exact readsOnly_afterPrim .enc _ fun B g => .ok .unit (g.flush B)
  | brPull w => exact readsOnly_afterPrim .dec _ fun B g => .ok (pulledTag (g.pull B w).1) (g.pull B w).2
  | encByte c => exact readsOnly_tagged .enc _ (fun B g => g.encByte B c) (fun _ => .unit) (execEncByte_eq c)
  | encPending => exact readsOnly_tagged .enc _ (fun B g => g.encPending B) (fun _ => .unit) execEncPending_eq
  | decStep => exact readsOnly_tagged .dec _ (fun B g => g.decStep B) StepResult.tag execDecStep_eq
  | decGrow => exact readsOnly_tagged .dec _ (fun B g => g.decGrow B) (fun _ => .unit) execDecGrow_eq
  | decClear => exact readsOnly_afterPrim .dec _ fun _ g => .ok .unit g.decClear
  | srcRead z =>
    exact readsOnly_afterPrim z _ fun _ g =>
      .ok (pulledTag (g.port.read.1.map BitVec.toNat)) { g with port := g.port.read.2 }
  | snkWrite z b => exact readsOnly_afterPrim z _ fun _ g => .ok .unit { g with port := g.port.write b }

/-- Settles O7: both answers are the same function of what the two states agree on. -/
theorem otherEngineIsNotRead : Obligations.OtherEngineIsNotRead := by
  intro i s₁ s₂ hbuild hfree heng
  obtain ⟨f, hf⟩ := exec_readsOnly i
  obtain ⟨t₁, ht₁, heng₁, hret₁⟩ := hf s₁
  obtain ⟨t₂, ht₂, heng₂, hret₂⟩ := hf s₂
  rw [hbuild, hfree, heng] at heng₁ hret₁
  exact ⟨t₁, t₂, ht₁, ht₂, heng₁.trans heng₂.symm, fun hp => (hret₁ hp).trans (hret₂ hp).symm⟩

end Sys2Proof.Machine
end

section
/-! SUPPORT. The encodings: command words are an op and an argument (30 R99, R100), code words a run of stream bits (30 R93), and the classes of a pulled value (30 R97); O1, O2, O13, O15, O3 and O4. -/

namespace Sys2Proof.Machine

/-! ### The two fields of a command word (30 R99) -/

@[simp] theorem opField_append (op : BitVec 4) (a : BitVec 28) : opField (op ++ a) = op :=
  BitVec.extractLsb'_append_eq_left

@[simp] theorem argField_append (op : BitVec 4) (a : BitVec 28) : argField (op ++ a) = a :=
  BitVec.extractLsb'_append_eq_right

/-- The two fields are the whole word. -/
theorem opField_append_argField (w : Word) : opField w ++ argField w = w :=
  BitVec.extractLsb'_append_extractLsb'_eq_extractLsb' rfl |>.trans BitVec.extractLsb'_eq_self

/-- A word whose op has the value `k` is `k` and its argument (30 R100). -/
theorem word_of_opField {w : Word} {k : Nat} (h : (opField w).toNat = k) : BitVec.ofNat 4 k ++ argField w = w := by
  rw [← h, BitVec.ofNat_toNat, BitVec.setWidth_eq, opField_append_argField]

/-! ### Command words round trip (30 R99, R100, R102) -/

/-- Decoding the word of an instruction gives the instruction: its op selects the row, its argument is kept whole. -/
theorem decode_of_encode {i : Instr} {w : Word} (h : encode i = some w) : decode w = i := by
  cases i <;> cases h <;> simp only [decode, opField_append, argField_append] <;> rfl

/-- The word of the row a word selects is that word: each row of `decode` is encoded with the op that selects it,
and in the last row no value but `0xF` is left. -/
theorem encode_decode (w : Word) : encode (decode w) = some w := by
  unfold decode
  split
  case h_16 =>
    have hlt := (opField w).isLt
    have hF : (opField w).toNat = 0xF := by grind
    exact congrArg some (word_of_opField hF)
  all_goals exact congrArg some (word_of_opField ‹_›)

/-- Settles O1: a word is its op and its argument, and no two rows have the same op. -/
theorem commandWordsRoundTrip : Obligations.CommandWordsRoundTrip :=
  ⟨fun _ _ => decode_of_encode, encode_decode⟩

/-- Settles O2: each word is the one its row encodes to. -/
theorem commandWordsOfTheTable : Obligations.CommandWordsOfTheTable :=
  ⟨decode_of_encode rfl, decode_of_encode rfl, decode_of_encode rfl, decode_of_encode rfl, decode_of_encode rfl,
    decode_of_encode rfl, decode_of_encode rfl, decode_of_encode rfl, decode_of_encode rfl, decode_of_encode rfl⟩

/-! ### Reserved opcodes and ignored arguments (30 R102, R103) -/

/-- Bit 31 of a command word names the engine its row acts on (30 R99). -/
theorem engine_of_encode {i : Instr} {w : Word} (h : encode i = some w) :
    i.engine = if w.getLsbD 31 then .dec else .enc := by
  cases i <;> cases h <;> rw [Laws.CommandFormat.bit31] <;> rfl

/-- A reserved row refuses in its own engine (30 R102, 60 R215). -/
theorem exec_reserved (s : State) (a : BitVec 28) (z : EngineId) (i : Instr)
    (hi : (z = .enc ∧ (i = .reserved0 a ∨ i = .reserved6 a ∨ i = .reserved7 a)) ∨
      (z = .dec ∧ (i = .reserved8 a ∨ i = .reservedB a ∨ i = .reservedC a ∨ i = .reservedE a ∨ i = .reservedF a))) :
    exec i s = .next (s.refuseOpcode z) := by
  obtain ⟨rfl, rfl | rfl | rfl⟩ | ⟨rfl, rfl | rfl | rfl | rfl | rfl⟩ := hi <;> rfl

/-- A word with a reserved op selects a reserved row (30 R102). -/
theorem exec_decode_reserved (s : State) (w : Word)
    (h : (opField w).toNat ∈ [0x0, 0x6, 0x7, 0x8, 0xB, 0xC, 0xE, 0xF]) :
    exec (decode w) s = .next (s.refuseOpcode (decode w).engine) := by
  simp only [List.mem_cons, List.not_mem_nil, or_false] at h
  rcases h with h | h | h | h | h | h | h | h <;> simp only [decode, h] <;> rfl

/-- Settles O13: a reserved word selects a reserved row, whose engine is the one bit 31 names. -/
theorem reservedOpcodesRefused : Obligations.ReservedOpcodesRefused := by
  refine ⟨fun s w h => ?_, exec_reserved⟩
  rw [exec_decode_reserved s w h, engine_of_encode (encode_decode w)]
  rfl

/-- Settles O15: the meanings of the four rows do not read their argument. -/
theorem ignoredArguments : Obligations.IgnoredArguments := fun _ _ _ => ⟨rfl, rfl, rfl, rfl⟩

/-! ### Code words (30 R93, R94) -/

theorem bitsValue_append_singleton (l : List Bool) (b : Bool) : bitsValue (l ++ [b]) = 2 * bitsValue l + b.toNat := by
  simp [bitsValue]

@[simp] theorem length_codeBits (w v : Nat) : (codeBits w v).length = w := by simp [codeBits]

/-- The last stream bit of a code word is the lowest bit of its value; those before it are the halved value's. -/
theorem codeBits_succ (w v : Nat) : codeBits (w + 1) v = codeBits w (v / 2) ++ [v.testBit 0] := by
  have hbit : ∀ i ∈ List.range w, v.testBit (w - i) = (v / 2).testBit (w - 1 - i) := fun i hi => by
    have : i < w := List.mem_range.1 hi
    rw [Nat.testBit_div_two, show w - 1 - i + 1 = w - i by omega]
  simp only [codeBits, List.range_succ, List.map_append, List.map_singleton, Nat.add_sub_cancel, Nat.sub_self,
    List.map_congr_left hbit]

/-- The bits of a code word have the value they were laid out from, as far as they reach. -/
theorem bitsValue_codeBits (w v : Nat) : bitsValue (codeBits w v) = v % 2 ^ w := by
  induction w generalizing v with
  | zero => rw [Nat.pow_zero, Nat.mod_one]; rfl
  | succ w ih =>
    rw [codeBits_succ, bitsValue_append_singleton, ih, Nat.toNat_testBit, Nat.pow_succ', Nat.mod_mul, Nat.add_comm]
    simp

/-- Bit `v[i]` of a code word stands at stream position `w - 1 - i` (30 R93). -/
theorem getElem?_codeBits {w i : Nat} (v : Nat) (hi : i < w) : (codeBits w v)[w - 1 - i]? = some (v.testBit i) := by
  have hpos : w - 1 - i < w := by omega
  simp [codeBits, hpos, show w - 1 - (w - 1 - i) = i by omega]

/-- A code word at the head of a stream is taken whole (30 R94). -/
theorem takeCode_codeBits_append {w v : Nat} (rest : List Bool) (hv : v < 2 ^ w) :
    takeCode w (codeBits w v ++ rest) = .ok (v, rest) := by
  have hlen := length_codeBits w v
  rw [takeCode, if_neg (by simp), List.take_left' hlen, List.drop_left' hlen, bitsValue_codeBits, Nat.mod_eq_of_lt hv]

/-- The stream bits of a code-word instruction are those of the value it carries (30 R93). -/
theorem encodeCodeword_eq {i : Instr} {v : Nat} (w : Nat) (hi : codeValue i = some v) :
    encodeCodeword w i = some (codeBits w v) := by
  rw [encodeCodeword, hi]; rfl

/-- A code word read back is the instruction of the class its value has (30 R94, R97). -/
theorem decodeCodeword_codeBits_append {w v : Nat} (nc : Nat) (kw : Bool) (rest : List Bool) (hv : v < 2 ^ w) :
    decodeCodeword w nc kw (codeBits w v ++ rest) = .ok (classInstr (classify nc kw v) v, rest) := by
  rw [decodeCodeword, takeCode_codeBits_append rest hv]

/-- Settles O3: the bits of a code-word instruction are those of its value, which is taken back and classified. -/
theorem codeWordsRoundTrip : Obligations.CodeWordsRoundTrip := by
  refine ⟨fun _ v _ => getElem?_codeBits v, fun _ _ rest => takeCode_codeBits_append rest,
    fun _ _ hlt => if_pos hlt, fun i v w nc kw bits rest hi hv hclass hbits => ?_⟩
  obtain rfl : codeBits w v = bits := Option.some.inj ((encodeCodeword_eq w hi).symm.trans hbits)
  rw [decodeCodeword_codeBits_append nc kw rest hv, hclass]

/-! ### The class of a pulled value (30 R97, 43 R178) -/

/-- Settles O4: the conditions of the table exclude each other and leave no value out, and `classify` tests them in turn. -/
theorem classOfEveryCodeValue : Obligations.ClassOfEveryCodeValue := by
  intro g v hnext
  simp only [← g.kwkwkAllowed_iff, Engine.classOf]
  rcases classify_cases g.dict.nextCode g.kwkwkAllowed v with
    ⟨hv, h⟩ | ⟨h256, hlt, hv, h⟩ | ⟨h256, hlt, hv, h⟩ | ⟨h256, hv, hkw, h⟩ | ⟨h256, hle, hnot, h⟩
  all_goals simp only [h, reduceCtorEq, true_iff, false_iff]
  · omega
  · omega
  · omega
  · grind
  · grind

end Sys2Proof.Machine
end

section
/-! SUPPORT. The primitives of the Dictionary, each run on its own (spec/40_dictionary.md), and O16 to O21 and O23. -/

namespace Sys2Proof.Machine

/-! ### DICT.EXTEND (40 R123 to R125) -/

theorem Dict.extend_of_child {d : Dict} {n : NodeId} {b : Byte} {k : Nat} (hc : d.child n b = some k) :
    d.extend n b = (.matched k, d) := by
  simp [Dict.extend, hc]

theorem Dict.extend_of_full {d : Dict} {n : NodeId} {b : Byte} (hc : d.child n b = none) (hf : d.full = true) :
    d.extend n b = (.full, d) := by
  simp [Dict.extend, hc, hf]

/-- `Inserted`: the new entry takes `first` from the entry it extends, and its length and one more (40 R125). -/
theorem Dict.extend_of_entry {d : Dict} {p : Nat} {f : Entry} {b : Byte} (hp : Table.find d.tab p = some f)
    (hc : d.child (some p) b = none) (hf : d.full = false) :
    d.extend (some p) b = (.inserted d.nextCode,
      { d with
        tab := Table.put d.tab d.nextCode { parent := some p, last := b, first := f.first, len := f.len + 1 }
        nextCode := d.nextCode + 1 }) := by
  simp [Dict.extend, hc, hf, Dict.firstOf, Dict.lenOf, Dict.entry, hp]

theorem Dict.full_iff (d : Dict) : d.full = true ↔ d.maxCode ≠ 0 ∧ d.maxCode ≤ d.nextCode :=
  decide_eq_true_iff

/-- `DICT.EXTEND` run alone leaves the dictionary and the tagged value that the operation answers. -/
theorem exec_dictExtend {s : State} {z : EngineId} {n : NodeId} {b : Byte} {r : ExtendResult} {d : Dict}
    (h : (s.eng z).dict.extend n b = (r, d)) :
    exec (.dictExtend z n b) s = .next { s.setEng z { s.eng z with dict := d } with ret := r.tag } := by
  show execDictExtend z n b s = _
  rw [execDictExtend, h, State.afterPrim_ok]

/-- An answer that keeps the dictionary keeps the whole state but for the tagged value. -/
theorem exec_dictExtend_of_kept {s : State} {z : EngineId} {n : NodeId} {b : Byte} {r : ExtendResult}
    (h : (s.eng z).dict.extend n b = (r, (s.eng z).dict)) :
    exec (.dictExtend z n b) s = .next { s with ret := r.tag } := by
  rw [exec_dictExtend h, State.setEng_self]

/-- Settles O16: each of the three conditions fixes the answer of `DICT.EXTEND`. -/
theorem dictExtendResults : Obligations.DictExtendResults := by
  refine fun s z n b => ⟨fun k hc => exec_dictExtend_of_kept (Dict.extend_of_child hc), fun hc hfull => ?_, ?_⟩
  · exact exec_dictExtend_of_kept (Dict.extend_of_full hc ((Dict.full_iff _).2 hfull))
  · rintro k e hc hroom rfl he
    have hf : (s.eng z).dict.full = false := Bool.eq_false_iff.2 fun h => hroom ((Dict.full_iff _).1 h)
    exact exec_dictExtend (Dict.extend_of_entry he hc hf)

/-- Settles O17: the root has an edge for every byte. -/
theorem dictExtendRootMatches : Obligations.DictExtendRootMatches := fun _ _ b =>
  ⟨fun _ _ hc => exec_dictExtend_of_kept (Dict.extend_of_child hc),
    fun h => exec_dictExtend_of_kept (h.extend_root b)⟩

/-! ### DICT.GROW (40 R127) -/

/-- Settles O18: the three cases of `DICT.GROW` exclude each other. -/
theorem dictGrowRule : Obligations.DictGrowRule := by
  intro s z
  have hexec : exec (.dictGrow z) s = .next (s.afterPrim z (((s.eng z).grow s.build).tagged fun _ => .unit)) :=
    execDictGrow_eq z s
  rw [hexec]
  rcases (s.eng z).grow_cases s.build with ⟨hle, h⟩ | ⟨hlt, hw, h⟩ | ⟨hlt, hw, h⟩ <;> rw [h]
  · exact ⟨fun _ => by rw [Res.tagged, State.afterPrim_ok, State.setEng_self],
      fun hlt => absurd hlt hle.not_gt, fun hlt => absurd hlt hle.not_gt⟩
  · exact ⟨fun hle => absurd hlt hle.not_gt, fun _ hne => absurd hw hne, fun _ _ => rfl⟩
  · exact ⟨fun hle => absurd hlt hle.not_gt, fun _ _ => rfl, fun _ heq => absurd heq hw⟩

/-- Where `DICT.GROW` does not raise, it keeps the dictionary or widens it by one, below `MAXW` (40 R127). -/
theorem Dict.grow_eq_some {maxw : Nat} {d d' : Dict} (h : d.grow maxw = some d') :
    (d.nextCode ≤ 2 ^ d.codeWidth ∧ d' = d) ∨
    (d.codeWidth ≠ maxw ∧ d' = { d with codeWidth := d.codeWidth + 1 }) := by
  rw [Dict.grow] at h
  split at h
  · split at h
    · cases h
    · exact .inr ⟨‹_›, (Option.some.inj h).symm⟩
  · exact .inl ⟨Nat.le_of_not_gt ‹_›, (Option.some.inj h).symm⟩

/-! ### The invariants of 10 R43 (40 R135) -/

/-- An extend that leaves `next_code` within the width keeps the invariants. -/
theorem Dict.Inv.extend_of_le {maxw : Nat} {d : Dict} (h : d.Inv maxw) {n : NodeId} (b : Byte)
    (hn : n = none ∨ ∃ k, n = some k ∧ (Table.find d.tab k).isSome = true)
    (hnext : (d.extend n b).2.nextCode ≤ 2 ^ d.codeWidth) : (d.extend n b).2.Inv maxw := by
  have hinv := h.extend_widen b hn (Nat.le_refl _) h.width.2 hnext
  rwa [← d.extend_codeWidth n b] at hinv

/-- Settles O23: one code more than `2^code_width` fits the next width. -/
theorem extendAndGrowKeepTheDictionary : Obligations.ExtendAndGrowKeepTheDictionary := by
  refine fun maxw d n b h hn => ⟨h.extend_of_le b hn, fun d' hd' => ?_⟩
  rcases Dict.grow_eq_some hd' with ⟨hle, rfl⟩ | ⟨hne, rfl⟩ 
  · rw [Dict.extend_codeWidth] at hle
    exact h.extend_of_le b hn hle
  · rw [Dict.extend_codeWidth] at hne ⊢
    have hwidth := h.width.2
    have hnext : (d.extend n b).2.nextCode ≤ 2 ^ (d.codeWidth + 1) :=
      calc (d.extend n b).2.nextCode ≤ d.nextCode + 1 := (d.extend_nextCode_le n b).2
        _ ≤ 2 ^ d.codeWidth + 1 := Nat.succ_le_succ h.next.2
        _ ≤ 2 ^ (d.codeWidth + 1) := Nat.pow_lt_pow_right (by decide) (Nat.lt_succ_self _)
    exact h.extend_widen b hn (Nat.le_succ _) (by omega) hnext

/-! ### DICT.SEQ (40 R131, 10 R43 item 5) -/

/-- A sequence is as long as its entry says and begins with the entry's first byte: both pass from the parent. -/
theorem Dict.Inv.seq_length_head {maxw : Nat} {d : Dict} (h : d.Inv maxw) {k : Nat} {e : Entry}
    (he : Table.find d.tab k = some e) : (d.seq k).length = e.len ∧ (d.seq k).head? = some e.first := by
  induction k using Nat.strong_induction_on generalizing e with
  | _ k ih =>
    rw [h.seq_eq he]
    rcases h.parent_cases he with ⟨-, rfl⟩ | ⟨-, p, f, hp, hlt, hpf, hlen, hfirst⟩
    · exact ⟨rfl, rfl⟩
    · obtain ⟨hl, hh⟩ := ih p hlt hpf
      rw [hp, Dict.nodeSeq, hlen, hfirst]
      simp [hl, hh]

/-- Settles O21: the walk does not depend on the fuel, and each link adds one byte. -/
theorem dictSeqWalksTheParents : Obligations.DictSeqWalksTheParents := by
  intro s z k e h he
  refine ⟨?_, h.seq_eq he, h.seq_length_head he⟩
  show execDictSeq z k s = _
  rw [execDictSeq, State.afterPrim_ok, State.setEng_self]

/-! ### DICT.INIT and DICT.RESET (40 R121, R133) -/

/-- Settles O19: the closed form for both, with the table of the literals. -/
theorem dictInitAndReset : Obligations.DictInitAndReset := by
  rintro s z i (rfl | rfl) <;> exact ⟨(s.eng z).dict.init, rfl, rfl, rfl, literalTable_find, rfl⟩

/-! ### The loop of DICT.INIT (40 R121, R122) -/

/-- The least width from 1 up that holds `n` codes: what `DICT.GROW` after every increment keeps. -/
def loopWidth (n : Nat) : Nat := max 1 (Nat.clog 2 n)

/-- The dictionary after `n` rounds of the loop, that is after the insertion of the literals below `n`. -/
def Dict.withLiterals (d : Dict) (n : Nat) : Dict :=
  { d with codeWidth := loopWidth n, nextCode := n, tab := (List.range n).map fun b => (b, literalEntry b) }

/-- The width that holds `n` codes holds one more, or is one too small. -/
theorem loopWidth_succ (n : Nat) :
    loopWidth (n + 1) = if 2 ^ loopWidth n < n + 1 then loopWidth n + 1 else loopWidth n := by
  have hmono : Nat.clog 2 n ≤ Nat.clog 2 (n + 1) := Nat.clog_mono_right 2 (Nat.le_succ n)
  have hfits : n ≤ 2 ^ loopWidth n := (Nat.clog_le_iff_le_pow (by decide)).1 (Nat.le_max_right _ _)
  have hstep : Nat.clog 2 (n + 1) ≤ loopWidth n + 1 := by
    refine (Nat.clog_le_iff_le_pow (by decide)).2 ?_
    have := Nat.one_le_two_pow (n := loopWidth n)
    omega
  simp only [← Nat.lt_clog_iff_pow_lt (b := 2) (by decide)]
  unfold loopWidth at *
  split <;> omega

theorem loopWidth_257 : loopWidth 257 = 9 := by
  norm_num [loopWidth]

theorem loopWidth_le_nine {n : Nat} (h : n ≤ 257) : loopWidth n ≤ 9 :=
  loopWidth_257 ▸ max_le_max (Nat.le_refl 1) (Nat.clog_mono_right 2 h)

/-- One growth test after one increment keeps the width the least, and does not raise below `MAXW`. -/
theorem Dict.grow_of_loopWidth {maxw n : Nat} {d : Dict} (hw : d.codeWidth = loopWidth n) (hn : d.nextCode = n + 1)
    (hm : loopWidth (n + 1) ≤ maxw) : d.grow maxw = some { d with codeWidth := loopWidth (n + 1) } := by
  rw [loopWidth_succ] at hm ⊢
  rw [Dict.grow, hw, hn]
  split
  · rw [if_pos ‹_›] at hm
    rw [if_neg (by omega)]
  · rw [← hw, ← hn]

/-- A code above all listed ones is listed last. -/
theorem Table.put_of_lt {t : Table} {k : Nat} (e : Entry) (h : ∀ p ∈ t, p.1 < k) :
    Table.put t k e = t ++ [(k, e)] := by
  induction t with
  | nil => rfl
  | cons q t ih =>
    have hq : q.1 < k := h q List.mem_cons_self
    have htail := ih fun p hp => h p (List.mem_cons_of_mem q hp)
    rw [Table.put, if_neg (by omega), if_neg (by omega), htail, List.cons_append]

/-- One round of the loop. -/
theorem Dict.insertLiteral_withLiterals {maxw n : Nat} (d : Dict) (hm : loopWidth (n + 1) ≤ maxw) :
    (d.withLiterals n).insertLiteral maxw n = some (d.withLiterals (n + 1)) := by
  rw [Dict.insertLiteral, Dict.grow_of_loopWidth rfl rfl hm]
  simp only [Dict.withLiterals, List.range_succ, List.map_append, List.map_singleton]
  rw [Table.put_of_lt _ (by simp)]

/-- The first `n` rounds of the loop, by induction on `n`. -/
theorem Dict.foldlM_insertLiteral {maxw n : Nat} (d : Dict) (hm : 9 ≤ maxw) (hn : n ≤ 256) :
    (List.range n).foldlM (Dict.insertLiteral maxw) (d.withLiterals 0) = some (d.withLiterals n) := by
  induction n with
  | zero => rfl
  | succ n ih =>
    rw [List.range_succ, List.foldlM_append, ih (by omega)]
    have hround := d.insertLiteral_withLiterals (n := n) ((loopWidth_le_nine (by omega)).trans hm)
    simp [hround]

/-- Settles O20: 256 rounds and the reservation of code 256 widen from 1 to 9. -/
theorem dictInitLoopIsClosedForm : Obligations.DictInitLoopIsClosedForm := by
  intro B d hB
  have hm : 9 ≤ B.maxw := hB.1
  have hstart : { d with codeWidth := 1, nextCode := 0, tab := [] } = d.withLiterals 0 := by
    simp [Dict.withLiterals, loopWidth]
  rw [Dict.initByLoop, hstart, d.foldlM_insertLiteral hm (Nat.le_refl 256)]
  refine (Dict.grow_of_loopWidth (n := 256) rfl rfl ?_).trans ?_ <;> rw [loopWidth_257]
  · exact hm
  · rfl

end Sys2Proof.Machine
end

section
/-! SUPPORT. The Bit Stream Codec as operations on bit streams: a push appends, a pull takes from the front, and neither loses or makes a bit (spec/41_bitstream.md); O24 to O28. -/

namespace Sys2Proof.Machine

/-! ### Runs of stream bits (30 R93, 20 R63) -/

/-- A code word is its high bits and then its low ones. -/
theorem codeBits_add (a b v : Nat) : codeBits (a + b) v = codeBits a (v / 2 ^ b) ++ codeBits b v := by
  induction b generalizing v with
  | zero => simp [codeBits]
  | succ b ih =>
    rw [← Nat.add_assoc, codeBits_succ, codeBits_succ, ih, Nat.div_div_eq_div_mul, ← Nat.pow_succ',
      List.append_assoc]

/-- Bits of the value above the width are not laid out. -/
@[simp] theorem codeBits_mod (w v : Nat) : codeBits w (v % 2 ^ w) = codeBits w v :=
  List.map_congr_left fun i hi => by
    have : i < w := List.mem_range.1 hi
    rw [Nat.testBit_mod_two_pow, decide_eq_true (by omega), Bool.true_and]

/-- Appending `v` to an accumulator appends its bits (41 R142). -/
theorem codeBits_mul_add {w v : Nat} (a u : Nat) (hv : v < 2 ^ w) :
    codeBits (a + w) (u * 2 ^ w + v) = codeBits a u ++ codeBits w v := by
  rw [codeBits_add, ← codeBits_mod w (_ + v), Nat.mul_add_mod_self_right, Nat.mod_eq_of_lt hv, Nat.mul_comm,
    Nat.mul_add_div (Nat.two_pow_pos w), Nat.div_eq_of_lt hv, Nat.add_zero]

theorem codeBits_zero_right (w : Nat) : codeBits w 0 = List.replicate w false := by
  simp [codeBits, List.map_const']

@[simp] theorem codeBits_zero_left (v : Nat) : codeBits 0 v = [] := rfl

/-- An accumulator with `v` appended has `w` bits more. -/
theorem mul_two_pow_add_lt {a w u v : Nat} (hu : u < 2 ^ a) (hv : v < 2 ^ w) : u * 2 ^ w + v < 2 ^ (a + w) := by
  calc u * 2 ^ w + v < (u + 1) * 2 ^ w := by rw [Nat.succ_mul]; omega
    _ ≤ 2 ^ a * 2 ^ w := Nat.mul_le_mul_right _ hu
    _ = 2 ^ (a + w) := (Nat.pow_add ..).symm

@[simp] theorem streamBits_nil : streamBits [] = [] := rfl

@[simp] theorem streamBits_cons (b : Byte) (bs : List Byte) :
    streamBits (b :: bs) = codeBits 8 b.toNat ++ streamBits bs := rfl

@[simp] theorem streamBits_append (bs cs : List Byte) : streamBits (bs ++ cs) = streamBits bs ++ streamBits cs :=
  List.flatMap_append

@[simp] theorem length_streamBits (bs : List Byte) : (streamBits bs).length = 8 * bs.length := by
  induction bs with
  | nil => rfl
  | cons b bs ih => simp [ih]; omega

/-- The bits of a byte cut from a value. -/
theorem codeBits_toNat_ofNat (n : Nat) : codeBits 8 (BitVec.ofNat 8 n).toNat = codeBits 8 n := codeBits_mod 8 n

/-- The 8 oldest bits of an accumulator, and then those that stay (41 R142). -/
theorem codeBits_topByte {n : Nat} (buf : Nat) (h : 8 ≤ n) :
    codeBits n buf = codeBits 8 (topByte buf n).toNat ++ codeBits (n - 8) (buf % 2 ^ (n - 8)) := by
  have hsplit := codeBits_add 8 (n - 8) buf
  rw [Nat.add_sub_cancel' h] at hsplit
  rw [hsplit, topByte, codeBits_toNat_ofNat, Nat.shiftRight_eq_div_pow, codeBits_mod]

/-! ### BW.PUSH (41 R142, R143) -/

/-- The drain loop moves bits from the buffer to the sink and loses none. -/
theorem Engine.drain_writtenBits (B : Config.Build) (n : Nat) (g : Engine) :
    (g.drain B n).writtenBits = g.writtenBits := by
  induction n generalizing g with
  | zero => rfl
  | succ n ih =>
    rw [Engine.drain]
    split
    · next h8 =>
      rw [ih]
      simp only [Engine.writtenBits, Engine.emit_port, Port.write_snk, streamBits_append, streamBits_cons,
        streamBits_nil, List.append_nil, List.append_assoc, codeBits_topByte g.buf h8]
    · rfl

theorem Engine.append_writtenBits {v w : Nat} (g : Engine) (hv : v < 2 ^ w) :
    (g.append v w).writtenBits = g.writtenBits ++ codeBits w v := by
  simp [Engine.writtenBits, codeBits_mul_add _ _ hv]

/-- A push that completes appends the bits of its value, which fits its width (41 R142). -/
theorem Engine.push_writtenBits {B : Config.Build} {g g' : Engine} {v w : Nat} (h : g.push B v w = .ok () g') :
    g'.writtenBits = g.writtenBits ++ codeBits w v := by
  rw [Engine.push] at h
  split at h <;> cases h
  rw [Engine.drain_writtenBits, Engine.append_writtenBits g (by omega)]

theorem exec_bwPush_of_ok {s : State} {v w : Nat} {g : Engine} (h : s.enc.push s.build v w = .ok () g) :
    exec (.bwPush v w) s = .next { s with enc := g, ret := .unit } := by
  show execBwPush v w s = _
  rw [execBwPush_eq, h]
  rfl

/-- Settles O24: the shape of the answer is that of `push_ok`, and the drain loop keeps the written bits. -/
theorem bwPushAppendsTheCode : Obligations.BwPushAppendsTheCode := by
  intro s v w h1 hw hv _ hbuf hctr
  obtain ⟨out, hlen, hpush⟩ := s.enc.push_ok s.build v w h1 hw hv hbuf
  rw [countUp_iterate _ _ _ hctr] at hpush
  exact ⟨out, _, exec_bwPush_of_ok hpush, hlen, Nat.mod_lt _ (Nat.two_pow_pos _), Engine.push_writtenBits hpush⟩

/-- Settles O25: the test of the precondition comes before any work. -/
theorem bwPushRejectsABadOperand : Obligations.BwPushRejectsABadOperand := by
  intro s v w hbad
  show execBwPush v w s = _
  rw [execBwPush_eq, s.enc.push_raised s.build v w hbad]
  rfl

/-! ### BW.FLUSH (41 R144) -/

/-- A flush pads with zero bits up to the next byte boundary. -/
theorem Engine.flush_writtenBits (B : Config.Build) {g : Engine} (h : g.bits ≤ 7) :
    (g.flush B).writtenBits = g.writtenBits ++ List.replicate ((8 - g.bits) % 8) false := by
  rcases Nat.eq_zero_or_pos g.bits with h0 | hpos
  · simp [g.flush_empty B h0, h0]
  · have hpad := codeBits_mul_add g.bits g.buf (Nat.two_pow_pos (8 - g.bits))
    rw [Nat.add_sub_cancel' (by omega), Nat.add_zero, codeBits_zero_right] at hpad
    rw [g.flush_pad B hpos, Nat.mod_eq_of_lt (by omega : 8 - g.bits < 8)]
    simp only [Engine.writtenBits, Port.gained_snk, streamBits_append, streamBits_cons, streamBits_nil,
      codeBits_toNat_ofNat, hpad, codeBits_zero_left, List.append_nil, List.append_assoc]

theorem Engine.flush_bits (B : Config.Build) (g : Engine) : (g.flush B).bits = 0 := by
  rcases Nat.eq_zero_or_pos g.bits with h0 | hpos
  · rw [g.flush_empty B h0, h0]
  · rw [g.flush_pad B hpos]

theorem exec_bwFlush (s : State) : exec .bwFlush s = .next { s with enc := s.enc.flush s.build, ret := .unit } := rfl

/-- Settles O26: the pad completes one byte, and a flushed engine has no bits left to flush. -/
theorem bwFlushPadsWithZeros : Obligations.BwFlushPadsWithZeros := by
  refine fun s h7 _ => ⟨fun h0 => ?_,
    fun hpos => ⟨BitVec.ofNat 8 (s.enc.buf * 2 ^ (8 - s.enc.bits)), ?_, ?_⟩, fun t ht => ?_⟩
  · rw [exec_bwFlush, s.enc.flush_empty s.build h0]
  · rw [exec_bwFlush, s.enc.flush_pad s.build hpos]
    rfl
  · have hbits := Engine.flush_writtenBits s.build h7
    rw [s.enc.flush_pad s.build hpos, Nat.mod_eq_of_lt (by omega)] at hbits
    exact hbits
  · rw [exec_bwFlush] at ht
    cases ht
    rw [exec_bwFlush, Engine.flush_empty _ _ (s.enc.flush_bits s.build)]

/-! ### BR.PULL (41 R146 to R148) -/

theorem Engine.length_unreadBits (g : Engine) :
    g.unreadBits.length = g.bits + 8 * (g.port.src.length - g.port.pos) := by
  simp [Engine.unreadBits]

/-- The refill loop moves bits from the source to the buffer and loses none. -/
theorem Engine.refill_unreadBits (B : Config.Build) (w n : Nat) (g : Engine) :
    (g.refill B w n).unreadBits = g.unreadBits := by
  induction n generalizing g with
  | zero => rfl
  | succ n ih =>
    rw [Engine.refill]
    split
    · rcases g.takeByte_cases B with ⟨-, ht⟩ | ⟨hlt, ht⟩ <;> rw [ht]
      · rfl
      · have happend : codeBits (g.bits + 8) (g.buf * 256 + g.port.src[g.port.pos].toNat) = _ :=
          codeBits_mul_add g.bits g.buf g.port.src[g.port.pos].isLt
        rw [ih]
        simp only [Engine.unreadBits, Port.advanced_src, Port.advanced_pos, List.drop_eq_getElem_cons hlt,
          streamBits_cons, happend, List.append_assoc]
    · rfl

/-- The refill loop keeps the buffer within its bit count (41 R148). -/
theorem Engine.refill_buf_lt (B : Config.Build) (w n : Nat) {g : Engine} (h : g.buf < 2 ^ g.bits) :
    (g.refill B w n).buf < 2 ^ (g.refill B w n).bits := by
  induction n generalizing g with
  | zero => exact h
  | succ n ih =>
    rw [Engine.refill]
    split
    · rcases g.takeByte_cases B with ⟨-, ht⟩ | ⟨hlt, ht⟩ <;> rw [ht]
      · exact h
      · exact ih (mul_two_pow_add_lt h g.port.src[g.port.pos].isLt)
    · exact h

theorem Engine.refill_eq_self (B : Config.Build) {w : Nat} (n : Nat) {g : Engine} (h : w ≤ g.bits) :
    g.refill B w n = g := by
  cases n with
  | zero => rfl
  | succ n => rw [Engine.refill, if_neg (by omega)]

/-- A pull keeps the buffer within its bit count (41 R148). -/
theorem Engine.pull_buf_lt {B : Config.Build} {w : Nat} {g g' : Engine} {r : Option Nat} (hb : g.buf < 2 ^ g.bits)
    (h : g.pull B w = (r, g')) : g'.buf < 2 ^ g'.bits := by
  rw [Engine.pull] at h
  split at h <;> cases h
  · exact g.refill_buf_lt B w w hb
  · exact Nat.mod_lt _ (Nat.two_pow_pos _)

/-- At the end of the input no unread bit is lost (41 R147). -/
theorem Engine.unreadBits_of_pull_none {B : Config.Build} {w : Nat} {g g' : Engine} (h : g.pull B w = (none, g')) :
    g'.unreadBits = g.unreadBits := by
  rw [Engine.pull] at h
  split at h <;> cases h
  exact g.refill_unreadBits B w w

/-- A pulled value was at the front of the unread bits (41 R146). -/
theorem Engine.unreadBits_of_pull_some {B : Config.Build} {w v : Nat} {g g' : Engine} (h : g.pull B w = (some v, g')) :
    g.unreadBits = codeBits w v ++ g'.unreadBits := by
  rw [Engine.pull] at h
  rw [← g.refill_unreadBits B w w]
  split at h <;> cases h
  next hle =>
  have hsplit := codeBits_add w ((g.refill B w w).bits - w) (g.refill B w w).buf
  rw [Nat.add_sub_cancel' (Nat.le_of_not_lt hle)] at hsplit
  simp only [Engine.unreadBits, hsplit, codeBits_mod, Nat.shiftRight_eq_div_pow, List.append_assoc]

theorem Engine.pull_some_lt {B : Config.Build} {w v : Nat} {g g' : Engine} (hb : g.buf < 2 ^ g.bits)
    (h : g.pull B w = (some v, g')) : v < 2 ^ w := by
  rw [Engine.pull] at h
  split at h <;> cases h
  next hle =>
  rw [Nat.shiftRight_eq_div_pow]
  apply Nat.div_lt_of_lt_mul
  rw [← Nat.pow_add, Nat.sub_add_cancel (Nat.le_of_not_lt hle)]
  exact g.refill_buf_lt B w w hb

/-- A pulled value is the value of the first `w` unread bits, and the others stay unread (41 R146). -/
theorem Engine.pull_some_eq {B : Config.Build} {w v : Nat} {g g' : Engine} (hb : g.buf < 2 ^ g.bits)
    (h : g.pull B w = (some v, g')) :
    v = bitsValue (g.unreadBits.take w) ∧ g'.unreadBits = g.unreadBits.drop w := by
  have hlen := length_codeBits w v
  rw [Engine.unreadBits_of_pull_some h, List.take_left' hlen, List.drop_left' hlen, bitsValue_codeBits,
    Nat.mod_eq_of_lt (Engine.pull_some_lt hb h)]
  exact ⟨rfl, rfl⟩

/-- A pull that returns a value takes a byte only for want of bits, so it leaves the residue it had, or less than a
byte. -/
theorem Engine.pull_some_bits_le {B : Config.Build} {w v : Nat} {g g' : Engine} (h : g.pull B w = (some v, g')) :
    g'.bits ≤ max (g.bits - w) 7 := by
  have hbits : g'.bits = (g.refill B w w).bits - w := by
    rw [Engine.pull] at h
    split at h <;> cases h
    rfl
  rcases Nat.lt_or_ge g.bits w with hlt | hge
  · have := g.refill_bits_lt B w w (by omega)
    omega
  · rw [hbits, Engine.refill_eq_self B w hge]
    omega

theorem exec_brPull_of_eq {s : State} {w : Nat} {r : Option Nat} {g : Engine} (h : s.dec.pull s.build w = (r, g)) :
    exec (.brPull w) s = .next { s with dec := g, ret := pulledTag r } := by
  show execBrPull w s = _
  rw [execBrPull, h]
  rfl

/-- Settles O27: the two answers of `pull_cases`; the bit count a pull leaves fixes how many bytes it read. -/
theorem brPullTakesTheNextBits : Obligations.BrPullTakesTheNextBits := by
  intro s w _ hbuf hsrc hctr
  have hlen := s.dec.length_unreadBits
  obtain ⟨m, v, -, hpos, ⟨hshort, hend, hpull⟩ | ⟨hlong, hpull⟩⟩ := s.dec.pull_cases s.build w hsrc <;>
    rw [countUp_iterate _ _ _ hctr] at hpull
  · obtain rfl : m = s.dec.port.src.length - s.dec.port.pos := by omega
    exact ⟨fun h => by omega, fun _ => ⟨_, exec_brPull_of_eq hpull, Engine.pull_buf_lt hbuf hpull,
      Engine.unreadBits_of_pull_none hpull⟩⟩
  · have hbits : s.dec.bits + 8 * m - w ≤ max (s.dec.bits - w) 7 := Engine.pull_some_bits_le hpull
    obtain rfl : m = (w - s.dec.bits + 7) / 8 := by omega
    obtain ⟨hval, hrest⟩ := Engine.pull_some_eq hbuf hpull
    rw [hval] at hpull
    exact ⟨fun _ => ⟨_, exec_brPull_of_eq hpull, Engine.pull_buf_lt hbuf hpull, hrest⟩, fun h => by omega⟩

/-! ### A writer and a reader of its bytes (41 R151) -/

/-- The stream bits of (value, width) pairs, one code word after the other. -/
def pairBits (l : List (Nat × Nat)) : List Bool := l.flatMap fun p => codeBits p.2 p.1

@[simp] theorem pairBits_cons (v w : Nat) (l : List (Nat × Nat)) :
    pairBits ((v, w) :: l) = codeBits w v ++ pairBits l := rfl

theorem length_pairBits (l : List (Nat × Nat)) : (pairBits l).length = (l.map Prod.snd).sum := by
  simp [pairBits, List.length_flatMap]

/-- A push within its precondition appends its code word and leaves less than a byte (41 R141, R142). -/
theorem Engine.push_appends {B : Config.Build} {g : Engine} {v w : Nat} (h1 : 1 ≤ w) (h2 : w ≤ B.maxw)
    (hv : v < 2 ^ w) (hb : g.buf < 2 ^ g.bits) :
    ∃ g', g.push B v w = .ok () g' ∧ (g'.bits ≤ 7 ∧ g'.buf < 2 ^ g'.bits) ∧
      g'.writtenBits = g.writtenBits ++ codeBits w v := by
  obtain ⟨out, -, hpush⟩ := g.push_ok B v w h1 h2 hv hb
  exact ⟨_, hpush, ⟨Nat.le_of_lt_succ (Nat.mod_lt _ (by decide)), Nat.mod_lt _ (Nat.two_pow_pos _)⟩,
    Engine.push_writtenBits hpush⟩

/-- Pushes within their precondition complete and append their code words. -/
theorem Engine.pushAll_ok {B : Config.Build} {l : List (Nat × Nat)} {g : Engine}
    (hl : ∀ p ∈ l, 1 ≤ p.2 ∧ p.2 ≤ B.maxw ∧ p.1 < 2 ^ p.2) (hb : g.bits ≤ 7 ∧ g.buf < 2 ^ g.bits) :
    ∃ g', g.pushAll B l = .ok () g' ∧ (g'.bits ≤ 7 ∧ g'.buf < 2 ^ g'.bits) ∧
      g'.writtenBits = g.writtenBits ++ pairBits l := by
  induction l generalizing g with
  | nil => exact ⟨g, rfl, hb, (List.append_nil _).symm⟩
  | cons p l ih =>
    obtain ⟨v, w⟩ := p
    obtain ⟨⟨h1, hw, hv⟩, hl⟩ := List.forall_mem_cons.1 hl
    obtain ⟨g1, hpush, hb1, hbits1⟩ := Engine.push_appends h1 hw hv hb.2
    obtain ⟨g', hall, hb', hbits⟩ := ih hl hb1
    refine ⟨g', by rw [Engine.pushAll, hpush]; exact hall, hb', ?_⟩
    rw [hbits, hbits1, pairBits_cons, List.append_assoc]

/-- A pull at the width of a code word at the front of the unread bits returns its value. -/
theorem Engine.pull_of_codeBits {B : Config.Build} {w v : Nat} {g : Engine} {rest : List Bool}
    (hb : g.buf < 2 ^ g.bits) (hp : g.port.pos ≤ g.port.src.length) (hv : v < 2 ^ w)
    (hu : g.unreadBits = codeBits w v ++ rest) :
    ∃ g', g.pull B w = (some v, g') ∧ g'.buf < 2 ^ g'.bits ∧ g'.port.pos ≤ g'.port.src.length ∧
      g'.unreadBits = rest := by
  have hlen := length_codeBits w v
  obtain ⟨m, x, -, hpos, ⟨hshort, hend, -⟩ | ⟨-, hpull⟩⟩ := g.pull_cases B w hp
  · have hle : w ≤ g.unreadBits.length := by simp [hu]
    have := g.length_unreadBits
    omega
  · obtain ⟨hval, hrest⟩ := Engine.pull_some_eq hb hpull
    rw [hu, List.take_left' hlen, bitsValue_codeBits, Nat.mod_eq_of_lt hv] at hval
    rw [hu, List.drop_left' hlen] at hrest
    rw [hval] at hpull
    exact ⟨_, hpull, Engine.pull_buf_lt hb hpull, hpos, hrest⟩

/-- Pulls at the widths of code words at the front of the unread bits return their values and leave the rest. -/
theorem Engine.pullAll_of_pairBits {B : Config.Build} {l : List (Nat × Nat)} {g : Engine} {rest : List Bool}
    (hb : g.buf < 2 ^ g.bits) (hp : g.port.pos ≤ g.port.src.length) (hl : ∀ p ∈ l, p.1 < 2 ^ p.2)
    (hu : g.unreadBits = pairBits l ++ rest) :
    ∃ g', g.pullAll B (l.map Prod.snd) = (l.map fun p => some p.1, g') ∧ g'.buf < 2 ^ g'.bits ∧
      g'.unreadBits = rest := by
  induction l generalizing g with
  | nil => exact ⟨g, rfl, hb, hu⟩
  | cons p l ih =>
    obtain ⟨v, w⟩ := p
    obtain ⟨hv, hl⟩ := List.forall_mem_cons.1 hl
    rw [pairBits_cons, List.append_assoc] at hu
    obtain ⟨g1, hpull, hb1, hp1, hu1⟩ := Engine.pull_of_codeBits (B := B) hb hp hv hu
    obtain ⟨g', hall, hb', hu'⟩ := ih hb1 hp1 hl hu1
    exact ⟨g', by simp [Engine.pullAll, hpull, hall], hb', hu'⟩

/-- A reader with fewer than 8 unread bits, all zero, has them in its buffer, which is 0. -/
theorem Engine.residue_of_zeros {g : Engine} {n : Nat} (hn : n < 8) (hb : g.buf < 2 ^ g.bits)
    (hu : g.unreadBits = List.replicate n false) : g.bits = n ∧ g.buf = 0 := by
  have hlen := g.length_unreadBits
  rw [hu, List.length_replicate] at hlen
  have hbits : g.bits = n := by omega
  have hend : g.port.src.length ≤ g.port.pos := by omega
  have hres : codeBits g.bits g.buf = codeBits g.bits 0 := by
    rw [codeBits_zero_right, hbits, ← hu, Engine.unreadBits, List.drop_eq_nil_of_le hend, streamBits_nil,
      List.append_nil, hbits]
  have hval := congrArg bitsValue hres
  rw [bitsValue_codeBits, bitsValue_codeBits, Nat.mod_eq_of_lt hb, Nat.zero_mod] at hval
  exact ⟨hbits, hval⟩

/-- Settles O28: the reader's unread bits are the bits the writer wrote, which are the code words and the pad. -/
theorem writerReaderDuality : Obligations.WriterReaderDuality := by
  intro B l g hl hbits hbuf hsnk
  obtain ⟨g', hall, ⟨h7, -⟩, hwritten⟩ := Engine.pushAll_ok hl (g := g) (by simp [hbits, hbuf])
  have hstream : streamBits (g'.flush B).port.snk = pairBits l ++ List.replicate ((8 - g'.bits) % 8) false := by
    have hflush := Engine.flush_writtenBits B h7
    rw [hwritten] at hflush
    simpa [Engine.writtenBits, Engine.flush_bits, hsnk, hbits] using hflush
  have hpad : (8 - g'.bits) % 8 = (8 - (l.map Prod.snd).sum % 8) % 8 := by
    have hlen := congrArg List.length hstream
    rw [length_streamBits, List.length_append, length_pairBits, List.length_replicate] at hlen
    omega
  refine ⟨g', hall, fun h hb0 hv0 hsrc hpos => ?_⟩
  have hunread : h.unreadBits = pairBits l ++ List.replicate ((8 - g'.bits) % 8) false := by
    rw [Engine.unreadBits, hb0, hpos, hsrc, List.drop_zero, codeBits_zero_left, List.nil_append, hstream]
  obtain ⟨h', hpulls, hb', hrest⟩ :=
    Engine.pullAll_of_pairBits (B := B) (by simp [hb0, hv0]) (by simp [hpos]) (fun p hp => (hl p hp).2.2) hunread
  obtain ⟨hres, hzero⟩ := Engine.residue_of_zeros (Nat.mod_lt _ (by decide)) hb' hrest
  rw [hpulls]
  exact ⟨rfl, hres.trans hpad, hzero⟩

end Sys2Proof.Machine
end

section
/-! SUPPORT. What the encoder writes, the exact effect of ENC.BYTE, ENC.PENDING and ENC_END under the encoder
invariants (spec/42_encoder.md); O31 to O34 and O39. -/

namespace Sys2Proof.Machine

/-! ### Stream bits written (41 R142, R144) -/

/-- `g'` is `g` after the stream bits `bs` were written: whole bytes went to the sink, each counted, less than a byte
stays in the buffer, and nothing else changed. -/
def Engine.Writes (B : Config.Build) (bs : List Bool) (g g' : Engine) : Prop :=
  ∃ (out : List Byte) (bits buf : Nat),
    g' = { g with
      bits := bits
      buf := buf
      bytesWritten := (countUp B)^[out.length] g.bytesWritten
      port := g.port.gained out } ∧
    (bits ≤ 7 ∧ buf < 2 ^ bits) ∧ g'.writtenBits = g.writtenBits ++ bs

theorem Engine.Writes.refl {B : Config.Build} {g : Engine} (h : g.bits ≤ 7 ∧ g.buf < 2 ^ g.bits) :
    g.Writes B [] g := ⟨[], g.bits, g.buf, by simp, h, by simp⟩

theorem Engine.Writes.trans {B : Config.Build} {bs cs : List Bool} {g g' g'' : Engine} (h : g.Writes B bs g')
    (h' : g'.Writes B cs g'') : g.Writes B (bs ++ cs) g'' := by
  obtain ⟨out, bits, buf, hg, -, hbits⟩ := h
  obtain ⟨out', bits', buf', hg', hres, hbits'⟩ := h'
  refine ⟨out ++ out', bits', buf', ?_, hres, by rw [hbits', hbits, List.append_assoc]⟩
  rw [hg', hg]
  simp only [Port.gained_gained, List.length_append, Nat.add_comm out.length, Function.iterate_add_apply]

theorem Engine.Writes.dict {B : Config.Build} {bs : List Bool} {g g' : Engine} (h : g.Writes B bs g') :
    g'.dict = g.dict := by
  obtain ⟨_, _, _, rfl, -⟩ := h; rfl

theorem Engine.Writes.node {B : Config.Build} {bs : List Bool} {g g' : Engine} (h : g.Writes B bs g') :
    g'.node = g.node := by
  obtain ⟨_, _, _, rfl, -⟩ := h; rfl

theorem Engine.Writes.residue {B : Config.Build} {bs : List Bool} {g g' : Engine} (h : g.Writes B bs g') :
    g'.bits ≤ 7 ∧ g'.buf < 2 ^ g'.bits := by
  obtain ⟨_, _, _, rfl, hres, -⟩ := h; exact hres

theorem Engine.Writes.writtenBits {B : Config.Build} {bs : List Bool} {g g' : Engine} (h : g.Writes B bs g') :
    g'.writtenBits = g.writtenBits ++ bs := by
  obtain ⟨_, _, _, -, -, hbits⟩ := h; exact hbits

/-- Writing does not look at the cursor. -/
theorem Engine.Writes.setNode {B : Config.Build} {bs : List Bool} {g g' : Engine} (h : g.Writes B bs g') (n : NodeId) :
    ({ g with node := n } : Engine).Writes B bs { g' with node := n } := by
  obtain ⟨out, bits, buf, rfl, hres, hbits⟩ := h
  exact ⟨out, bits, buf, rfl, hres, hbits⟩

theorem Engine.length_writtenBits (g : Engine) : g.writtenBits.length = 8 * g.port.snk.length + g.bits := by
  simp [Engine.writtenBits]

/-- The number of bits written fixes the residue and the number of bytes that left (41 R142, 10 R29). -/
theorem Engine.Writes.exact {B : Config.Build} {bs : List Bool} {g g' : Engine} (h : g.Writes B bs g')
    (hctr : g.bytesWritten < 2 ^ B.ctrw) :
    ∃ (out : List Byte) (buf : Nat),
      g' = { g with
        bits := (g.bits + bs.length) % 8
        buf := buf
        bytesWritten := (g.bytesWritten + (g.bits + bs.length) / 8) % 2 ^ B.ctrw
        port := g.port.gained out } ∧
      buf < 2 ^ ((g.bits + bs.length) % 8) := by
  obtain ⟨out, bits, buf, rfl, ⟨h7, hbuf⟩, hbits⟩ := h
  have hlen := congrArg List.length hbits
  simp only [Engine.length_writtenBits, List.length_append, Port.gained_snk] at hlen
  obtain rfl : bits = (g.bits + bs.length) % 8 := by omega
  have hout : out.length = (g.bits + bs.length) / 8 := by omega
  exact ⟨out, buf, by rw [countUp_iterate B _ _ hctr, hout], hbuf⟩

/-- A push within its precondition (41 R142). -/
theorem Engine.writes_push {B : Config.Build} {g : Engine} {v w : Nat} (h1 : 1 ≤ w) (h2 : w ≤ B.maxw)
    (hv : v < 2 ^ w) (hb : g.buf < 2 ^ g.bits) : ∃ g', g.push B v w = .ok () g' ∧ g.Writes B (codeBits w v) g' := by
  obtain ⟨out, hlen, hpush⟩ := g.push_ok B v w h1 h2 hv hb
  exact ⟨_, hpush, out, _, _, by rw [hlen],
    ⟨Nat.le_of_lt_succ (Nat.mod_lt _ (by decide)), Nat.mod_lt _ (Nat.two_pow_pos _)⟩, Engine.push_writtenBits hpush⟩

/-- The pad to a byte boundary (41 R144). -/
theorem Engine.writes_flush (B : Config.Build) {g : Engine} (h : g.bits ≤ 7 ∧ g.buf < 2 ^ g.bits) :
    g.Writes B (List.replicate ((8 - g.bits) % 8) false) (g.flush B) := by
  have hbits := Engine.flush_writtenBits B h.1
  rcases Nat.eq_zero_or_pos g.bits with h0 | hpos
  · rw [g.flush_empty B h0, h0]; exact .refl h
  · rw [g.flush_pad B hpos] at hbits ⊢
    exact ⟨[_], 0, 0, rfl, ⟨Nat.zero_le 7, Nat.one_pos⟩, hbits⟩

/-! ### The emission of the cursor (42 R157, R160) -/

theorem Engine.pendingBits_of_node {g : Engine} {k : Nat} (h : g.node = some k) :
    g.pendingBits = codeBits g.dict.codeWidth k := by
  simp only [Engine.pendingBits, h]

theorem Engine.pendingBits_of_root {g : Engine} (h : g.node = none) : g.pendingBits = [] := by
  simp only [Engine.pendingBits, h]

/-- The pending bits depend on the cursor and the width only. -/
theorem Engine.pendingBits_setDict {g : Engine} {d : Dict} (hw : d.codeWidth = g.dict.codeWidth) :
    ({ g with dict := d } : Engine).pendingBits = g.pendingBits := by
  simp only [Engine.pendingBits, hw]

theorem Engine.CanEmit.emitCursor {B : Config.Build} {g : Engine} (h : g.CanEmit B) :
    ∃ g', g.emitCursor B = .ok () g' ∧ g.Writes B g.pendingBits g' := by
  rcases hn : g.node with _ | k
  · rw [Engine.pendingBits_of_root hn]
    exact ⟨g, by simp only [Engine.emitCursor, hn], .refl h.buffer⟩
  · obtain ⟨g', hpush, hw⟩ := Engine.writes_push h.width.1 h.width.2 (h.cursor k hn) h.buffer.2
    rw [Engine.pendingBits_of_node hn]
    exact ⟨g', by simp only [Engine.emitCursor, hn, hpush], hw⟩

/-- `ENC.PENDING` writes the pending bits and sends the cursor to the root (42 R160). -/
theorem Engine.CanEmit.encPending {B : Config.Build} {g : Engine} (h : g.CanEmit B) :
    ∃ g', g.encPending B = .ok () { g' with node := none } ∧ g.Writes B g.pendingBits g' := by
  obtain ⟨g', he, hw⟩ := h.emitCursor
  exact ⟨g', by simp only [Engine.encPending, he], hw⟩

/-! ### DICT.GROW after DICT.EXTEND (40 R127, 42 R158) -/

/-- Everything `DICT.GROW` can answer, on the dictionary alone (40 R127). -/
theorem Dict.grow_cases (maxw : Nat) (d : Dict) :
    (d.nextCode ≤ 2 ^ d.codeWidth ∧ d.grow maxw = some d) ∨
    (2 ^ d.codeWidth < d.nextCode ∧ d.codeWidth = maxw ∧ d.grow maxw = none) ∨
    (2 ^ d.codeWidth < d.nextCode ∧ d.codeWidth ≠ maxw ∧
      d.grow maxw = some { d with codeWidth := d.codeWidth + 1 }) := by
  by_cases h : 2 ^ d.codeWidth < d.nextCode
  · by_cases hw : d.codeWidth = maxw
    · exact .inr (.inl ⟨h, hw, by rw [Dict.grow, if_pos h, if_pos hw]⟩)
    · exact .inr (.inr ⟨h, hw, by rw [Dict.grow, if_pos h, if_neg hw]⟩)
  · exact .inl ⟨Nat.le_of_not_lt h, by rw [Dict.grow, if_neg h]⟩

theorem Dict.grow_of_le {maxw : Nat} {d : Dict} (h : d.nextCode ≤ 2 ^ d.codeWidth) : d.grow maxw = some d := by
  rw [Dict.grow, if_neg (Nat.not_lt.2 h)]

theorem Engine.grow_of_some {B : Config.Build} {g : Engine} {d : Dict} (h : g.dict.grow B.maxw = some d) :
    g.grow B = .ok () { g with dict := d } := by
  simp only [Engine.grow, h]

theorem Engine.grow_of_none {B : Config.Build} {g : Engine} (h : g.dict.grow B.maxw = none) :
    g.grow B = .raised (g.raise .capacityViolation g.dict.nextCode) := by
  simp only [Engine.grow, h]

/-- Where the extend did not insert, the growth test that `ENC.BYTE` leaves out would do nothing. -/
theorem Engine.growIfInserted_extend {B : Config.Build} {g : Engine} {d : Dict} {n : NodeId} {c : Byte}
    (hd : d.nextCode ≤ 2 ^ d.codeWidth) (hg : g.dict = (d.extend n c).2) :
    g.growIfInserted B (d.extend n c).1 = g.grow B := by
  rcases d.extend_cases n c with ⟨k, -, he⟩ | ⟨-, -, he⟩ | ⟨-, -, he⟩ <;> rw [he] at hg ⊢
  · rw [Engine.grow_of_some (Dict.grow_of_le (hg ▸ hd))]; rfl
  · rw [Engine.grow_of_some (Dict.grow_of_le (hg ▸ hd))]; rfl
  · rfl

/-! ### ENC.BYTE (42 R157, R158) -/

theorem Engine.encByte_of_child {B : Config.Build} {c : Byte} {g : Engine} {k : Nat}
    (h : g.dict.child g.node c = some k) : g.encByte B c = .ok () { g with node := some k } := by
  rcases g.encByte_cases B c with ⟨j, hj, he⟩ | ⟨hn, -⟩
  · rw [he, Option.some.inj (hj.symm.trans h)]
  · rw [hn] at h; cases h

/-- The emission step: the pending bits are written at the width the cursor had, whatever the growth test does then. -/
theorem Engine.CanEmit.encByte {B : Config.Build} {c : Byte} {g : Engine} (h : g.CanEmit B)
    (hc : g.dict.child g.node c = none) :
    ∃ g1, ({ g with dict := (g.dict.extend g.node c).2 } : Engine).Writes B g.pendingBits g1 ∧
      (∀ g2, g1.growIfInserted B (g.dict.extend g.node c).1 = .ok () g2 → g.encByte B c = .ok () (g2.restart c)) ∧
      (∀ g2, g1.growIfInserted B (g.dict.extend g.node c).1 = .raised g2 → g.encByte B c = .raised g2) := by
  have hw : (g.dict.extend g.node c).2.codeWidth = g.dict.codeWidth := g.dict.extend_codeWidth g.node c
  have hcan : ({ g with dict := (g.dict.extend g.node c).2 } : Engine).CanEmit B :=
    ⟨by rw [hw]; exact h.width, h.buffer, by rw [hw]; exact h.cursor⟩
  obtain ⟨g1, he, hg1⟩ := hcan.emitCursor
  rw [Engine.pendingBits_setDict hw] at hg1
  rcases g.encByte_cases B c with ⟨k, hk, -⟩ | ⟨-, hb⟩
  · rw [hk] at hc; cases hc
  · exact ⟨g1, hg1, fun g2 h2 => by simp only [hb, Engine.emitAndRestart, he, h2],
      fun g2 h2 => by simp only [hb, Engine.emitAndRestart, he, h2]⟩

/-- The restart finds the literal's node and leaves a sound dictionary alone (40 R124). -/
theorem Engine.restart_of_inv {maxw : Nat} {g : Engine} (h : g.dict.Inv maxw) (c : Byte) :
    g.restart c = { g with node := some c.toNat } := by
  rw [Engine.restart, h.extend_root c]

/-- `ENC.BYTE` without a match, under the invariants: the pending bits are written, and the growth test on the extended
dictionary decides whether the match restarts or the byte raises. -/
theorem Engine.EncInv.encByte_emits {B : Config.Build} {g : Engine} (h : g.EncInv B) (hr : g.st = .ready) {c : Byte}
    (hc : g.dict.child g.node c = none) :
    ∃ g1, ({ g with dict := (g.dict.extend g.node c).2 } : Engine).Writes B g.pendingBits g1 ∧
      (∀ d, (g.dict.extend g.node c).2.grow B.maxw = some d →
        g.encByte B c = .ok () { g1 with dict := d, node := some c.toNat }) ∧
      ((g.dict.extend g.node c).2.grow B.maxw = none → ∃ g2, g.encByte B c = .raised g2) := by
  have hd := h.dictInv hr
  obtain ⟨g1, hw, hok, hraise⟩ := (h.canEmit hr).encByte hc
  have hd1 : g1.dict = (g.dict.extend g.node c).2 := hw.dict
  rw [Engine.growIfInserted_extend hd.next.2 hd1] at hok hraise
  refine ⟨g1, hw, fun d hg => ?_, fun hg => ?_⟩ <;> rw [← hd1] at hg
  · have hinv : d.Inv B.maxw := (extendAndGrowKeepTheDictionary B.maxw g.dict g.node c hd (h.cursor hr)).2 d
      (hd1 ▸ hg)
    rw [hok _ (Engine.grow_of_some hg), Engine.restart_of_inv hinv]
  · exact ⟨_, hraise _ (Engine.grow_of_none hg)⟩

/-- The dictionary of a byte that completes: `DICT.EXTEND` and then `DICT.GROW`. -/
theorem Engine.EncInv.encByte_dict {B : Config.Build} {g g' : Engine} (h : g.EncInv B) (hr : g.st = .ready) {c : Byte}
    (he : g.encByte B c = .ok () g') : (g.dict.extend g.node c).2.grow B.maxw = some g'.dict := by
  rcases hc : g.dict.child g.node c with _ | k
  · obtain ⟨g1, -, hok, hraise⟩ := h.encByte_emits hr hc
    rcases hg : (g.dict.extend g.node c).2.grow B.maxw with _ | d
    · obtain ⟨g2, h2⟩ := hraise hg
      rw [h2] at he; cases he
    · rw [hok d hg] at he; cases he; rfl
  · rw [Engine.encByte_of_child hc] at he
    cases he
    rw [Dict.extend_of_child hc]
    exact Dict.grow_of_le (h.dictInv hr).next.2

/-- A byte completes where its insertion, if it makes one, stays within `2^MAXW` codes. -/
theorem Engine.EncInv.encByte_completes {B : Config.Build} {g : Engine} (h : g.EncInv B) (hr : g.st = .ready) (c : Byte)
    (hroom : g.dict.full = true ∨ g.dict.nextCode < 2 ^ B.maxw) : ∃ g', g.encByte B c = .ok () g' := by
  rcases hc : g.dict.child g.node c with _ | k
  · obtain ⟨g1, -, hok, -⟩ := h.encByte_emits hr hc
    rcases (g.dict.extend g.node c).2.grow_cases B.maxw with ⟨-, hg⟩ | ⟨hlt, hw, -⟩ | ⟨-, -, hg⟩
    · exact ⟨_, hok _ hg⟩
    · rw [Dict.extend_codeWidth] at hlt hw
      rcases hroom with hf | hn
      · rw [Dict.extend_of_full hc hf] at hlt
        exact absurd hlt (Nat.not_lt.2 (h.dictInv hr).next.2)
      · have := (g.dict.extend_nextCode_le g.node c).2
        rw [hw] at hlt
        omega
    · exact ⟨_, hok _ hg⟩
  · exact ⟨_, Engine.encByte_of_child hc⟩

/-! ### The primitives run alone -/

theorem exec_encByte_of_ok {s : State} {c : Byte} {g : Engine} (h : s.enc.encByte s.build c = .ok () g) :
    exec (.encByte c) s = .next { s with enc := g, ret := .unit } := by
  show execEncByte c s = _
  rw [execEncByte_eq, h]
  rfl

theorem exec_encByte_of_raised {s : State} {c : Byte} {g : Engine} (h : s.enc.encByte s.build c = .raised g) :
    exec (.encByte c) s = .next { s with enc := g, ret := .raised } := by
  show execEncByte c s = _
  rw [execEncByte_eq, h]
  rfl

theorem exec_encPending_of_ok {s : State} {g : Engine} (h : s.enc.encPending s.build = .ok () g) :
    exec .encPending s = .next { s with enc := g, ret := .unit } := by
  show execEncPending s = _
  rw [execEncPending_eq, h]
  rfl

/-- Settles O31: a match ends the byte's step. -/
theorem encByteMatched : Obligations.EncByteMatched :=
  fun _ _ _ h => exec_encByte_of_ok (Engine.encByte_of_child h)

/-- The dictionary of `ENC.BYTE` without a match, where the growth test does not raise (42 R157, R166). -/
theorem Dict.extend_grow_eq {maxw : Nat} {d : Dict} {n : NodeId} {c : Byte} (hd : d.nextCode ≤ 2 ^ d.codeWidth)
    (hc : d.child n c = none) (hcap : ¬(d.full = false ∧ d.codeWidth = maxw ∧ d.nextCode = 2 ^ maxw)) :
    (d.extend n c).2.grow maxw = some
      (if d.full then d
      else
        { d with
          tab := Table.put d.tab d.nextCode
            { parent := n, last := c, first := d.firstOf n, len := d.lenOf n + 1 }
          nextCode := d.nextCode + 1
          codeWidth := if 2 ^ d.codeWidth < d.nextCode + 1 then d.codeWidth + 1 else d.codeWidth }) := by
  rcases d.extend_cases n c with ⟨k, hk, -⟩ | ⟨-, hf, he⟩ | ⟨-, hf, he⟩
  · rw [hk] at hc; cases hc
  · rw [he, if_pos hf]; exact Dict.grow_of_le hd
  · simp only [he, hf, Dict.grow, Bool.false_eq_true, if_false]
    split
    · next hbig =>
      rw [if_neg]
      exact fun hw => hcap ⟨hf, hw, Nat.le_antisymm (hw ▸ hd) (Nat.le_of_lt_succ (hw ▸ hbig))⟩
    · rfl

/-- Settles O32: the pending bits, then the extended and grown dictionary and the restart. -/
theorem encByteEmits : Obligations.EncByteEmits := by
  intro s c k h hr _ hn hc hcap
  rw [← hn] at hc
  obtain ⟨g1, hw, hok, -⟩ := h.encByte_emits hr hc
  have hbyte := hok _ (Dict.extend_grow_eq (h.dictInv hr).next.2 hc hcap)
  obtain ⟨out, buf, heq, hbuf⟩ := hw.exact h.counters.2
  have hbits := hw.writtenBits
  rw [Engine.pendingBits_of_node hn] at heq hbuf hbits
  rw [length_codeBits] at heq hbuf
  subst heq
  rw [hn] at hbyte
  exact ⟨out, buf, exec_encByte_of_ok hbyte, hbuf, hbits⟩

/-- Settles O33: the insertion of code `2^MAXW` and the emission come before the growth test, which raises. -/
theorem encByteCapacityViolation : Obligations.EncByteCapacityViolation := by
  intro s c k hmax hw hnext hf hn hk hc h7 hbuf
  rw [← hn] at hc
  have hcan : s.enc.CanEmit s.build :=
    ⟨⟨hw ▸ hmax, hw.le⟩, ⟨h7, hbuf⟩, fun j hj => by rw [hn] at hj; cases hj; rw [hw]; exact hk⟩
  obtain ⟨g1, hwrites, -, hraise⟩ := hcan.encByte hc
  have hd1 : g1.dict = (s.enc.dict.extend s.enc.node c).2 := hwrites.dict
  have hbits := hwrites.writtenBits
  rw [Engine.pendingBits_of_node hn, hw] at hbits
  rcases s.enc.dict.extend_cases s.enc.node c with ⟨_, hk', -⟩ | ⟨-, hf', -⟩ | ⟨-, -, he⟩
  · rw [hk'] at hc; cases hc
  · rw [hf'] at hf; cases hf
  rw [he] at hd1 hraise
  have hgrow : g1.grow s.build = .raised (g1.raise .capacityViolation (2 ^ s.build.maxw + 1)) := by
    rcases g1.grow_cases s.build with ⟨hle, -⟩ | ⟨-, -, hg⟩ | ⟨-, hne, -⟩
    · simp only [hd1, hw, hnext] at hle; omega
    · rw [hg, hd1, hnext]
    · simp only [hd1, hw] at hne; exact absurd rfl hne
  refine ⟨_, exec_encByte_of_raised (hraise _ hgrow), rfl, rfl, rfl, rfl, rfl, hwrites.node.trans hn, ?_, ?_, ?_, hbits⟩
  · simp only [Engine.raise_dict, hd1, hw]
  · simp only [Engine.raise_dict, hd1, hnext]
  · simp only [Engine.raise_dict, hd1, hnext, hn, Table.find_put_self]

/-- Settles O34: at the root there are no pending bits; else they are the code word of the cursor. -/
theorem encPendingEmitsTheCursor : Obligations.EncPendingEmitsTheCursor := by
  refine ⟨fun s hn => ?_, fun s k h hr hn => ?_⟩
  · have hp : s.enc.encPending s.build = .ok () s.enc := by
      have hroot : ({ s.enc with node := none } : Engine) = s.enc := by rw [← hn]
      simp only [Engine.encPending, Engine.emitCursor, hn, hroot]
    exact exec_encPending_of_ok hp
  · obtain ⟨g1, he, hw⟩ := (h.canEmit hr).encPending
    rw [Engine.pendingBits_of_node hn] at hw
    obtain ⟨out, buf, heq, -⟩ := hw.exact h.counters.2
    have hbits := hw.writtenBits
    rw [length_codeBits] at heq
    subst heq
    exact ⟨out, buf, exec_encPending_of_ok he, hbits⟩

/-! ### ENC_END (42 R163) -/

theorem exec_encEnd {s : State} (hr : s.enc.st = .ready) (a : BitVec 28) :
    exec (.encEnd a) s = .next { s with enc := s.enc.accept.encEnd s.build } := by
  show Host.Outcome.next (s.onEng .enc _) = _
  rw [State.onEng_eq, State.eng_enc, s.enc.whenReady_ready _ hr]
  rfl

/-- The pending bits and the pad, and the cursor at the root. -/
theorem Engine.CanEmit.encEnd {B : Config.Build} {g : Engine} (h : g.CanEmit B) :
    ∃ (g' : Engine) (pad : Nat), pad ≤ 7 ∧ g.encEnd B = { g' with st := .done } ∧ g'.bits = 0 ∧
      ({ g with node := none } : Engine).Writes B (g.pendingBits ++ List.replicate pad false) g' := by
  obtain ⟨g1, he, hw⟩ := h.encPending
  have hw1 := hw.setNode none
  exact ⟨_, _, Nat.le_of_lt_succ (Nat.mod_lt _ (by decide)), by simp only [Engine.encEnd, he], Engine.flush_bits B _,
    hw1.trans (Engine.writes_flush B hw1.residue)⟩

/-- Settles O39: the pending code and the pad are written, and no bit stays in the buffer. -/
theorem encEndFinishesTheStream : Obligations.EncEndFinishesTheStream := by
  intro s a _ h hr
  obtain ⟨g', pad, hpad, he, h0, out, bits, buf, rfl, ⟨-, hbuf⟩, hbits⟩ := (h.accept.canEmit hr).encEnd
  obtain rfl : bits = 0 := h0
  obtain rfl : buf = 0 := Nat.lt_one_iff.1 hbuf
  refine ⟨out, pad, ?_, hpad, ?_⟩
  · rw [← countUp_iterate _ _ _ h.counters.2, exec_encEnd hr, he]
    rfl
  · have hpending : s.enc.accept.pendingBits = s.enc.pendingBits := rfl
    simpa [Engine.writtenBits, hpending] using hbits

end Sys2Proof.Machine
end

section
/-! SUPPORT. What ENC.BYTE reads and writes, in every state: a frame for the chunk commands (spec/42_encoder.md R157,
R161). -/

namespace Sys2Proof.Machine

/-! ### The encoder's part of an engine -/

/-- What the operations of `ENC.BYTE` write, short of a raise: dictionary, cursor, buffer, the count of written bytes,
and the bytes that the sink gains. -/
structure EncPart where
  dict : Dict
  node : NodeId
  buf : Nat
  bits : Nat
  bytesWritten : Nat
  out : List Byte

def Engine.withPart (g : Engine) (p : EncPart) : Engine :=
  { g with
    dict := p.dict
    node := p.node
    buf := p.buf
    bits := p.bits
    bytesWritten := p.bytesWritten
    port := g.port.gained p.out }

/-- The part as it is, nothing gained. -/
def Engine.encPart (g : Engine) : EncPart := ⟨g.dict, g.node, g.buf, g.bits, g.bytesWritten, []⟩

def Engine.setResult (g : Engine) (r : Word) : Engine := { g with result := r }

@[simp] theorem Engine.withPart_encPart (g : Engine) : g.withPart g.encPart = g := by
  simp [Engine.withPart, Engine.encPart]

theorem Engine.withPart_withPart (g : Engine) (p q : EncPart) :
    (g.withPart p).withPart q = g.withPart { q with out := p.out ++ q.out } := by
  simp [Engine.withPart]

@[simp] theorem Engine.setResult_result (g : Engine) (r : Word) : (g.setResult r).result = r := rfl
@[simp] theorem Engine.setResult_self (g : Engine) : g.setResult g.result = g := rfl
@[simp] theorem Engine.setResult_setResult (g : Engine) (r q : Word) :
    (g.setResult r).setResult q = g.setResult q := rfl

/-! ### Operations that write that part only -/

/-- In every state `F` completes, or raises `CapacityViolation`, having written no more than the encoder's part; and it
does not read `RESULT`. -/
def EncOp (F : Engine → Res Unit) : Prop :=
  ∀ g : Engine, ∃ p,
    (∀ r, F (g.setResult r) = .ok () ((g.withPart p).setResult r)) ∨
    ∃ x, ∀ r, F (g.setResult r) = .raised (((g.withPart p).raise .capacityViolation x).setResult r)

/-- An operation, and where it completes another one (00 R13). -/
def Res.andThen (F G : Engine → Res Unit) (g : Engine) : Res Unit :=
  match F g with
  | .ok _ g1 => G g1
  | .raised g1 => .raised g1

theorem EncOp.andThen {F G : Engine → Res Unit} (hF : EncOp F) (hG : EncOp G) : EncOp (Res.andThen F G) := by
  intro g
  obtain ⟨p, hok | ⟨x, hx⟩⟩ := hF g
  · obtain ⟨q, hq⟩ := hG (g.withPart p)
    rw [Engine.withPart_withPart] at hq
    exact ⟨_, by simpa only [Res.andThen, hok] using hq⟩
  · exact ⟨p, .inr ⟨x, fun r => by simp only [Res.andThen, hx]⟩⟩

theorem Engine.drain_encPart (B : Config.Build) (n : Nat) (g : Engine) :
    ∃ p, ∀ r, (g.setResult r).drain B n = (g.withPart p).setResult r := by
  induction n generalizing g with
  | zero => exact ⟨g.encPart, fun r => by rw [g.withPart_encPart]; rfl⟩
  | succ n ih =>
    by_cases h8 : 8 ≤ g.bits
    · obtain ⟨p, hp⟩ := ih (g.withPart
        ⟨g.dict, g.node, g.buf % 2 ^ (g.bits - 8), g.bits - 8, countUp B g.bytesWritten, [topByte g.buf g.bits]⟩)
      rw [Engine.withPart_withPart] at hp
      exact ⟨_, fun r => (if_pos h8).trans (hp r)⟩
    · exact ⟨g.encPart, fun r => by rw [g.withPart_encPart]; exact if_neg h8⟩

theorem encOp_push (B : Config.Build) (v w : Nat) : EncOp fun g => g.push B v w := by
  intro g
  by_cases hbad : w < 1 ∨ B.maxw < w ∨ 2 ^ w ≤ v
  · exact ⟨g.encPart, .inr ⟨v, fun r => by rw [g.withPart_encPart]; exact if_pos hbad⟩⟩
  · obtain ⟨p, hp⟩ := (g.append v w).drain_encPart B ((g.bits + w) / 8)
    exact ⟨p, .inl fun r => (if_neg hbad).trans (congrArg (Res.ok ()) (hp r))⟩

theorem encOp_emitCursor (B : Config.Build) : EncOp fun g => g.emitCursor B := by
  intro g
  rcases hn : g.node with _ | k
  · exact ⟨g.encPart, .inl fun r => by
      rw [g.withPart_encPart]; simp only [Engine.emitCursor, Engine.setResult, hn]⟩
  · have hpush : ∀ r, (g.setResult r).emitCursor B = (g.setResult r).push B k g.dict.codeWidth := fun r => by
      simp only [Engine.emitCursor, Engine.setResult, hn]
    simpa only [hpush] using encOp_push B k g.dict.codeWidth g

theorem encOp_growIfInserted (B : Config.Build) (r : ExtendResult) : EncOp fun g => g.growIfInserted B r := by
  intro g
  have hkept : ∀ q, Res.ok () (g.setResult q) = .ok () ((g.withPart g.encPart).setResult q) := fun q => by
    rw [g.withPart_encPart]
  cases r with
  | matched n => exact ⟨g.encPart, .inl hkept⟩
  | full => exact ⟨g.encPart, .inl hkept⟩
  | inserted k =>
    rcases hg : g.dict.grow B.maxw with _ | d
    · exact ⟨g.encPart, .inr ⟨g.dict.nextCode, fun q => by
        rw [g.withPart_encPart]; exact Engine.grow_of_none hg⟩⟩
    · exact ⟨{ g.encPart with dict := d }, .inl fun q => (Engine.grow_of_some (g := g.setResult q) hg).trans (by
        simp [Engine.withPart, Engine.encPart, Engine.setResult])⟩

theorem encOp_restart (c : Byte) : EncOp fun g => .ok () (g.restart c) := fun g =>
  ⟨{ g.encPart with dict := (g.dict.extend none c).2, node := some c.toNat }, .inl fun r => by
    simp [Engine.withPart, Engine.encPart, Engine.setResult, Engine.restart]⟩

theorem Engine.emitAndRestart_eq (B : Config.Build) (r : ExtendResult) (c : Byte) (g : Engine) :
    g.emitAndRestart B r c =
      Res.andThen (Engine.emitCursor B)
        (Res.andThen (Engine.growIfInserted B r) fun g => .ok () (g.restart c)) g := by
  unfold Engine.emitAndRestart Res.andThen
  cases g.emitCursor B with
  | raised g1 => rfl
  | ok _ g1 => cases hg : g1.growIfInserted B r <;> simp only [hg]

theorem encOp_emitAndRestart (B : Config.Build) (r : ExtendResult) (c : Byte) :
    EncOp fun g => g.emitAndRestart B r c := by
  simp only [Engine.emitAndRestart_eq]
  exact (encOp_emitCursor B).andThen ((encOp_growIfInserted B r).andThen (encOp_restart c))

theorem encOp_encByte (B : Config.Build) (c : Byte) : EncOp fun g => g.encByte B c := by
  intro g
  rcases hc : g.dict.child g.node c with _ | k
  · have hstep : ∀ r, (g.setResult r).encByte B c = Engine.emitAndRestart B (g.dict.extend g.node c).1 c
        (({ g with dict := (g.dict.extend g.node c).2 } : Engine).setResult r) := fun r => by
      rcases (g.setResult r).encByte_cases B c with ⟨k, hk, -⟩ | ⟨-, he⟩
      · exact absurd (hk.symm.trans hc) (by simp)
      · exact he
    simp only [hstep]
    exact encOp_emitAndRestart B (g.dict.extend g.node c).1 c { g with dict := (g.dict.extend g.node c).2 }
  · exact ⟨{ g.encPart with node := some k }, .inl fun r => (Engine.encByte_of_child (g := g.setResult r) hc).trans (by
      simp [Engine.withPart, Engine.encPart, Engine.setResult])⟩

/-! ### How ENC.BYTE ends -/

/-- A byte that completes wrote the encoder's part only, and would complete alike with another `RESULT`. -/
theorem Engine.encByte_ok {B : Config.Build} {c : Byte} {g g' : Engine} (h : g.encByte B c = .ok () g') :
    (∃ p, g' = g.withPart p) ∧ ∀ r, (g.setResult r).encByte B c = .ok () (g'.setResult r) := by
  obtain ⟨p, hok | ⟨x, hx⟩⟩ := encOp_encByte B c g
  · have h' := (hok g.result).symm.trans h
    cases h'
    exact ⟨⟨p, rfl⟩, hok⟩
  · cases (hx g.result).symm.trans h

/-- A byte that raises left the encoder's part as written, and would raise alike with another `RESULT`. -/
theorem Engine.encByte_raised {B : Config.Build} {c : Byte} {g g' : Engine} (h : g.encByte B c = .raised g') :
    (∃ p x, g' = (g.withPart p).raise .capacityViolation x) ∧
      ∀ r, (g.setResult r).encByte B c = .raised (g'.setResult r) := by
  obtain ⟨p, hok | ⟨x, hx⟩⟩ := encOp_encByte B c g
  · cases (hok g.result).symm.trans h
  · have h' := (hx g.result).symm.trans h
    cases h'
    exact ⟨⟨p, x, rfl⟩, hx⟩

end Sys2Proof.Machine
end

section
/-! SUPPORT. ENC_CHUNK as a loop of counted reads and ENC.BYTE (spec/42_encoder.md R161, R162, R168); O35 to O37. -/

namespace Sys2Proof.Machine

/-- In `READY` the command is the loop, from the accepted engine with `RESULT` at 0. -/
theorem exec_encChunk {s : State} (hr : s.enc.st = .ready) (n : BitVec 28) :
    exec (.encChunk n) s =
      .next { s with enc := (s.enc.accept.setResult 0).encLoop s.build n.toNat 0 } := by
  show Host.Outcome.next (s.onEng .enc _) = _
  rw [State.onEng_eq, State.eng_enc, s.enc.whenReady_ready _ hr]
  rfl

/-! ### ENC_CHUNK by units (42 R161, R162) -/

/-- A latched `EOI` ends the loop before any read. -/
theorem Engine.encLoop_of_eoi {B : Config.Build} {g : Engine} (h : g.eoi = true) (left count : Nat) :
    g.encLoop B left count = g := by
  cases left with
  | zero => rfl
  | succ left => rw [Engine.encLoop, if_pos h]

/-- A read at the end of the source latches `EOI`, which ends the loop. -/
theorem Engine.encLoop_of_end {B : Config.Build} {g : Engine} (he : g.eoi = false)
    (hend : g.port.src.length ≤ g.port.pos) (left count : Nat) :
    g.encLoop B (left + 1) count = ({ g with port := g.port.answeredNone } : Engine).latchEoi := by
  rcases g.encLoop_succ B left count with ⟨h, -⟩ | ⟨-, -, h⟩ | ⟨-, hlt, -⟩
  · rw [he] at h; cases h
  · exact h
  · omega

/-- The engine after a counted read of one byte (10 R29, 20 R66). -/
def Engine.afterRead (B : Config.Build) (g : Engine) : Engine :=
  { g with port := g.port.advanced 1, bytesRead := countUp B g.bytesRead }

theorem Engine.takeByte_of_byte {B : Config.Build} {g : Engine} {c : Byte} (hc : g.port.src[g.port.pos]? = some c) :
    g.takeByte B = (some c, g.afterRead B) := by
  simp only [Engine.takeByte, Port.read_of_byte hc]; rfl

/-- A byte whose step raises ends the command. -/
theorem Engine.encLoop_of_raised {B : Config.Build} {g g' : Engine} {c : Byte} (he : g.eoi = false)
    (hc : g.port.src[g.port.pos]? = some c) (hb : (g.afterRead B).encByte B c = .raised g') (left count : Nat) :
    g.encLoop B (left + 1) count = g' := by
  rw [Engine.encLoop, if_neg (by simp [he])]
  simp only [Engine.takeByte_of_byte hc, hb]

/-- A byte whose step completes is counted. -/
theorem Engine.encLoop_of_ok {B : Config.Build} {g g' : Engine} {c : Byte} (he : g.eoi = false)
    (hc : g.port.src[g.port.pos]? = some c) (hb : (g.afterRead B).encByte B c = .ok () g') (left count : Nat) :
    g.encLoop B (left + 1) count = (g'.setResult (BitVec.ofNat 32 (count + 1))).encLoop B left (count + 1) := by
  rw [Engine.encLoop, if_neg (by simp [he])]
  simp only [Engine.takeByte_of_byte hc, hb]; rfl

/-- Settles O35: the loop stops at once, at the end of the source, or after its one byte. -/
theorem encChunkByUnits : Obligations.EncChunkByUnits := by
  refine fun s hr => ⟨fun n hn => ?_, fun n hn he hend => ?_, fun c he hc => ?_⟩ <;> rw [exec_encChunk hr]
  · rcases hn with rfl | he
    · rfl
    · rw [Engine.encLoop_of_eoi (g := s.enc.accept.setResult 0) he]; rfl
  · obtain ⟨m, hm⟩ := Nat.exists_eq_succ_of_ne_zero (mt (BitVec.eq_of_toNat_eq (y := 0)) hn)
    rw [hm, Engine.encLoop_of_end (g := s.enc.accept.setResult 0) he hend]; rfl
  · have h1 : (1 : BitVec 28).toNat = 0 + 1 := rfl
    rw [h1]
    rcases hb : ((s.enc.accept.setResult 0).afterRead s.build).encByte s.build c with ⟨_, g'⟩ | g'
    · rw [Engine.encLoop_of_ok (g := s.enc.accept.setResult 0) he hc hb]
      exact ⟨_, exec_encByte_of_ok (s := { s with enc := (s.enc.accept.setResult 0).afterRead s.build }) hb, rfl⟩
    · rw [Engine.encLoop_of_raised (g := s.enc.accept.setResult 0) he hc hb]
      obtain ⟨⟨p, x, rfl⟩, -⟩ := Engine.encByte_raised hb
      exact ⟨_, exec_encByte_of_raised (s := { s with enc := (s.enc.accept.setResult 0).afterRead s.build }) hb, rfl⟩

/-! ### Chunks compose (42 R168) -/

/-- The loop with more rounds to go: a raise ends the command; a latched `EOI` leaves nothing more to do; else the
loop goes on from the count reached, which `RESULT` shows. -/
theorem Engine.encLoop_add {B : Config.Build} (a b count : Nat) {g : Engine} (hr : g.st = .ready)
    (hres : g.result = BitVec.ofNat 32 count) :
    ((g.encLoop B a count).st ≠ .ready → g.encLoop B (a + b) count = g.encLoop B a count) ∧
    ((g.encLoop B a count).st = .ready →
      (g.encLoop B a count).refused = g.refused ∧ (g.encLoop B a count).rsn = g.rsn ∧
      ((g.encLoop B a count).eoi = true ∧ g.encLoop B (a + b) count = g.encLoop B a count ∨
        (g.encLoop B a count).result = BitVec.ofNat 32 (count + a) ∧
          g.encLoop B (a + b) count = (g.encLoop B a count).encLoop B b (count + a))) := by
  induction a generalizing count g with
  | zero => exact ⟨fun h => absurd hr h, fun _ => ⟨rfl, rfl, .inr ⟨hres, by rw [Nat.zero_add]; rfl⟩⟩⟩
  | succ a ih =>
    rw [Nat.add_right_comm]
    cases he : g.eoi
    · rcases hc : g.port.src[g.port.pos]? with _ | c
      · have hend := List.getElem?_eq_none_iff.1 hc
        rw [Engine.encLoop_of_end he hend, Engine.encLoop_of_end he hend]
        exact ⟨fun h => absurd hr h, fun _ => ⟨rfl, rfl, .inl ⟨rfl, rfl⟩⟩⟩
      · rcases hb : (g.afterRead B).encByte B c with ⟨_, g'⟩ | g'
        · rw [Engine.encLoop_of_ok he hc hb, Engine.encLoop_of_ok he hc hb]
          obtain ⟨⟨p, rfl⟩, -⟩ := Engine.encByte_ok hb
          have hnext := ih (count + 1)
            (g := ((g.afterRead B).withPart p).setResult (BitVec.ofNat 32 (count + 1))) hr rfl
          rwa [Nat.add_assoc count 1 a, Nat.add_comm 1 a] at hnext
        · rw [Engine.encLoop_of_raised he hc hb, Engine.encLoop_of_raised he hc hb]
          obtain ⟨⟨p, x, rfl⟩, -⟩ := Engine.encByte_raised hb
          exact ⟨fun _ => rfl, fun h => by simp at h⟩
    · rw [Engine.encLoop_of_eoi he, Engine.encLoop_of_eoi he]
      exact ⟨fun h => absurd hr h, fun _ => ⟨rfl, rfl, .inl ⟨he, rfl⟩⟩⟩

/-- A loop that counts on from `k` differs from one that counts from 0 in `RESULT` only, by `k`. -/
theorem Engine.encLoop_shift {B : Config.Build} (k left count : Nat) (g : Engine) :
    (g.setResult (BitVec.ofNat 32 (k + count))).encLoop B left (k + count) =
      ((g.setResult (BitVec.ofNat 32 count)).encLoop B left count).setResult
        (BitVec.ofNat 32 k + ((g.setResult (BitVec.ofNat 32 count)).encLoop B left count).result) := by
  induction left generalizing count g with
  | zero => simp [Engine.encLoop, BitVec.ofNat_add]
  | succ left ih =>
    cases he : g.eoi
    · rcases hc : g.port.src[g.port.pos]? with _ | c
      · have hend := List.getElem?_eq_none_iff.1 hc
        have hstop (r : Word) := Engine.encLoop_of_end (B := B) (g := g.setResult r) he hend left
        rw [hstop, hstop, BitVec.ofNat_add]
        rfl
      · rcases hb : (g.afterRead B).encByte B c with ⟨_, g'⟩ | g'
        · have hall := (Engine.encByte_ok hb).2
          have hround (r : Word) := Engine.encLoop_of_ok (g := g.setResult r) he hc (hall r) left
          simp only [hround, Engine.setResult_setResult, Nat.add_assoc k count 1]
          exact ih (count + 1) g'
        · have hall := (Engine.encByte_raised hb).2
          have hround (r : Word) := Engine.encLoop_of_raised (g := g.setResult r) he hc (hall r) left
          simp only [hround, Engine.setResult_setResult, Engine.setResult_result, BitVec.ofNat_add]
    · have hstop (r : Word) := Engine.encLoop_of_eoi (B := B) (g := g.setResult r) he (left + 1)
      simp only [hstop, Engine.setResult_setResult, Engine.setResult_result, BitVec.ofNat_add]

theorem Engine.accept_of_not_refused {g : Engine} (hf : g.refused = false) (hr : g.rsn = .none) : g.accept = g := by
  rw [Engine.accept, ← hf, ← hr]

/-- A second chunk goes on where the first ended. -/
theorem Engine.encLoop_compose {B : Config.Build} (a b : Nat) {g : Engine} (hr : g.st = .ready)
    (hst : ((g.accept.setResult 0).encLoop B a 0).st = .ready) :
    (g.accept.setResult 0).encLoop B (a + b) 0 =
      ((((g.accept.setResult 0).encLoop B a 0).accept.setResult 0).encLoop B b 0).setResult
        (((g.accept.setResult 0).encLoop B a 0).result +
          ((((g.accept.setResult 0).encLoop B a 0).accept.setResult 0).encLoop B b 0).result) := by
  obtain ⟨href, hrsn, hend⟩ := (Engine.encLoop_add a b 0 (g := g.accept.setResult 0) hr rfl).2 hst
  rw [Engine.accept_of_not_refused href hrsn]
  generalize (g.accept.setResult 0).encLoop B a 0 = g1 at hend
  rcases hend with ⟨heoi, hl⟩ | ⟨hres, hl⟩ <;> rw [hl]
  · rw [Engine.encLoop_of_eoi (g := g1.setResult 0) heoi]
    simp
  · have hshift := Engine.encLoop_shift (B := B) a b 0 g1
    rw [Nat.zero_add] at hres ⊢
    rw [Nat.add_zero, ← hres, Engine.setResult_self] at hshift
    exact hshift

/-- Settles O36: the loop of the longer chunk is that of the first and then that of the second, counting on. -/
theorem encChunksCompose : Obligations.EncChunksCompose := by
  intro s a b hab hr
  have hsum : (a + b).toNat = a.toNat + b.toNat := by rw [BitVec.toNat_add, Nat.mod_eq_of_lt hab]
  rw [exec_encChunk hr, exec_encChunk hr, hsum]
  refine ⟨_, rfl, fun hst => ?_, fun hst => ⟨_, exec_encChunk hst b, ?_⟩⟩
  · rw [(Engine.encLoop_add a.toNat b.toNat 0 (g := s.enc.accept.setResult 0) hr rfl).1 hst]
  · rw [Engine.encLoop_compose a.toNat b.toNat hr hst]
    rfl

/-! ### The dictionary across a chunk -/

theorem Engine.EncInv.afterRead {B : Config.Build} {g : Engine} (h : g.EncInv B)
    (hlt : g.port.pos < g.port.src.length) : (g.afterRead B).EncInv B :=
  { h with toFlagInv := h.toFlagInv.advanced (m := 1) hlt }

/-- A chunk that does not raise keeps of the dictionary whatever `DICT.EXTEND` followed by `DICT.GROW` keeps. -/
theorem Engine.EncInv.encLoop_dict {B : Config.Build} {P : Dict → Prop}
    (hP : ∀ (d d' : Dict) (n : NodeId) (c : Byte), d.Inv B.maxw → P d → (d.extend n c).2.grow B.maxw = some d' → P d')
    (left count : Nat) {g : Engine} (h : g.EncInv B) (hr : g.st = .ready) (hc : count + left < 2 ^ 28) (hd : P g.dict) :
    (g.encLoop B left count).live → P (g.encLoop B left count).dict := by
  induction left generalizing count g with
  | zero => exact fun _ => hd
  | succ left ih =>
    cases he : g.eoi
    · rcases hb : g.port.src[g.port.pos]? with _ | c
      · rw [Engine.encLoop_of_end he (List.getElem?_eq_none_iff.1 hb)]
        exact fun _ => hd
      · have h1 := h.afterRead (List.getElem?_eq_some_iff.1 hb).1
        have hend := h1.encByte hr c
        rcases hbyte : (g.afterRead B).encByte B c with ⟨_, g'⟩ | g'
        · rw [hbyte] at hend
          have hd' : P g'.dict := hP _ _ _ _ (h.dictInv hr) hd (h1.encByte_dict hr hbyte)
          rw [Engine.encLoop_of_ok he hb hbyte]
          exact ih (count + 1) (hend.1.setResult hend.2 (by omega)) hend.2 (by omega) hd'
        · rw [Engine.encLoop_of_raised he hb hbyte]
          obtain ⟨⟨p, x, rfl⟩, -⟩ := Engine.encByte_raised hbyte
          exact fun hl => by simp [Engine.live] at hl
    · rw [Engine.encLoop_of_eoi he]
      exact fun _ => hd

/-! ### A chunk that cannot outgrow `MAXW` (42 R161, R162, 70 R246) -/

/-- `n` more insertions, as far as `max_code` allows them, leave `next_code` within `2^MAXW` (70 R246). -/
def Dict.StaysWithin (maxw n : Nat) (d : Dict) : Prop :=
  (d.maxCode ≠ 0 ∧ d.maxCode ≤ 2 ^ maxw) ∨ d.nextCode + n ≤ 2 ^ maxw

theorem Dict.StaysWithin.room {maxw n : Nat} {d : Dict} (h : d.StaysWithin maxw (n + 1)) :
    d.full = true ∨ d.nextCode < 2 ^ maxw := by
  rw [d.full_iff]
  rcases h with h | h <;> omega

/-- `ENC.BYTE` makes at most one insertion. -/
theorem Dict.StaysWithin.extend_grow {maxw n : Nat} {d d' : Dict} (h : d.StaysWithin maxw (n + 1)) {m : NodeId}
    {c : Byte} (hg : (d.extend m c).2.grow maxw = some d') : d'.StaysWithin maxw n := by
  have hnext := (d.extend_nextCode_le m c).2
  have hmax := d.extend_maxCode m c
  have hkept : d'.nextCode = (d.extend m c).2.nextCode ∧ d'.maxCode = (d.extend m c).2.maxCode := by
    rcases Dict.grow_eq_some hg with ⟨-, rfl⟩ | ⟨-, rfl⟩ <;> exact ⟨rfl, rfl⟩
  unfold Dict.StaysWithin at *
  rw [hkept.1, hkept.2, hmax]
  rcases h with h | h
  · exact .inl h
  · exact .inr (by omega)

/-- `g'` is `READY` with `k` bytes more read and counted than `g`, and `EOI` as `e` says. -/
structure Engine.Consumed (B : Config.Build) (k : Nat) (e : Bool) (g g' : Engine) : Prop where
  ready : g'.st = .ready
  refused : g'.refused = g.refused
  pos : g'.port.pos = g.port.pos + k
  bytesRead : g'.bytesRead = (countUp B)^[k] g.bytesRead
  eoi : g'.eoi = e

/-- The loop consumes what it is asked for or what is left, whichever is less. -/
theorem Engine.EncInv.encLoop_consumed {B : Config.Build} (left count : Nat) {g : Engine} (h : g.EncInv B)
    (hr : g.st = .ready) (he : g.eoi = false) (hres : g.result = BitVec.ofNat 32 count)
    (hc : count + left < 2 ^ 28) (hw : g.dict.StaysWithin B.maxw left) :
    g.Consumed B (min left (g.port.src.length - g.port.pos)) (decide (g.port.src.length - g.port.pos < left))
        (g.encLoop B left count) ∧
      (g.encLoop B left count).result = BitVec.ofNat 32 (count + min left (g.port.src.length - g.port.pos)) := by
  induction left generalizing count g with
  | zero =>
    rw [Nat.zero_min]
    exact ⟨⟨hr, rfl, rfl, rfl, by simpa [Engine.encLoop] using he⟩, hres⟩
  | succ left ih =>
    rcases hb : g.port.src[g.port.pos]? with _ | c
    · have hend := List.getElem?_eq_none_iff.1 hb
      rw [Engine.encLoop_of_end he hend, Nat.sub_eq_zero_of_le hend, Nat.min_zero]
      exact ⟨⟨hr, rfl, rfl, rfl, by simp⟩, hres⟩
    · obtain ⟨hlt, -⟩ := List.getElem?_eq_some_iff.1 hb
      have h1 := h.afterRead hlt
      obtain ⟨g', hbyte⟩ := h1.encByte_completes hr c hw.room
      have hend := h1.encByte hr c
      rw [hbyte] at hend
      obtain ⟨⟨p, rfl⟩, -⟩ := Engine.encByte_ok hbyte
      rw [Engine.encLoop_of_ok he hb hbyte]
      have hw' : ((g.afterRead B).withPart p).dict.StaysWithin B.maxw left := hw.extend_grow (h1.encByte_dict hr hbyte)
      obtain ⟨hcons, hresult⟩ := ih (count + 1)
        (g := ((g.afterRead B).withPart p).setResult (BitVec.ofNat 32 (count + 1)))
        (hend.1.setResult hr (by omega)) hr he rfl (by omega) hw'
      have hmin : min (left + 1) (g.port.src.length - g.port.pos) =
          min left (g.port.src.length - (g.port.pos + 1)) + 1 := by omega
      have hdec : decide (g.port.src.length - g.port.pos < left + 1) =
          decide (g.port.src.length - (g.port.pos + 1) < left) := decide_eq_decide.2 (by omega)
      rw [hmin, hdec]
      refine ⟨⟨hcons.ready, hcons.refused, hcons.pos.trans ?_, hcons.bytesRead, hcons.eoi⟩, hresult.trans ?_⟩
      · exact Nat.add_right_comm g.port.pos 1 _
      · exact congrArg (BitVec.ofNat 32) (Nat.add_right_comm count 1 _)

/-- Settles O37: no byte raises, so the loop ends by its count or at the end of the source. -/
theorem encChunkCountsItsBytes : Obligations.EncChunkCountsItsBytes := by
  intro s n _ h hr he hw
  have hstart : (s.enc.accept.setResult 0).EncInv s.build := h.accept.setResult hr (n := 0) (by decide)
  obtain ⟨hcons, hresult⟩ := hstart.encLoop_consumed n.toNat 0 hr he rfl (by have := n.isLt; omega) hw
  have hinv := hstart.encLoop n.toNat 0 hr (by have := n.isLt; omega)
  have herr := hinv.err_none (by rw [hcons.ready]; decide)
  refine ⟨_, exec_encChunk hr n, hcons.ready, herr, hcons.refused, ?_, hcons.pos, ?_, hcons.eoi⟩
  · rw [hresult, Nat.zero_add]; rfl
  · rw [← countUp_iterate _ _ _ h.counters.1]; exact hcons.bytesRead

end Sys2Proof.Machine
end

section
/-! SUPPORT. The width schedule (42 R167, 43 R183) under every operation of the two engines, the commands and the
step, and a dictionary that is full from the start (42 R166); O58 and O38. -/

namespace Sys2Proof.Machine

/-! ### W(n) (00 R15) -/

theorem leastWidth_le_iff {n w : Nat} : leastWidth n ≤ w ↔ 9 ≤ w ∧ n ≤ 2 ^ w := by
  rw [leastWidth, max_le_iff, Nat.clog_le_iff_le_pow (by decide)]

theorem le_two_pow_leastWidth (n : Nat) : n ≤ 2 ^ leastWidth n := (leastWidth_le_iff.1 (Nat.le_refl _)).2

theorem leastWidth_eq_nine {n : Nat} (h : n ≤ 512) : leastWidth n = 9 :=
  Nat.le_antisymm (leastWidth_le_iff.2 ⟨Nat.le_refl 9, h⟩) (Nat.le_max_left 9 _)

/-- The width that holds `n` codes holds one more, or is one too small. -/
theorem leastWidth_succ (n : Nat) :
    leastWidth (n + 1) = if n + 1 ≤ 2 ^ leastWidth n then leastWidth n else leastWidth n + 1 := by
  have h9 : 9 ≤ leastWidth n := Nat.le_max_left 9 _
  have hmono : leastWidth n ≤ leastWidth (n + 1) :=
    leastWidth_le_iff.2 ⟨Nat.le_max_left 9 _, (Nat.le_succ n).trans (le_two_pow_leastWidth _)⟩
  split
  · next hfit => exact Nat.le_antisymm (leastWidth_le_iff.2 ⟨h9, hfit⟩) hmono
  · next hbig =>
    refine Nat.le_antisymm (leastWidth_le_iff.2 ⟨by omega, ?_⟩) (Nat.lt_of_not_le fun h => ?_)
    · calc n + 1 ≤ 2 ^ leastWidth n + 1 := Nat.succ_le_succ (le_two_pow_leastWidth n)
        _ ≤ 2 ^ (leastWidth n + 1) := Nat.pow_lt_pow_right (by decide) (Nat.lt_succ_self _)
    · exact hbig (leastWidth_le_iff.1 h).2

/-! ### One insertion (40 R123) -/

/-- One insertion into `d` gives `d'`, as far as the schedule can see (40 R123). -/
structure Dict.OneMore (d d' : Dict) : Prop where
  room : d.full = false
  width : d'.codeWidth = d.codeWidth
  next : d'.nextCode = d.nextCode + 1
  maxCode : d'.maxCode = d.maxCode

theorem Dict.extend_oneMore (d : Dict) (n : NodeId) (b : Byte) :
    (d.extend n b).2 = d ∨ d.OneMore (d.extend n b).2 := by
  rcases d.extend_cases n b with ⟨_, -, he⟩ | ⟨-, -, he⟩ | ⟨-, hf, he⟩ <;> rw [he]
  · exact .inl rfl
  · exact .inl rfl
  · exact .inr ⟨hf, rfl, rfl, rfl⟩

/-! ### The encoder: `W(next_code)` (42 R167) -/

/-- The width is the least that holds the codes assigned. -/
def Dict.EncSchedule (d : Dict) : Prop := d.codeWidth = leastWidth d.nextCode

theorem Dict.init_encSchedule (d : Dict) : d.init.EncSchedule :=
  (leastWidth_eq_nine (by rw [d.init_nextCode]; decide)).symm

/-- `DICT.GROW` makes up for the one code that `DICT.EXTEND` may add (40 R127). -/
theorem Dict.EncSchedule.extend_grow {maxw : Nat} {d d' : Dict} (h : d.EncSchedule) {n : NodeId} {c : Byte}
    (hg : (d.extend n c).2.grow maxw = some d') : d'.EncSchedule := by
  have hfits := le_two_pow_leastWidth d.nextCode
  rcases d.extend_oneMore n c with hd | ho
  · rw [← h] at hfits
    rw [hd, Dict.grow_of_le hfits] at hg
    cases hg
    exact h
  · have hsucc := leastWidth_succ d.nextCode
    rw [← ho.next, ← h, ← ho.width] at hsucc
    rcases (d.extend n c).2.grow_cases maxw with ⟨hfit, he⟩ | ⟨-, -, he⟩ | ⟨hbig, -, he⟩ <;> rw [he] at hg <;> cases hg
    · exact (hsucc.trans (if_pos hfit)).symm
    · exact (hsucc.trans (if_neg (by omega))).symm

/-- In a live encoder (10 R43 to R45 claim nothing of the others). -/
def Engine.EncSchedule (g : Engine) : Prop := g.live → g.dict.EncSchedule

theorem Engine.EncSchedule.whenReady {g : Engine} (h : g.EncSchedule) {f : Engine → Engine}
    (hf : g.st = .ready → (f g.accept).EncSchedule) : (g.whenReady f).EncSchedule :=
  g.whenReady_induction hf h

theorem Engine.EncSchedule.initCmd {g : Engine} (h : g.EncSchedule) (m : Nat) : (g.initCmd m).EncSchedule := by
  by_cases hbad : badMaxCode m
  · rw [g.initCmd_bad m hbad]; exact h
  · rw [g.initCmd_good m hbad]; exact fun _ => Dict.init_encSchedule _

theorem Engine.EncSchedule.encChunk {B : Config.Build} {g : Engine} (h : g.EncSchedule) (hi : g.EncInv B)
    (hr : g.st = .ready) {n : Nat} (hn : n < 2 ^ 28) : (g.encChunk B n).EncSchedule :=
  Engine.EncInv.encLoop_dict (fun _ _ _ _ _ hd => hd.extend_grow) n 0 (hi.setResult hr (n := 0) (by decide)) hr
    (by omega) (h (.inl hr))

theorem Engine.EncSchedule.encEnd {B : Config.Build} {g : Engine} (h : g.EncSchedule) (hr : g.st = .ready) :
    (g.encEnd B).EncSchedule := fun _ => by
  rw [Engine.encEnd_dict]; exact h (.inl hr)

/-- `ENC_CLEAR` leaves the dictionary alone or resets it (44 R196). -/
theorem Engine.encClear_dict (B : Config.Build) (g : Engine) :
    (g.encClear B).dict = g.dict ∨ (g.encClear B).dict = g.dict.init := by
  have hp := g.encPending_dict B
  unfold Engine.encClear
  split
  · exact .inl rfl
  · split <;> rename_i g1 h1 <;> rw [h1] at hp
    · exact .inl hp
    · have hc := (g1.push_dict B clearCode g1.dict.codeWidth).trans hp
      split <;> rename_i g2 h2 <;> rw [h2] at hc
      · exact .inl hc
      · exact .inr (congrArg Dict.init ((g2.flush_dict B).trans hc))

theorem Engine.EncSchedule.encClear {B : Config.Build} {g : Engine} (h : g.EncSchedule) (hr : g.st = .ready) :
    (g.encClear B).EncSchedule := fun _ => by
  rcases g.encClear_dict B with hd | hd <;> rw [hd]
  · exact h (.inl hr)
  · exact g.dict.init_encSchedule

/-! ### The decoder: `W(min(next_code + 1, M))` (43 R183) -/

/-- The width is the least that holds the codes the encoder has assigned by then, one more than the decoder's. -/
def Dict.DecSchedule (d : Dict) : Prop := d.codeWidth = leastWidth (capped d.maxCode (d.nextCode + 1))

theorem Dict.full_eq_false_iff (d : Dict) : d.full = false ↔ ¬(d.maxCode ≠ 0 ∧ d.maxCode ≤ d.nextCode) := by
  rw [← d.full_iff, Bool.not_eq_true]

theorem capped_of_full {d : Dict} (h : d.full = true) : capped d.maxCode (d.nextCode + 1) = d.maxCode := by
  obtain ⟨h0, hle⟩ := d.full_iff.1 h
  rw [capped, if_neg h0]; omega

theorem capped_of_not_full {d : Dict} (h : d.full = false) : capped d.maxCode (d.nextCode + 1) = d.nextCode + 1 := by
  have hroom := d.full_eq_false_iff.1 h
  rw [capped]; split <;> omega

theorem Dict.init_decSchedule (d : Dict) : d.init.DecSchedule :=
  (leastWidth_eq_nine (by rw [capped, d.init_nextCode]; split <;> omega)).symm

/-- How an operation of the decoder ends: on schedule, or in `ERROR`. -/
def Res.OnDecSchedule {α : Type} (r : Res α) : Prop :=
  r.EndsIn (fun _ g => g.dict.DecSchedule) (fun g => g.st = .error)

/-- `DEC.GROW` does nothing on schedule (43 R182). -/
theorem Engine.decGrow_of_decSchedule {B : Config.Build} {g : Engine} (h : g.dict.DecSchedule) :
    g.decGrow B = .ok () g := by
  rcases g.decGrow_cases B with ⟨-, he⟩ | ⟨⟨hf, hle⟩, -⟩ | ⟨⟨hf, hle⟩, -⟩
  · exact he
  all_goals
    rw [Dict.DecSchedule, capped_of_not_full hf] at h
    have := le_two_pow_leastWidth (g.dict.nextCode + 1)
    rw [← h] at this
    omega

theorem Engine.mirror_oneMore (b : Byte) (g : Engine) :
    (g.mirror b).dict = g.dict ∨ g.dict.OneMore (g.mirror b).dict := by
  unfold Engine.mirror
  split
  · exact .inl rfl
  · exact g.dict.extend_oneMore _ b

/-- After one insertion into a dictionary on schedule, `DEC.GROW` raises or restores the schedule (43 R183). -/
theorem Engine.decGrow_of_oneMore {B : Config.Build} {g : Engine} {d : Dict} (h : d.DecSchedule)
    (ho : d.OneMore g.dict) : (g.decGrow B).OnDecSchedule := by
  have hroom := d.full_eq_false_iff.1 ho.room
  rw [Dict.DecSchedule, capped_of_not_full ho.room, ← ho.width, ← ho.next] at h
  have hsucc := leastWidth_succ g.dict.nextCode
  rw [← h] at hsucc
  rcases g.decGrow_cases B with ⟨hno, he⟩ | ⟨-, -, he⟩ | ⟨⟨hf, hle⟩, -, he⟩ <;> rw [he]
  · show g.dict.codeWidth = _
    rcases hf : g.dict.full
    · have hlt : ¬2 ^ g.dict.codeWidth ≤ g.dict.nextCode := fun hle => hno ⟨hf, hle⟩
      rw [capped_of_not_full hf, hsucc, if_pos (by omega)]
    · have hfull := g.dict.full_iff.1 hf
      have hnext := ho.next
      rw [ho.maxCode] at hfull
      rw [capped_of_full hf, ho.maxCode, show d.maxCode = g.dict.nextCode by omega, h]
  · rfl
  · show g.dict.codeWidth + 1 = leastWidth (capped g.dict.maxCode (g.dict.nextCode + 1))
    rw [capped_of_not_full hf, hsucc, if_neg (by omega)]

/-- A data code: the mirrored insertion, if it makes one, and `DEC.GROW` (43 R180, R182). -/
theorem Engine.dataCode_onDecSchedule {B : Config.Build} {g : Engine} (h : g.dict.DecSchedule) (b : Byte) (v : Nat) :
    ((g.mirror b).finishCode B v).OnDecSchedule := by
  have hg : (({ g.mirror b with node := some v } : Engine).decGrow B).OnDecSchedule := by
    rcases g.mirror_oneMore b with hd | ho
    · rw [← hd] at h
      rw [Engine.decGrow_of_decSchedule (g := { g.mirror b with node := some v }) h]
      exact h
    · exact Engine.decGrow_of_oneMore h ho
  unfold Engine.finishCode
  split <;> rename_i he <;> rw [he] at hg <;> exact hg

theorem Engine.codeWord_onDecSchedule {B : Config.Build} {g : Engine} (h : g.dict.DecSchedule) (v : Nat) :
    (g.codeWord B v).OnDecSchedule := by
  have hemit : ∀ s, (g.emitAll B s).dict.DecSchedule := fun s => by rw [Engine.emitAll_dict]; exact h
  rcases g.codeWord_cases B v with ⟨-, he⟩ | ⟨-, he⟩ | ⟨-, he⟩ | ⟨-, he⟩ | ⟨-, he⟩ <;> rw [he]
  · exact g.dict.init_decSchedule
  · exact Engine.dataCode_onDecSchedule (hemit _) _ v
  · exact Engine.dataCode_onDecSchedule (hemit _) _ v
  · exact Engine.dataCode_onDecSchedule (hemit _) _ v
  · rfl

theorem Engine.decStep_onDecSchedule {B : Config.Build} {g : Engine} (h : g.dict.DecSchedule) :
    (g.decStep B).OnDecSchedule := by
  have hp := g.pull_dict B g.dict.codeWidth
  unfold Engine.decStep
  split <;> rename_i g1 he <;> rw [he] at hp <;> have h1 : g1.dict.DecSchedule := hp ▸ h
  · exact h1
  · exact Engine.codeWord_onDecSchedule h1 _

/-- In a live decoder. -/
def Engine.DecSchedule (g : Engine) : Prop := g.live → g.dict.DecSchedule

theorem Engine.decLoop_decSchedule {B : Config.Build} (left count : Nat) {g : Engine} (h : g.dict.DecSchedule) :
    (g.decLoop B left count).DecSchedule := by
  induction left generalizing count g with
  | zero => exact fun _ => h
  | succ left ih =>
    have hstep := Engine.decStep_onDecSchedule (B := B) h
    rcases g.decLoop_succ B left count with
      ⟨-, he⟩ | ⟨-, g2, hs, he⟩ | ⟨-, g2, hs, he⟩ | ⟨-, r, g2, -, hs, he⟩
    · rw [he]; exact fun _ => h
    · rw [hs] at hstep; rw [he]
      have herr : g2.st = .error := hstep
      exact fun hl => by simp [Engine.live, herr] at hl
    · rw [hs] at hstep; rw [he]; exact fun _ => hstep
    · rw [hs] at hstep; rw [he]
      exact ih (count + 1) hstep

theorem Engine.DecSchedule.whenReady {g : Engine} (h : g.DecSchedule) {f : Engine → Engine}
    (hf : g.st = .ready → (f g.accept).DecSchedule) : (g.whenReady f).DecSchedule :=
  g.whenReady_induction hf h

theorem Engine.DecSchedule.initCmd {g : Engine} (h : g.DecSchedule) (m : Nat) : (g.initCmd m).DecSchedule := by
  by_cases hbad : badMaxCode m
  · rw [g.initCmd_bad m hbad]; exact h
  · rw [g.initCmd_good m hbad]
    exact fun _ => Dict.init_decSchedule _

/-! ### The step -/

theorem State.WidthInv.onEng_enc {s : State} (h : s.WidthInv) {f : Engine → Engine} (hf : (f s.enc).EncSchedule) :
    (s.onEng .enc f).WidthInv := ⟨hf, h.dec⟩

theorem State.WidthInv.onEng_dec {s : State} (h : s.WidthInv) {f : Engine → Engine} (hf : (f s.dec).DecSchedule) :
    (s.onEng .dec f).WidthInv := ⟨h.enc, hf⟩

theorem State.WidthInv.destroy {s : State} (h : s.WidthInv) (z : EngineId) : (s.destroy z).WidthInv := by
  have hdead : ¬(Engine.unspecified s.build z s.free (s.eng z).port).live := by simp [Engine.live]
  cases z
  · exact ⟨fun hl => absurd hl hdead, h.dec⟩
  · exact ⟨h.enc, fun hl => absurd hl hdead⟩

theorem State.WidthInv.refuseOpcode {s : State} (h : s.WidthInv) (z : EngineId) : (s.refuseOpcode z).WidthInv := by
  cases z
  · exact h.onEng_enc h.enc
  · exact h.onEng_dec h.dec

theorem execEncDestroy_widthInv {s : State} (h : s.WidthInv) (a : BitVec 28) :
    ∃ t, execEncDestroy a s = .next t ∧ t.WidthInv := by
  unfold execEncDestroy
  split
  · exact ⟨_, rfl, h.onEng_enc h.enc⟩
  · exact ⟨_, rfl, h.destroy .enc⟩

/-- Every command keeps the schedule. -/
theorem exec_command_widthInv {s : State} (hi : s.Inv) (h : s.WidthInv) {i : Instr} (hf : i.format = .cmd) :
    ∃ t, exec i s = .next t ∧ t.WidthInv := by
  have henc : s.enc.EncSchedule := h.enc
  have hdec : s.dec.DecSchedule := h.dec
  cases i with
  | encInit m => exact ⟨_, rfl, h.onEng_enc (henc.initCmd m.toNat)⟩
  | encChunk n => exact ⟨_, rfl, h.onEng_enc (henc.whenReady fun hr =>
      Engine.EncSchedule.encChunk (g := s.enc.accept) henc hi.enc.accept hr n.isLt)⟩
  | encEnd _ => exact ⟨_, rfl, h.onEng_enc (henc.whenReady fun hr =>
      Engine.EncSchedule.encEnd (g := s.enc.accept) henc hr)⟩
  | encClear _ => exact ⟨_, rfl, h.onEng_enc (henc.whenReady fun hr =>
      Engine.EncSchedule.encClear (g := s.enc.accept) henc hr)⟩
  | encDestroy a => exact execEncDestroy_widthInv h a
  | decInit m => exact ⟨_, rfl, h.onEng_dec (hdec.initCmd m.toNat)⟩
  | decChunk n => exact ⟨_, rfl, h.onEng_dec (hdec.whenReady fun hr =>
      Engine.decLoop_decSchedule n.toNat 0 (g := { s.dec.accept with result := 0 }) (hdec (.inl hr)))⟩
  | decDestroy _ => exact ⟨_, rfl, h.destroy .dec⟩
  | reserved0 _ | reserved6 _ | reserved7 _ => exact ⟨_, rfl, h.refuseOpcode .enc⟩
  | reserved8 _ | reservedB _ | reservedC _ | reservedE _ | reservedF _ => exact ⟨_, rfl, h.refuseOpcode .dec⟩
  | _ => cases hf

/-- Settles O58: the step runs one command, and each engine's growth test makes up for its one insertion. -/
theorem stepKeepsTheWidthSchedule : Obligations.StepKeepsTheWidthSchedule := by
  intro s hi h
  rcases hc : s.cmds with _ | ⟨w, ws⟩
  · exact ⟨s, by simp only [step, s.takeCommand_nil hc], h⟩
  · simp only [step, s.takeCommand_cons w ws hc]
    exact exec_command_widthInv (s := { s with cmds := ws }) ⟨hi.legal, hi.enc, hi.dec⟩ ⟨h.enc, h.dec⟩
      (decode_format w)

/-! ### A full dictionary (42 R166) -/

theorem Dict.extend_snd_of_full {d : Dict} (h : d.full = true) (n : NodeId) (c : Byte) : (d.extend n c).2 = d :=
  (d.extend_oneMore n c).resolve_right fun ho => by simp [ho.room] at h

/-- A chunk leaves a full dictionary as it was. -/
theorem Engine.EncInv.encLoop_dict_of_full {B : Config.Build} (left : Nat) {g : Engine} (h : g.EncInv B)
    (hr : g.st = .ready) (hc : left < 2 ^ 28) (hf : g.dict.full = true) (hl : (g.encLoop B left 0).live) :
    (g.encLoop B left 0).dict = g.dict := by
  refine Engine.EncInv.encLoop_dict (P := fun d => d = g.dict) ?_ left 0 h hr (by omega) rfl hl
  rintro d d' n c hd rfl hg
  rw [Dict.extend_snd_of_full hf, Dict.grow_of_le hd.next.2] at hg
  exact (Option.some.inj hg).symm

/-- Settles O38: with `max_code = 257` the dictionary is full, and no chunk can raise. -/
theorem fullDictionaryStaysFrozen : Obligations.FullDictionaryStaysFrozen := by
  intro s n h hw hr hmax
  have hd := h.enc.dictInv hr
  have hnext : s.enc.dict.nextCode = 257 :=
    Nat.le_antisymm (hmax ▸ hd.capNext (by rw [hmax]; decide)) hd.next.1
  have hwidth : s.enc.dict.codeWidth = 9 := by
    rw [hw.enc (.inl hr), hnext, leastWidth_eq_nine (by decide)]
  have hfull : s.enc.dict.full = true := s.enc.dict.full_iff.2 ⟨by rw [hmax]; decide, by rw [hmax, hnext]⟩
  have hready : ((s.enc.accept.setResult 0).encLoop s.build n.toNat 0).st = .ready := by
    cases he : s.enc.eoi
    · have h257 : 257 ≤ 2 ^ s.build.maxw :=
        hnext ▸ hd.next.2.trans (Nat.pow_le_pow_right (by decide) hd.width.2)
      obtain ⟨t, ht, hst, -⟩ :=
        encChunkCountsItsBytes s n h.legal h.enc hr he (.inl ⟨by rw [hmax]; decide, hmax ▸ h257⟩)
      rw [exec_encChunk hr] at ht
      cases ht
      exact hst
    · rw [Engine.encLoop_of_eoi (g := s.enc.accept.setResult 0) he]
      exact hr
  have hdict := Engine.EncInv.encLoop_dict_of_full (g := s.enc.accept.setResult 0) n.toNat
    (h.enc.accept.setResult hr (n := 0) (by decide)) hr n.isLt hfull (.inl hready)
  exact ⟨_, exec_encChunk hr n, hready, hdict, by rw [hdict]; exact hnext, by rw [hdict]; exact hwidth⟩

end Sys2Proof.Machine
end

section
/-! SUPPORT. The code-word classes, each with its exact effect (spec/43_decoder.md R177 to R186); O42 to O45 and O51. -/

namespace Sys2Proof.Machine

/-! ### DEC.GROW (43 R182, R183) -/

theorem exec_decGrow_of_ok {s : State} {g : Engine} (h : s.dec.decGrow s.build = .ok () g) :
    exec .decGrow s = .next { s with dec := g, ret := .unit } := by
  show execDecGrow s = _
  rw [execDecGrow_eq, h]
  rfl

theorem exec_decGrow_of_raised {s : State} {g : Engine} (h : s.dec.decGrow s.build = .raised g) :
    exec .decGrow s = .next { s with dec := g, ret := .raised } := by
  show execDecGrow s = _
  rw [execDecGrow_eq, h]
  rfl

/-- Settles O42: the three answers of `decGrow_cases`. -/
theorem decGrowRule : Obligations.DecGrowRule := by
  intro s
  rcases s.dec.decGrow_cases s.build with ⟨hroom, he⟩ | ⟨⟨hf, hle⟩, hw, he⟩ | ⟨⟨hf, hle⟩, hw, he⟩
  · refine ⟨fun _ => exec_decGrow_of_ok he, fun hf hle => ?_, fun hf hle => ?_⟩ <;> exact absurd ⟨hf, hle⟩ hroom
  · refine ⟨fun h => ?_, fun _ _ hne => absurd hw hne, fun _ _ _ => exec_decGrow_of_raised he⟩
    simp [hf, Nat.not_lt.2 hle] at h
  · refine ⟨fun h => ?_, fun _ _ _ => exec_decGrow_of_ok he, fun _ _ heq => absurd heq hw⟩
    simp [hf, Nat.not_lt.2 hle] at h

/-- `DEC.GROW` would raise in this dictionary (43 R182). -/
def Dict.DecOverflows (maxw : Nat) (d : Dict) : Prop :=
  d.full = false ∧ 2 ^ d.codeWidth ≤ d.nextCode ∧ d.codeWidth = maxw

/-- The dictionary after a `DEC.GROW` that does not raise (43 R182). -/
def Dict.decWidened (d : Dict) : Dict :=
  { d with codeWidth := if d.full = false ∧ 2 ^ d.codeWidth ≤ d.nextCode then d.codeWidth + 1 else d.codeWidth }

theorem Engine.decGrow_of_overflow {B : Config.Build} {g : Engine} (h : g.dict.DecOverflows B.maxw) :
    g.decGrow B = .raised (g.raise .capacityViolation g.dict.nextCode) := by
  obtain ⟨hf, hle, hw⟩ := h
  rw [Engine.decGrow, if_pos ⟨hf, hle⟩, if_pos hw]

theorem Engine.decGrow_of_not_overflow {B : Config.Build} {g : Engine} (h : ¬g.dict.DecOverflows B.maxw) :
    g.decGrow B = .ok () { g with dict := g.dict.decWidened } := by
  rcases g.decGrow_cases B with ⟨hroom, he⟩ | ⟨⟨hf, hle⟩, hw, -⟩ | ⟨hgrow, -, he⟩
  · rw [he, Dict.decWidened, if_neg hroom]
  · exact absurd ⟨hf, hle, hw⟩ h
  · rw [he, Dict.decWidened, if_pos hgrow]

/-! ### A data code (43 R177, R180, R184) -/

/-- The engine after the data code `v` wrote the bytes `s` and left the dictionary `d`. -/
def Engine.decodedTo (B : Config.Build) (g : Engine) (d : Dict) (v : Nat) (s : List Byte) : Engine :=
  { g with
    dict := d
    node := some v
    bytesWritten := (countUp B)^[s.length] g.bytesWritten
    port := g.port.gained s }

theorem Engine.emitAll_mirror_setNode (B : Config.Build) (s : List Byte) (b : Byte) (v : Nat) (g : Engine) :
    ({ (g.emitAll B s).mirror b with node := some v } : Engine) = g.decodedTo B (g.mirror b).dict v s := by
  simp only [Engine.mirror_eq, Engine.emitAll_eq]
  rfl

/-- Bytes written, the mirrored insertion, `prev_code <- v`, `DEC.GROW`: where that does not raise. -/
theorem Engine.dataCode_ok {B : Config.Build} {g : Engine} {b : Byte} (s : List Byte) (v : Nat)
    (h : ¬(g.mirror b).dict.DecOverflows B.maxw) :
    ((g.emitAll B s).mirror b).finishCode B v =
      .ok .decoded (g.decodedTo B (g.mirror b).dict.decWidened v s) := by
  rw [Engine.finishCode, Engine.emitAll_mirror_setNode,
    Engine.decGrow_of_not_overflow (g := g.decodedTo B (g.mirror b).dict v s) h]
  rfl

/-- Where it raises, all but the width is as it would be (60 R212, R216). -/
theorem Engine.dataCode_raised {B : Config.Build} {g : Engine} {b : Byte} (s : List Byte) (v : Nat)
    (h : (g.mirror b).dict.DecOverflows B.maxw) :
    ((g.emitAll B s).mirror b).finishCode B v =
      .raised ((g.decodedTo B (g.mirror b).dict v s).raise .capacityViolation (g.mirror b).dict.nextCode) := by
  rw [Engine.finishCode, Engine.emitAll_mirror_setNode,
    Engine.decGrow_of_overflow (g := g.decodedTo B (g.mirror b).dict v s) h]
  rfl

/-- The counter after at least one increment, whatever it held. -/
theorem countUp_iterate_pos (B : Config.Build) {n : Nat} (c : Nat) (hn : 0 < n) :
    (countUp B)^[n] c = (c + n) % 2 ^ B.ctrw := by
  obtain ⟨n, rfl⟩ := Nat.exists_eq_succ_of_ne_zero (Nat.ne_of_gt hn)
  rw [Function.iterate_succ_apply, countUp_iterate B n _ (countUp_lt B c), countUp, Nat.mod_add_mod]
  congr 1; omega

/-! ### The class of a code word (30 R97) -/

/-- A code-word instruction is the decoder's step on the value it carries (log 10). -/
theorem exec_codeWord {s : State} {i : Instr} {v : Nat} (hi : codeValue i = some v) :
    exec i s = .next { s with dec := (s.dec.codeWord s.build v).engine } := by
  have hstep (c : CodeClass) (r : Res StepResult) (hr : s.dec.classOf v = c → s.dec.codeWord s.build v = r) :
      (if s.dec.classOf v = c then Host.Outcome.next (s.afterCode r)
        else .next (s.afterCode (s.dec.codeWord s.build v)) : Host.Outcome State Fault Refusal) =
        .next { s with dec := (s.dec.codeWord s.build v).engine } := by
    split
    · next hc => rw [hr hc]; rfl
    · rfl
  cases i with
  | literal b => cases hi; exact hstep _ _ fun h => by simp only [Engine.codeWord, h]
  | clear => cases hi; rfl
  | string w => cases hi; exact hstep _ _ fun h => by simp only [Engine.codeWord, h]
  | kwkwk w => cases hi; exact hstep _ _ fun h => by simp only [Engine.codeWord, h]
  | invalid w => cases hi; exact hstep _ _ fun h => by simp only [Engine.codeWord, h]
  | _ => cases hi

/-- A code below `next_code` other than 256 is a table look-up (43 R179). -/
theorem Engine.codeWord_of_lt {B : Config.Build} {g : Engine} {v : Nat} (hv : v < g.dict.nextCode) (h256 : v ≠ 256) :
    g.codeWord B v = g.lookupCode B v := by
  rcases classify_cases g.dict.nextCode g.kwkwkAllowed v with
    ⟨h, -⟩ | ⟨-, -, -, hc⟩ | ⟨-, -, -, hc⟩ | ⟨-, h, -⟩ | ⟨-, h, -⟩
  · exact absurd h h256
  · simp only [Engine.codeWord, Engine.classOf, hc]
  · simp only [Engine.codeWord, Engine.classOf, hc]
  · omega
  · omega

/-- The code `next_code` with the three side conditions of 43 R181. -/
theorem Engine.codeWord_of_kwkwk {B : Config.Build} {g : Engine} {p : Nat} (h257 : 257 ≤ g.dict.nextCode)
    (hn : g.node = some p) (hf : g.dict.full = false)
    (hc : g.dict.child (some p) (g.dict.firstOf (some p)) = none) :
    g.codeWord B g.dict.nextCode =
      ((g.emitAll B (g.dict.seq p ++ [g.dict.firstOf (some p)])).mirror (g.dict.firstOf (some p))).finishCode B
        g.dict.nextCode := by
  obtain ⟨-, -, -, hk, -⟩ := classOfEveryCodeValue g g.dict.nextCode h257
  have hclass := hk.2 ⟨rfl, by simp [hn], hf, by rw [hn]; exact hc⟩
  simp only [Engine.codeWord, hclass, Engine.kwkwkCode, Engine.firstPrev, hn]

/-- Settles O45: the value has class INVALID, which raises before every other effect. -/
theorem invalidCodeRaises : Obligations.InvalidCodeRaises := by
  intro s v h257 hv
  obtain ⟨-, -, -, -, hinv⟩ := classOfEveryCodeValue s.dec v h257
  have hclass : s.dec.classOf v = .invalid := by
    refine hinv.2 (hv.imp_right fun ⟨he, hside⟩ => ⟨he, fun ⟨hn, hf, hc⟩ => ?_⟩)
    rcases hside with h | h | h
    · exact hn h
    · rw [hf] at h; cases h
    · exact h hc
  rw [exec_codeWord rfl]
  simp only [Engine.codeWord, hclass]
  rfl

/-! ### LITERAL and STRING (43 R179, R180) -/

/-- The code words that are table look-ups: `v` is below `next_code` and not 256. -/
theorem exec_lookup {s : State} {i : Instr} {v : Nat}
    (hi : (∃ b : Byte, i = .literal b ∧ v = b.toNat) ∨ (i = .string v ∧ 257 ≤ v)) (hv : v < s.dec.dict.nextCode) :
    exec i s = .next { s with dec := (s.dec.lookupCode s.build v).engine } := by
  have hcode : codeValue i = some v ∧ v ≠ 256 := by
    rcases hi with ⟨b, rfl, rfl⟩ | ⟨rfl, h⟩
    · exact ⟨rfl, Nat.ne_of_lt b.isLt⟩
    · exact ⟨rfl, by omega⟩
  rw [exec_codeWord hcode.1, Engine.codeWord_of_lt hv hcode.2]

theorem Dict.firstOf_of_find {d : Dict} {k : Nat} {e : Entry} (h : Table.find d.tab k = some e) :
    d.firstOf (some k) = e.first := by
  simp only [Dict.firstOf, Dict.entry, h]

/-- The first byte of a resident sequence is the one its entry stores (10 R43 item 5). -/
theorem Dict.Inv.head?_seq {maxw : Nat} {d : Dict} (h : d.Inv maxw) {k : Nat}
    (hk : (Table.find d.tab k).isSome = true) : (d.seq k).head? = some (d.firstOf (some k)) := by
  obtain ⟨e, he⟩ := Option.isSome_iff_exists.1 hk
  rw [(h.seq_length_head he).2, Dict.firstOf_of_find he]

/-- A table look-up whose sequence begins with `b`. -/
theorem Engine.lookupCode_of_head {B : Config.Build} {g : Engine} {v : Nat} {b : Byte}
    (hb : (g.dict.seq v).head? = some b) :
    g.lookupCode B v = ((g.emitAll B (g.dict.seq v)).mirror b).finishCode B v := by
  rw [Engine.lookupCode, List.headD_eq_head?_getD, hb, Option.getD_some]

/-- Settles O43: the sequence begins with the entry's first byte, and `DEC.GROW` does not raise. -/
theorem lookupCodesDecode : Obligations.LookupCodesDecode := by
  intro s v i h hr hi hv seq d hcap
  have hd := h.dict (.inl hr)
  have hmirror : (s.dec.mirror (s.dec.dict.firstOf (some v))).dict = d :=
    congrArg Engine.dict (Engine.mirror_eq (s.dec.dict.firstOf (some v)) s.dec)
  have hok := Engine.dataCode_ok seq v (hmirror ▸ hcap)
  rw [← Engine.lookupCode_of_head (hd.head?_seq hv)] at hok
  rw [exec_lookup hi ((hd.domain v).1 hv).1, hok, hmirror, ← countUp_iterate _ _ _ h.counters.2]
  rfl

/-! ### KWKWK (43 R181) -/

/-- The mirrored insertion where the edge is absent and the dictionary is not full. -/
theorem Engine.mirror_dict_of_insert {g : Engine} {p : Nat} {b : Byte} (hn : g.node = some p)
    (hc : g.dict.child (some p) b = none) (hf : g.dict.full = false) :
    (g.mirror b).dict =
      { g.dict with
        tab := Table.put g.dict.tab g.dict.nextCode
          { parent := some p, last := b, first := g.dict.firstOf (some p), len := g.dict.lenOf (some p) + 1 }
        nextCode := g.dict.nextCode + 1 } := by
  simp only [Engine.mirror, hn, Dict.extend, hc, hf]
  rfl

/-- Settles O44: the code is of class KWKWK, its insertion is made, and `DEC.GROW` does not raise. -/
theorem kwkwkCodeDecodes : Obligations.KwkwkCodeDecodes := by
  intro s p h hr hn hf hc v seq d hcap
  have hmirror : (s.dec.mirror (s.dec.dict.firstOf (some p))).dict = d := Engine.mirror_dict_of_insert hn hc hf
  have hok := Engine.dataCode_ok seq v (hmirror ▸ hcap)
  rw [exec_codeWord rfl, Engine.codeWord_of_kwkwk (h.dict (.inl hr)).next.1 hn hf hc, hok, hmirror,
    ← countUp_iterate _ _ _ h.counters.2]
  rfl

/-! ### The width at its limit (43 R182, 60 R216) -/

/-- Settles O51: the insertion makes `next_code = 2^MAXW` in a dictionary that is not full, so `DEC.GROW` raises. -/
theorem decCapacityViolation : Obligations.DecCapacityViolation := by
  intro s p hmaxw hw hnext hcap hn raised
  have hpow : 2 ^ 9 ≤ 2 ^ s.build.maxw := Nat.pow_le_pow_right (by decide) hmaxw
  have hf : s.dec.dict.full = false := s.dec.dict.full_eq_false_iff.2 (by omega)
  have hraise (v : Nat) (b : Byte) (seq : List Byte) (hseq : 0 < seq.length)
      (hc : s.dec.dict.child (some p) b = none) :
      ({ s with dec := (((s.dec.emitAll s.build seq).mirror b).finishCode s.build v).engine } : State) =
        raised v b seq := by
    have hmirror := Engine.mirror_dict_of_insert hn hc hf
    have hover : (s.dec.mirror b).dict.DecOverflows s.build.maxw := by
      rw [hmirror]
      refine ⟨(Dict.full_eq_false_iff _).2 ?_, ?_, hw⟩ <;> simp only [hw, hnext]
      · omega
      · exact Nat.le_refl _
    rw [Engine.dataCode_raised seq v hover, hmirror, hnext]
    simp only [raised, Res.engine_raised, Engine.raise, Engine.decodedTo, hnext, countUp_iterate_pos _ _ hseq]
  refine ⟨fun i v b hi hv _ hb hc => ?_, fun hc => ?_⟩
  · have hseq := List.length_pos_of_mem (List.mem_of_mem_head? hb)
    rw [exec_lookup hi hv, Engine.lookupCode_of_head hb, hraise v b _ hseq hc]
  · rw [exec_codeWord rfl, Engine.codeWord_of_kwkwk (by omega) hn hf hc, hraise _ _ _ (by simp) hc]

end Sys2Proof.Machine
end

section
/-! SUPPORT. DEC.STEP as a pull and a code word, and DEC_CHUNK as a loop of steps (spec/43_decoder.md R177, R188, R189,
R194); O47 to O49. -/

namespace Sys2Proof.Machine

/-! ### What BR.PULL writes (41 R146) -/

@[simp] theorem Engine.setResult_dict (g : Engine) (r : Word) : (g.setResult r).dict = g.dict := rfl

@[simp] theorem Engine.setResult_node (g : Engine) (r : Word) : (g.setResult r).node = g.node := rfl

/-- The engine with the part that `BR.PULL` writes replaced: the source's side of the port, its byte
count, the buffer. -/
def Engine.withReader (g : Engine) (q : Port) (bytesRead buf bits : Nat) : Engine :=
  { g with port := q, bytesRead := bytesRead, buf := buf, bits := bits }

theorem Engine.takeByte_of_end {B : Config.Build} {g : Engine} (h : g.port.src.length ≤ g.port.pos) :
    g.takeByte B = (none, { g with port := g.port.answeredNone }) := by
  simp only [Engine.takeByte, Port.read_of_end h]

theorem Engine.refill_of_end {B : Config.Build} {w : Nat} {g : Engine} (hw : g.bits < w)
    (hend : g.port.src.length ≤ g.port.pos) (n : Nat) :
    g.refill B w (n + 1) = { g with port := g.port.answeredNone } := by
  rw [Engine.refill, if_pos hw, Engine.takeByte_of_end hend]

theorem Engine.refill_of_byte {B : Config.Build} {w : Nat} {g : Engine} {c : Byte} (hw : g.bits < w)
    (hc : g.port.src[g.port.pos]? = some c) (n : Nat) :
    g.refill B w (n + 1) =
      ({ g.afterRead B with buf := g.buf * 256 + c.toNat, bits := g.bits + 8 } : Engine).refill B w n := by
  rw [Engine.refill, if_pos hw, Engine.takeByte_of_byte hc]

/-- The refill loop writes that part only, and nothing to the sink, whatever `RESULT` holds. -/
theorem Engine.refill_frame (B : Config.Build) (w n : Nat) (g : Engine) :
    ∃ q c u b, q.snk = g.port.snk ∧ ∀ r, (g.setResult r).refill B w n = (g.withReader q c u b).setResult r := by
  induction n generalizing g with
  | zero => exact ⟨g.port, g.bytesRead, g.buf, g.bits, rfl, fun _ => rfl⟩
  | succ n ih =>
    by_cases hw : g.bits < w
    · rcases hc : g.port.src[g.port.pos]? with _ | c
      · exact ⟨g.port.answeredNone, g.bytesRead, g.buf, g.bits, rfl, fun r =>
          Engine.refill_of_end (g := g.setResult r) hw (List.getElem?_eq_none_iff.1 hc) n⟩
      · obtain ⟨q, c', u, b, hq, hall⟩ :=
          ih { g.afterRead B with buf := g.buf * 256 + c.toNat, bits := g.bits + 8 }
        exact ⟨q, c', u, b, hq, fun r => (Engine.refill_of_byte (g := g.setResult r) hw hc n).trans (hall r)⟩
    · exact ⟨g.port, g.bytesRead, g.buf, g.bits, rfl, fun r =>
        Engine.refill_eq_self B (n + 1) (g := g.setResult r) (Nat.le_of_not_lt hw)⟩

/-- So does `BR.PULL`. -/
theorem Engine.pull_frame (B : Config.Build) (w : Nat) (g : Engine) :
    ∃ x q c u b, q.snk = g.port.snk ∧ ∀ r, (g.setResult r).pull B w = (x, (g.withReader q c u b).setResult r) := by
  obtain ⟨q, c, u, b, hq, hall⟩ := g.refill_frame B w w
  by_cases hb : b < w
  · refine ⟨none, q, c, u, b, hq, fun r => ?_⟩
    rw [Engine.pull, hall r]
    exact if_pos hb
  · refine ⟨some (u >>> (b - w)), q, c, u % 2 ^ (b - w), b - w, hq, fun r => ?_⟩
    rw [Engine.pull, hall r]
    exact if_neg hb

theorem Engine.pull_eq (B : Config.Build) (w : Nat) (g : Engine) :
    ∃ x q c u b, q.snk = g.port.snk ∧ g.pull B w = (x, g.withReader q c u b) := by
  obtain ⟨x, q, c, u, b, hq, hall⟩ := g.pull_frame B w
  exact ⟨x, q, c, u, b, hq, hall g.result⟩

/-! ### What a code word and DEC.STEP write -/

/-- What `DEC.STEP` writes, short of a raise: all but the lifecycle state, the flags, `RESULT` and `ERRINFO`. -/
structure DecPart where
  dict : Dict
  node : NodeId
  buf : Nat
  bits : Nat
  bytesRead : Nat
  bytesWritten : Nat
  port : Port

def Engine.withDecPart (g : Engine) (p : DecPart) : Engine :=
  { g with
    dict := p.dict
    node := p.node
    buf := p.buf
    bits := p.bits
    bytesRead := p.bytesRead
    bytesWritten := p.bytesWritten
    port := p.port }

/-- From `g` the operation answers `a` or raises, in either case the same for every `RESULT`, which it keeps. -/
def DecAnswers {α : Type} (F : Engine → Res α) (a : α) (g : Engine) : Prop :=
  ∃ p, (∀ r, F (g.setResult r) = .ok a ((g.withDecPart p).setResult r)) ∨
    ∃ x n, ∀ r, F (g.setResult r) = .raised (((g.withDecPart p).raise x n).setResult r)

/-- A data code changes the engine as `decodedTo` says, and may then raise. -/
theorem decAnswers_dataCode (B : Config.Build) (s : List Byte) (b : Byte) (v : Nat) (g : Engine) :
    DecAnswers (fun g => ((g.emitAll B s).mirror b).finishCode B v) .decoded g := by
  have hmirror (r : Word) : ((g.setResult r).mirror b).dict = (g.mirror b).dict := by
    rw [Engine.mirror_eq, Engine.mirror_eq]; rfl
  by_cases h : (g.mirror b).dict.DecOverflows B.maxw
  · refine ⟨⟨(g.mirror b).dict, some v, g.buf, g.bits, g.bytesRead, (countUp B)^[s.length] g.bytesWritten,
      g.port.gained s⟩, .inr ⟨.capacityViolation, (g.mirror b).dict.nextCode, fun r => ?_⟩⟩
    refine (Engine.dataCode_raised s v (hmirror r ▸ h)).trans ?_
    rw [hmirror r]
    rfl
  · refine ⟨⟨(g.mirror b).dict.decWidened, some v, g.buf, g.bits, g.bytesRead, (countUp B)^[s.length] g.bytesWritten,
      g.port.gained s⟩, .inl fun r => ?_⟩
    refine (Engine.dataCode_ok s v (hmirror r ▸ h)).trans ?_
    rw [hmirror r]
    rfl

theorem DecAnswers.congr {α : Type} {F G : Engine → Res α} {a : α} {g : Engine} (h : DecAnswers F a g)
    (hFG : ∀ r, G (g.setResult r) = F (g.setResult r)) : DecAnswers G a g := by
  obtain ⟨p, hp⟩ := h
  refine ⟨p, hp.imp (fun h r => (hFG r).trans (h r)) ?_⟩
  exact fun ⟨x, n, h⟩ => ⟨x, n, fun r => (hFG r).trans (h r)⟩

theorem decAnswers_lookupCode (B : Config.Build) (v : Nat) (g : Engine) :
    DecAnswers (fun g => g.lookupCode B v) .decoded g := by
  have hdata := decAnswers_dataCode B (g.dict.seq v) ((g.dict.seq v).headD (Config.absentFirst (some v))) v g
  refine hdata.congr fun r => ?_
  simp only [Engine.lookupCode, Engine.setResult_dict]

theorem decAnswers_kwkwkCode (B : Config.Build) (v : Nat) (g : Engine) :
    DecAnswers (fun g => g.kwkwkCode B v) .decoded g := by
  cases hn : g.node with
  | none =>
    refine (decAnswers_dataCode B [g.firstPrev] g.firstPrev v g).congr fun r => ?_
    simp only [Engine.kwkwkCode, Engine.firstPrev, Engine.setResult_dict, Engine.setResult_node, hn, List.nil_append]
  | some p =>
    refine (decAnswers_dataCode B (g.dict.seq p ++ [g.firstPrev]) g.firstPrev v g).congr fun r => ?_
    simp only [Engine.kwkwkCode, Engine.firstPrev, Engine.setResult_dict, Engine.setResult_node, hn]

theorem Engine.classOf_eq_clear_iff (g : Engine) (v : Nat) : g.classOf v = .clear ↔ v = 256 := by
  refine ⟨fun h => by_contra fun hv => g.classOf_ne_clear hv h, fun h => ?_⟩
  rw [Engine.classOf, classify, if_pos h]

/-- A code word is `Cleared` exactly where its value is 256 (43 R178). -/
theorem decAnswers_codeWord (B : Config.Build) (v : Nat) (g : Engine) :
    DecAnswers (fun g => g.codeWord B v) (if v = 256 then .cleared else .decoded) g := by
  have hclass (r : Word) : (g.setResult r).classOf v = g.classOf v := rfl
  by_cases h256 : v = 256
  · have hc := (g.classOf_eq_clear_iff v).2 h256
    rw [if_pos h256]
    refine ⟨⟨g.dict.reset, none, 0, 0, g.bytesRead, g.bytesWritten, g.port⟩, .inl fun r => ?_⟩
    simp only [Engine.codeWord, hclass, hc]
    rfl
  · rw [if_neg h256]
    cases hc : g.classOf v
    case clear => exact absurd hc (g.classOf_ne_clear h256)
    case literal =>
      exact (decAnswers_lookupCode B v g).congr fun r => by simp only [Engine.codeWord, hclass, hc]
    case string =>
      exact (decAnswers_lookupCode B v g).congr fun r => by simp only [Engine.codeWord, hclass, hc]
    case kwkwk =>
      exact (decAnswers_kwkwkCode B v g).congr fun r => by simp only [Engine.codeWord, hclass, hc]
    case invalid =>
      refine ⟨⟨g.dict, g.node, g.buf, g.bits, g.bytesRead, g.bytesWritten, g.port⟩,
        .inr ⟨.protocolViolation, v, fun r => ?_⟩⟩
      simp only [Engine.codeWord, hclass, hc]
      rfl

theorem decAnswers_decStep (B : Config.Build) (g : Engine) : ∃ a, DecAnswers (fun g => g.decStep B) a g := by
  obtain ⟨x, q, c, u, b, -, hpull⟩ := g.pull_frame B g.dict.codeWidth
  cases x with
  | none =>
    refine ⟨.endOfStream, ⟨g.dict, g.node, u, b, c, g.bytesWritten, q⟩, .inl fun r => ?_⟩
    simp only [Engine.decStep, Engine.setResult_dict, hpull]
    rfl
  | some v =>
    have hstep (r : Word) : (g.setResult r).decStep B = ((g.withReader q c u b).setResult r).codeWord B v := by
      simp only [Engine.decStep, Engine.setResult_dict, hpull]
    obtain ⟨p, hcode⟩ := decAnswers_codeWord B v (g.withReader q c u b)
    refine ⟨_, p, hcode.imp (fun h r => (hstep r).trans (h r)) ?_⟩
    exact fun ⟨y, n, h⟩ => ⟨y, n, fun r => (hstep r).trans (h r)⟩

/-! ### DEC.STEP (43 R177, R178, R188) -/

theorem exec_decStep_of_ok {s : State} {a : StepResult} {g : Engine} (h : s.dec.decStep s.build = .ok a g) :
    exec .decStep s = .next { s with dec := g, ret := a.tag } := by
  show execDecStep s = _
  rw [execDecStep_eq, h]
  rfl

theorem exec_decStep_of_raised {s : State} {g : Engine} (h : s.dec.decStep s.build = .raised g) :
    exec .decStep s = .next { s with dec := g, ret := .raised } := by
  show execDecStep s = _
  rw [execDecStep_eq, h]
  rfl

/-- The instruction of a value's class carries the value: only a value up to 255 is a LITERAL. -/
theorem codeValue_classInstr_classify (nc : Nat) (kw : Bool) (v : Nat) :
    codeValue (classInstr (classify nc kw v) v) = some v := by
  rcases classify_cases nc kw v with ⟨rfl, h⟩ | ⟨-, -, hle, h⟩ | ⟨-, -, -, h⟩ | ⟨-, -, -, h⟩ | ⟨-, -, -, h⟩ <;> rw [h]
  · rfl
  · exact congrArg some (Nat.mod_eq_of_lt (Nat.lt_succ_of_le hle))
  · rfl
  · rfl
  · rfl

/-- Settles O47: the pull changes neither dictionary nor `prev_code`, so the class is that of the state before it. -/
theorem decStepPullsAndRunsTheCode : Obligations.DecStepPullsAndRunsTheCode := by
  intro s hst
  obtain ⟨x, q, c, u, b, -, hpull⟩ := s.dec.pull_eq s.build s.dec.dict.codeWidth
  refine ⟨_, exec_brPull_of_eq hpull, ?_⟩
  cases x with
  | none => exact .inl ⟨rfl, exec_decStep_of_ok (a := .endOfStream) (by simp only [Engine.decStep, hpull])⟩
  | some v =>
    refine .inr ⟨v, rfl, _, exec_codeWord (codeValue_classInstr_classify _ _ v), ?_⟩
    have hstep : s.dec.decStep s.build = (s.dec.withReader q c u b).codeWord s.build v := by
      simp only [Engine.decStep, hpull]
    obtain ⟨p, hok | ⟨y, n, hraise⟩⟩ := decAnswers_codeWord s.build v (s.dec.withReader q c u b)
    · have hcode : (s.dec.withReader q c u b).codeWord s.build v = _ := hok s.dec.result
      have hret : (if ((s.dec.withReader q c u b).withDecPart p).st = .error then PrimResult.raised
          else if v = 256 then .cleared else .decoded) = (if v = 256 then StepResult.cleared else .decoded).tag := by
        rw [if_neg (show ¬((s.dec.withReader q c u b).withDecPart p).st = .error from hst)]
        split <;> rfl
      rw [exec_decStep_of_ok (hstep.trans hcode), hcode, ← hret]
      rfl
    · have hcode : (s.dec.withReader q c u b).codeWord s.build v = _ := hraise s.dec.result
      rw [exec_decStep_of_raised (hstep.trans hcode), hcode]
      rfl

/-! ### DEC_CHUNK by units (43 R188, R189) -/

/-- In `READY` the command is the loop, from the accepted engine with `RESULT` at 0. -/
theorem exec_decChunk {s : State} (hr : s.dec.st = .ready) (n : BitVec 28) :
    exec (.decChunk n) s = .next { s with dec := (s.dec.accept.setResult 0).decLoop s.build n.toNat 0 } := by
  show Host.Outcome.next (s.onEng .dec _) = _
  rw [State.onEng_eq, State.eng_dec, s.dec.whenReady_ready _ hr]
  rfl

theorem Engine.decLoop_of_raised {B : Config.Build} {g g' : Engine} (hr : g.st = .ready)
    (h : g.decStep B = .raised g') (left count : Nat) : g.decLoop B (left + 1) count = g' := by
  simp only [Engine.decLoop, if_pos hr, h]

theorem Engine.decLoop_of_end {B : Config.Build} {g g' : Engine} (hr : g.st = .ready)
    (h : g.decStep B = .ok .endOfStream g') (left count : Nat) :
    g.decLoop B (left + 1) count = { g'.latchEoi with st := .done } := by
  simp only [Engine.decLoop, if_pos hr, h]

/-- A decoded or cleared code is counted. -/
theorem Engine.decLoop_of_code {B : Config.Build} {g g' : Engine} {a : StepResult} (hr : g.st = .ready)
    (h : g.decStep B = .ok a g') (ha : a ≠ .endOfStream) (left count : Nat) :
    g.decLoop B (left + 1) count = (g'.setResult (BitVec.ofNat 32 (count + 1))).decLoop B left (count + 1) := by
  cases a
  case endOfStream => exact absurd rfl ha
  all_goals simp only [Engine.decLoop, if_pos hr, h]; rfl

theorem Engine.decLoop_of_not_ready {B : Config.Build} {g : Engine} (h : g.st ≠ .ready) (left count : Nat) :
    g.decLoop B left count = g := by
  cases left with
  | zero => rfl
  | succ left => rw [Engine.decLoop, if_neg h]

/-- Settles O48: no round, or the one round's step and its accounting. -/
theorem decChunkByUnits : Obligations.DecChunkByUnits := by
  refine fun s hr => ⟨exec_decChunk hr 0, ?_⟩
  have h1 : (1 : BitVec 28).toNat = 0 + 1 := rfl
  have hready : (s.dec.accept.setResult 0).st = .ready := hr
  rw [exec_decChunk hr, h1]
  rcases hs : (s.dec.accept.setResult 0).decStep s.build with ⟨a, g⟩ | g
  · refine ⟨_, exec_decStep_of_ok (s := { s with dec := s.dec.accept.setResult 0 }) hs, ?_⟩
    cases a with
    | endOfStream => rw [Engine.decLoop_of_end hready hs]; rfl
    | decoded => rw [Engine.decLoop_of_code hready hs (by decide)]; rfl
    | cleared => rw [Engine.decLoop_of_code hready hs (by decide)]; rfl
  · refine ⟨_, exec_decStep_of_raised (s := { s with dec := s.dec.accept.setResult 0 }) hs, ?_⟩
    rw [Engine.decLoop_of_raised hready hs]; rfl

/-! ### Chunks compose (43 R194) -/

/-- The loop with more rounds to go: an end or a raise ends the command; else the loop goes on from the count reached,
which `RESULT` shows. -/
theorem Engine.decLoop_add {B : Config.Build} (a b count : Nat) {g : Engine} (hr : g.st = .ready)
    (hres : g.result = BitVec.ofNat 32 count) :
    ((g.decLoop B a count).st ≠ .ready → g.decLoop B (a + b) count = g.decLoop B a count) ∧
    ((g.decLoop B a count).st = .ready →
      (g.decLoop B a count).refused = g.refused ∧ (g.decLoop B a count).rsn = g.rsn ∧
      (g.decLoop B a count).result = BitVec.ofNat 32 (count + a) ∧
      g.decLoop B (a + b) count = (g.decLoop B a count).decLoop B b (count + a)) := by
  induction a generalizing count g with
  | zero => exact ⟨fun h => absurd hr h, fun _ => ⟨rfl, rfl, hres, by rw [Nat.zero_add]; rfl⟩⟩
  | succ a ih =>
    rw [Nat.add_right_comm]
    obtain ⟨x, p, hok | ⟨y, n, hraise⟩⟩ := decAnswers_decStep B g
    · have hs : g.decStep B = .ok x (g.withDecPart p) := hok g.result
      by_cases hx : x = .endOfStream
      · subst hx
        rw [Engine.decLoop_of_end hr hs, Engine.decLoop_of_end hr hs]
        exact ⟨fun _ => rfl, fun h => by cases h⟩
      · rw [Engine.decLoop_of_code hr hs hx, Engine.decLoop_of_code hr hs hx]
        have hnext := ih (count + 1) (g := (g.withDecPart p).setResult (BitVec.ofNat 32 (count + 1))) hr rfl
        rwa [Nat.add_assoc count 1 a, Nat.add_comm 1 a] at hnext
    · have hs : g.decStep B = .raised ((g.withDecPart p).raise y n) := hraise g.result
      rw [Engine.decLoop_of_raised hr hs, Engine.decLoop_of_raised hr hs]
      exact ⟨fun _ => rfl, fun h => by cases h⟩

/-- A loop that counts on from `k` differs from one that counts from 0 in `RESULT` only, by `k`. -/
theorem Engine.decLoop_shift {B : Config.Build} (k left count : Nat) (g : Engine) :
    (g.setResult (BitVec.ofNat 32 (k + count))).decLoop B left (k + count) =
      ((g.setResult (BitVec.ofNat 32 count)).decLoop B left count).setResult
        (BitVec.ofNat 32 k + ((g.setResult (BitVec.ofNat 32 count)).decLoop B left count).result) := by
  induction left generalizing count g with
  | zero => simp [Engine.decLoop, BitVec.ofNat_add]
  | succ left ih =>
    by_cases hr : g.st = .ready
    · obtain ⟨x, p, hok | ⟨y, n, hraise⟩⟩ := decAnswers_decStep B g
      · by_cases hx : x = .endOfStream
        · subst hx
          have hround (r : Word) := Engine.decLoop_of_end (g := g.setResult r) hr (hok r) left
          rw [hround, hround, BitVec.ofNat_add]
          rfl
        · have hround (r : Word) := Engine.decLoop_of_code (g := g.setResult r) hr (hok r) hx left
          simp only [hround, Engine.setResult_setResult, Nat.add_assoc k count 1]
          exact ih (count + 1) (g.withDecPart p)
      · have hround (r : Word) := Engine.decLoop_of_raised (g := g.setResult r) hr (hraise r) left
        simp only [hround, Engine.setResult_setResult, Engine.setResult_result, BitVec.ofNat_add]
    · have hstop (r : Word) := Engine.decLoop_of_not_ready (B := B) (g := g.setResult r) hr (left + 1)
      simp only [hstop, Engine.setResult_setResult, Engine.setResult_result, BitVec.ofNat_add]

/-- A second chunk goes on where the first ended. -/
theorem Engine.decLoop_compose {B : Config.Build} (a b : Nat) {g : Engine} (hr : g.st = .ready)
    (hst : ((g.accept.setResult 0).decLoop B a 0).st = .ready) :
    (g.accept.setResult 0).decLoop B (a + b) 0 =
      ((((g.accept.setResult 0).decLoop B a 0).accept.setResult 0).decLoop B b 0).setResult
        (((g.accept.setResult 0).decLoop B a 0).result +
          ((((g.accept.setResult 0).decLoop B a 0).accept.setResult 0).decLoop B b 0).result) := by
  obtain ⟨href, hrsn, hres, hl⟩ := (Engine.decLoop_add a b 0 (g := g.accept.setResult 0) hr rfl).2 hst
  rw [Engine.accept_of_not_refused href hrsn, hl]
  generalize (g.accept.setResult 0).decLoop B a 0 = g1 at hres
  have hshift := Engine.decLoop_shift (B := B) a b 0 g1
  rw [Nat.zero_add] at hres ⊢
  rw [Nat.add_zero, ← hres, Engine.setResult_self] at hshift
  exact hshift

/-- Settles O49: the loop of the longer chunk is that of the first and then that of the second, counting on. -/
theorem decChunksCompose : Obligations.DecChunksCompose := by
  intro s a b hab hr
  have hsum : (a + b).toNat = a.toNat + b.toNat := by rw [BitVec.toNat_add, Nat.mod_eq_of_lt hab]
  rw [exec_decChunk hr, exec_decChunk hr, hsum]
  refine ⟨_, rfl, fun hst => ?_, fun hst => ⟨_, exec_decChunk hst b, ?_⟩⟩
  · rw [(Engine.decLoop_add a.toNat b.toNat 0 (g := s.dec.accept.setResult 0) hr rfl).1 hst]
  · rw [Engine.decLoop_compose a.toNat b.toNat hr hst]
    rfl

end Sys2Proof.Machine
end

section
/-! SUPPORT. The decoder in lockstep with the encoder, one insertion behind it (spec/43_decoder.md R180, R181, R183,
R191); for O59. -/

namespace Sys2Proof.Machine

/-! ### Sequences in a dictionary that keeps its entries (40 R131) -/

/-- A sound dictionary with all the entries of another has its sequences. -/
theorem Dict.Inv.seq_of_entries {maxw : Nat} {d d' : Dict} (h : d.Inv maxw) (h' : d'.Inv maxw)
    (he : ∀ k e, Table.find d.tab k = some e → Table.find d'.tab k = some e) {k : Nat}
    (hk : (Table.find d.tab k).isSome = true) : d'.seq k = d.seq k := by
  induction k using Nat.strong_induction_on with
  | _ k ih =>
    obtain ⟨e, hek⟩ := Option.isSome_iff_exists.1 hk
    rw [h'.seq_eq (he k e hek), h.seq_eq hek]
    rcases h.parent_cases hek with ⟨-, rfl⟩ | ⟨-, p, f, hp, hlt, hpf, -, -⟩
    · rfl
    · rw [hp, Dict.nodeSeq, Dict.nodeSeq, ih p hlt (by simp [hpf])]

theorem Dict.Inv.firstOf_literal {maxw : Nat} {d : Dict} (h : d.Inv maxw) (c : Byte) :
    d.firstOf (some c.toNat) = c := Dict.firstOf_of_find (h.literals c)

theorem Dict.Inv.seq_literal {maxw : Nat} {d : Dict} (h : d.Inv maxw) (c : Byte) : d.seq c.toNat = [c] :=
  h.seq_eq (h.literals c)

/-- Along an edge the sequence gets one byte longer. -/
theorem Dict.Inv.seq_child {maxw : Nat} {d : Dict} (h : d.Inv maxw) {n : NodeId} {c : Byte} {k : Nat}
    (hc : d.child n c = some k) : d.seq k = d.nodeSeq n ++ [c] := by
  obtain ⟨e, he, hp, hl⟩ := Table.find_of_child d.tab h.sorted n c k hc
  rw [h.seq_eq he, hp, hl]

/-- Along an edge from a code the first byte stays. -/
theorem Dict.Inv.firstOf_child {maxw : Nat} {d : Dict} (h : d.Inv maxw) {j k : Nat} {c : Byte}
    (hc : d.child (some j) c = some k) : d.firstOf (some k) = d.firstOf (some j) := by
  obtain ⟨e, he, hp, -⟩ := Table.find_of_child d.tab h.sorted (some j) c k hc
  rcases h.parent_cases he with ⟨-, rfl⟩ | ⟨-, p, f, hp', -, hpf, -, hfirst⟩
  · cases hp
  · rw [hp] at hp'
    cases hp'
    rw [Dict.firstOf_of_find he, Dict.firstOf_of_find hpf, hfirst]

/-! ### Room for the next insertion (43 R182) -/

/-- The dictionary is full, or its next insertion stays within `2^MAXW` codes. -/
def Dict.Room (maxw : Nat) (d : Dict) : Prop := d.full = true ∨ d.nextCode < 2 ^ maxw

theorem Dict.Room.not_decOverflows {maxw : Nat} {d : Dict} (h : d.Room maxw) : ¬d.DecOverflows maxw := by
  rintro ⟨hf, hle, rfl⟩
  rcases h with h | h
  · rw [hf] at h; cases h
  · omega

/-- What has room at last had room before: `next_code` does not fall, and a full dictionary within `2^MAXW` codes has
its `max_code` within them. -/
theorem Dict.Room.of_grows {maxw : Nat} {d d' : Dict} (h : d'.Room maxw) (hg : d.Grows d') (hi : d'.Inv maxw) :
    d.Room maxw := by
  have hpow : 2 ^ d'.codeWidth ≤ 2 ^ maxw := Nat.pow_le_pow_right (by decide) hi.width.2
  have hnext := hi.next.2
  have hle := hg.next
  by_cases hf : d.full = true
  · exact .inl hf
  · refine .inr ?_
    rcases h with h | h
    · rw [d'.full_iff, hg.maxCode] at h
      rw [d.full_iff] at hf
      omega
    · omega

/-! ### One insertion behind (43 R180, R181) -/

/-- The dictionary of `D` with its mirrored insertion made is the encoder's dictionary `d`, with its cursor at `n`.
The byte to insert, which the decoder does not know yet, is the first byte of the cursor's sequence; the edge is
absent in `D`, since the encoder made its insertion there. -/
structure Dict.IsAheadOf (d : Dict) (n : NodeId) (D : Engine) : Prop where
  dict : (D.mirror (d.firstOf n)).dict = d
  edge : ∀ p, D.node = some p → n ≠ none ∧ D.dict.child (some p) (d.firstOf n) = none

/-- The relation reads the decoder's dictionary and previous code only. -/
theorem Dict.IsAheadOf.congr {d : Dict} {n : NodeId} {D D' : Engine} (h : d.IsAheadOf n D) (hd : D'.dict = D.dict)
    (hn : D'.node = D.node) : d.IsAheadOf n D' where
  dict := by
    have hdict := h.dict
    rw [Engine.mirror_eq] at hdict ⊢
    rw [hd, hn]
    exact hdict
  edge p hp := by
    rw [hd]
    exact h.edge p (hn ▸ hp)

/-- The cursor may move deeper, as the first byte of its sequence stays. -/
theorem Dict.IsAheadOf.of_child {maxw : Nat} {d : Dict} {n : NodeId} {D : Engine} (h : d.IsAheadOf n D)
    (hd : d.Inv maxw) {c : Byte} {k : Nat} (hc : d.child n c = some k) : d.IsAheadOf (some k) D := by
  cases n with
  | none =>
    have hroot : D.node = none := by
      rcases hp : D.node with _ | p
      · rfl
      · exact absurd rfl (h.edge p hp).1
    have hdict := h.dict
    rw [Engine.mirror_eq, hroot] at hdict
    exact ⟨by rw [Engine.mirror_eq, hroot]; exact hdict, fun p hp => by rw [hroot] at hp; cases hp⟩
  | some j =>
    refine ⟨?_, fun p hp => ⟨by simp, ?_⟩⟩ <;> rw [hd.firstOf_child hc]
    · exact h.dict
    · exact (h.edge p hp).2

theorem Dict.IsAheadOf.grows {d : Dict} {n : NodeId} {D : Engine} (h : d.IsAheadOf n D) : D.dict.Grows d :=
  h.dict ▸ D.mirror_grows (d.firstOf n)

/-- The code at the cursor that the decoder has no entry for is the one its mirrored insertion will make (43 R181). -/
theorem Dict.IsAheadOf.kwkwk {d : Dict} {D : Engine} {k : Nat} (h : d.IsAheadOf (some k) D)
    (hk : (Table.find d.tab k).isSome = true) (hnone : Table.find D.dict.tab k = none) :
    ∃ p, D.node = some p ∧ D.dict.full = false ∧ k = D.dict.nextCode ∧
      d.firstOf (some k) = D.dict.firstOf (some p) ∧
      Table.find d.tab k = some
        { parent := some p, last := d.firstOf (some k), first := D.dict.firstOf (some p),
          len := D.dict.lenOf (some p) + 1 } := by
  have hdict := h.dict
  rw [Engine.mirror_eq] at hdict
  rcases hn : D.node with _ | p <;> rw [hn] at hdict
  · rw [← hdict, hnone] at hk; cases hk
  · rcases D.dict.extend_cases (some p) (d.firstOf (some k)) with ⟨j, hc, -⟩ | ⟨-, -, he⟩ | ⟨-, hf, he⟩
    · rw [(h.edge p hn).2] at hc; cases hc
    · simp only [he] at hdict
      rw [← hdict, hnone] at hk; cases hk
    · simp only [he] at hdict
      have hfind := congrArg (fun d => Table.find d.tab k) hdict
      simp only [Table.find_put] at hfind
      by_cases hnext : k = D.dict.nextCode
      · rw [if_pos hnext] at hfind
        exact ⟨p, rfl, hf, hnext, Dict.firstOf_of_find hfind.symm, hfind.symm⟩
      · rw [if_neg hnext, hnone] at hfind
        rw [← hfind] at hk; cases hk

/-- The code at the cursor is a table look-up or the KwKwK code; in either case it writes its sequence in the encoder's
dictionary, and the mirrored insertion is the one that the encoder is ahead (43 R191). -/
theorem Dict.IsAheadOf.codeWord {B : Config.Build} {d : Dict} {D : Engine} {k : Nat} (h : d.IsAheadOf (some k) D)
    (hd : d.Inv B.maxw) (hk : (Table.find d.tab k).isSome = true) (hD : D.dict.Inv B.maxw) (hn : D.nodeResident) :
    D.codeWord B k = ((D.emitAll B (d.seq k)).mirror (d.firstOf (some k))).finishCode B k := by
  have hentries := h.grows.entries hD.bounded
  rcases hfind : Table.find D.dict.tab k with _ | e
  · obtain ⟨p, hp, hf, rfl, hfirst, hentry⟩ := h.kwkwk hk hfind
    have hres : (Table.find D.dict.tab p).isSome = true := by
      rcases hn with hn | ⟨q, hq, hres⟩
      · rw [hp] at hn; cases hn
      · rw [hp] at hq; cases hq; exact hres
    have hseq : d.seq D.dict.nextCode = D.dict.seq p ++ [D.dict.firstOf (some p)] := by
      rw [hd.seq_eq hentry, hfirst, Dict.nodeSeq, hD.seq_of_entries hd hentries hres]
    rw [hseq, hfirst]
    exact Engine.codeWord_of_kwkwk hD.next.1 hp hf (hfirst ▸ (h.edge p hp).2)
  · have hres : (Table.find D.dict.tab k).isSome = true := by simp [hfind]
    obtain ⟨hlt, h256⟩ := hD.find_lt hfind
    have hfirst : d.firstOf (some k) = D.dict.firstOf (some k) := by
      rw [Dict.firstOf_of_find hfind, Dict.firstOf_of_find (hentries k e hfind)]
    rw [Engine.codeWord_of_lt hlt h256, Engine.lookupCode_of_head (hD.head?_seq hres), hfirst,
      hD.seq_of_entries hd hentries hres]

/-! ### Lockstep (43 R191) -/

/-- `D` has decoded every code that an encoder with dictionary `d` and cursor `n` emitted, and the bytes `x` that the
encoder consumed are those `D` wrote and then the sequence that is matched but not emitted. -/
structure Lockstep (B : Config.Build) (x : List Byte) (d : Dict) (n : NodeId) (D : Engine) : Prop where
  inv : D.DecInv B
  ready : D.st = .ready
  schedule : D.dict.DecSchedule
  ahead : d.IsAheadOf n D
  output : D.port.snk ++ d.nodeSeq n = x

/-- `D` has decoded the pending code too: its dictionary is the encoder's, but for the width, it has written all that
the encoder consumed, and the pending code is its previous code. -/
structure CaughtUp (B : Config.Build) (x : List Byte) (d : Dict) (n : NodeId) (D : Engine) : Prop where
  inv : D.DecInv B
  ready : D.st = .ready
  schedule : D.dict.DecSchedule
  dict : D.dict = { d with codeWidth := D.dict.codeWidth }
  node : D.node = n
  output : D.port.snk = x

/-- One code word decoded, which took at least 9 bits. -/
def DecodesTo (B : Config.Build) (D D' : Engine) : Prop :=
  ∃ a, a ≠ .endOfStream ∧ D.decStep B = .ok a D' ∧ D'.unreadBits.length + 9 ≤ D.unreadBits.length

theorem Lockstep.codeWidth {B : Config.Build} {x : List Byte} {d : Dict} {n : NodeId} {D : Engine}
    (h : Lockstep B x d n D) : D.dict.codeWidth = d.codeWidth := by
  rw [← h.ahead.dict, Engine.mirror_eq]
  cases D.node with
  | none => rfl
  | some p => exact (Dict.extend_codeWidth ..).symm

/-- The decoder takes the pending code from its unread bits and catches up. -/
theorem Lockstep.decodesTo {B : Config.Build} {x : List Byte} {d : Dict} {k : Nat} {D : Engine} {rest : List Bool}
    (h : Lockstep B x d (some k) D) (hd : d.Inv B.maxw) (hk : (Table.find d.tab k).isSome = true)
    (hroom : d.Room B.maxw) (hu : D.unreadBits = codeBits d.codeWidth k ++ rest) :
    ∃ D', DecodesTo B D D' ∧ D'.unreadBits = rest ∧ CaughtUp B x d (some k) D' := by
  have hlt : k < 2 ^ d.codeWidth := Nat.lt_of_lt_of_le ((hd.domain k).1 hk).1 hd.next.2
  obtain ⟨D1, hpull, -, -, hu1⟩ :=
    Engine.pull_of_codeBits (B := B) (h.inv.buffer (by simp [h.ready])) h.inv.source hlt hu
  obtain ⟨y, q, c, u, b, hsnk, hframe⟩ := D.pull_eq B d.codeWidth
  obtain ⟨rfl, rfl⟩ := Prod.mk.inj (hpull.symm.trans hframe)
  have hahead : d.IsAheadOf (some k) (D.withReader q c u b) := h.ahead.congr rfl rfl
  have hcode := hahead.codeWord hd hk (h.inv.dict (.inl h.ready)) (h.inv.prev (.inl h.ready))
  rw [Engine.dataCode_ok _ _ (by rw [hahead.dict]; exact hroom.not_decOverflows), hahead.dict] at hcode
  have hstep : D.decStep B = .ok .decoded ((D.withReader q c u b).decodedTo B d.decWidened k (d.seq k)) := by
    simp only [Engine.decStep, h.codeWidth, hpull, hcode]
  have hinv := h.inv.decStep h.ready
  have hsched := Engine.decStep_onDecSchedule (B := B) h.schedule
  rw [hstep] at hinv hsched
  have hout : q.snk ++ d.seq k = x := hsnk ▸ h.output
  refine ⟨_, ⟨.decoded, by decide, hstep, ?_⟩, hu1, ⟨hinv.1, hinv.2, hsched, rfl, rfl, hout⟩⟩
  have hlen : ((D.withReader q c u b).decodedTo B d.decWidened k (d.seq k)).unreadBits = rest := hu1
  have hwidth := hd.width.1
  rw [hlen, hu, List.length_append, length_codeBits]
  omega

/-- With no code pending there is nothing to catch up with. -/
theorem Lockstep.caughtUp_of_root {B : Config.Build} {x : List Byte} {d : Dict} {D : Engine}
    (h : Lockstep B x d none D) : CaughtUp B x d none D := by
  have hroot : D.node = none := by
    rcases hp : D.node with _ | p
    · rfl
    · exact absurd rfl (h.ahead.edge p hp).1
  have hdict := h.ahead.dict
  rw [Engine.mirror_eq, hroot] at hdict
  exact ⟨h.inv, h.ready, h.schedule, by rw [← hdict], hroot, by rw [← h.output, Dict.nodeSeq, List.append_nil]⟩

/-- The decoder catches up on the pending bits, whatever follows them. -/
theorem Lockstep.catchUp {B : Config.Build} {x : List Byte} {g D : Engine} {rest : List Bool}
    (h : Lockstep B x g.dict g.node D) (hg : g.EncInv B) (hr : g.st = .ready) (hroom : g.dict.Room B.maxw)
    (hu : D.unreadBits = g.pendingBits ++ rest) :
    ∃ D', Relation.ReflTransGen (DecodesTo B) D D' ∧ D'.unreadBits = rest ∧ CaughtUp B x g.dict g.node D' := by
  rcases hn : g.node with _ | k <;> rw [hn] at h
  · rw [Engine.pendingBits_of_root hn] at hu
    exact ⟨D, .refl, hu, h.caughtUp_of_root⟩
  · have hk : (Table.find g.dict.tab k).isSome = true := by
      rcases hg.cursor hr with hroot | ⟨j, hj, hres⟩
      · rw [hn] at hroot; cases hroot
      · rw [hn] at hj; cases hj; exact hres
    rw [Engine.pendingBits_of_node hn] at hu
    obtain ⟨D', hstep, hu', hcaught⟩ := h.decodesTo (hg.dictInv hr) hk hroom hu
    exact ⟨D', .single hstep, hu', hcaught⟩

/-! ### The encoder's next insertion (42 R157, R158) -/

/-- `DICT.EXTEND` neither reads nor writes the width. -/
theorem Dict.extend_setWidth (d : Dict) (w : Nat) (n : NodeId) (b : Byte) :
    (({ d with codeWidth := w } : Dict).extend n b).2 = { (d.extend n b).2 with codeWidth := w } := by
  rcases d.extend_cases n b with ⟨k, hc, he⟩ | ⟨hc, hf, he⟩ | ⟨hc, hf, he⟩ <;> rw [he]
  · rw [Dict.extend_of_child (d := { d with codeWidth := w }) hc]
  · rw [Dict.extend_of_full (d := { d with codeWidth := w }) hc hf]
  · rcases ({ d with codeWidth := w } : Dict).extend_cases n b with ⟨k, hc', -⟩ | ⟨-, hf', -⟩ | ⟨-, -, he'⟩
    · exact absurd (hc.symm.trans hc') (by simp)
    · exact absurd (hf.symm.trans hf') (by simp)
    · rw [he']; rfl

/-- The growth test writes the width only. -/
theorem Dict.eq_of_grow {maxw : Nat} {d d' : Dict} (h : d.grow maxw = some d') :
    d' = { d with codeWidth := d'.codeWidth } := by
  rcases Dict.grow_eq_some h with ⟨-, rfl⟩ | ⟨-, rfl⟩ <;> rfl

/-- Where the edge is absent, the decoder's schedule before an insertion gives the width that the encoder's gives after
it (43 R183). -/
theorem Dict.DecSchedule.width_eq {maxw : Nat} {d d' : Dict} {n : NodeId} {c : Byte} {w : Nat} (hd : d.Inv maxw)
    (h : ({ d with codeWidth := w } : Dict).DecSchedule) (hc : d.child n c = none)
    (hg : (d.extend n c).2.grow maxw = some d') (h' : d'.EncSchedule) : w = d'.codeWidth := by
  have hnext : d'.nextCode = (d.extend n c).2.nextCode := by rw [Dict.eq_of_grow hg]
  have hw : w = leastWidth (capped d.maxCode (d.nextCode + 1)) := h
  rw [h', hw, hnext]
  rcases d.extend_cases n c with ⟨k, hk, -⟩ | ⟨-, hf, he⟩ | ⟨-, hf, he⟩
  · rw [hk] at hc; cases hc
  · have hfull := d.full_iff.1 hf
    rw [he, capped_of_full hf, Nat.le_antisymm hfull.2 (hd.capNext hfull.1)]
  · rw [he, capped_of_not_full hf]

/-- A decoder that has caught up falls one insertion behind again when the encoder inserts and restarts its match. -/
theorem CaughtUp.lockstep {B : Config.Build} {x : List Byte} {d d' : Dict} {k : Nat} {c : Byte} {D : Engine}
    (h : CaughtUp B x d (some k) D) (hd : d.Inv B.maxw) (hc : d.child (some k) c = none)
    (hg : (d.extend (some k) c).2.grow B.maxw = some d') (hd' : d'.Inv B.maxw) (hs : d'.EncSchedule) :
    Lockstep B (x ++ [c]) d' (some c.toNat) D := by
  have hfirst := hd'.firstOf_literal c
  have hwidth : D.dict.codeWidth = d'.codeWidth := Dict.DecSchedule.width_eq hd (h.dict ▸ h.schedule) hc hg hs
  refine ⟨h.inv, h.ready, h.schedule, ⟨?_, fun p hp => ⟨by simp, ?_⟩⟩, ?_⟩
  · rw [hfirst, Engine.mirror_eq, h.node, Dict.eq_of_grow hg, ← hwidth]
    show (D.dict.extend (some k) c).2 = _
    rw [h.dict]
    exact Dict.extend_setWidth d D.dict.codeWidth (some k) c
  · rw [h.node] at hp
    cases hp
    rw [hfirst, h.dict]
    exact hc
  · rw [h.output, Dict.nodeSeq, hd'.seq_literal c]

end Sys2Proof.Machine
end

section
/-! SUPPORT. What an encoder has written decodes to what it has consumed, kept by every byte, chunk and end
(spec/42_encoder.md R157, R161, R163; spec/43_decoder.md R191); for O59. -/

namespace Sys2Proof.Machine

/-! ### A fresh engine (10 R50) -/

theorem Engine.fresh_flagInv {B : Config.Build} {m : Nat} {g : Engine} (hm : m < 2 ^ 28)
    (hp : g.port.pos ≤ g.port.src.length) : (g.fresh m).FlagInv B :=
  (g.fresh_flagsZero m).flagInv (by simp) ⟨Nat.two_pow_pos _, Nat.two_pow_pos _⟩ hm literalTable_wf hp

theorem Engine.fresh_dictInv {maxw m : Nat} (g : Engine) (hmaxw : 9 ≤ maxw) (hm : m = 0 ∨ 257 ≤ m) :
    (g.fresh m).dict.Inv maxw := Dict.init_inv maxw { g.dict with maxCode := m } hmaxw hm

theorem Engine.fresh_encInv {B : Config.Build} {m : Nat} {g : Engine} (hmaxw : 9 ≤ B.maxw) (hm : m = 0 ∨ 257 ≤ m)
    (hlt : m < 2 ^ 28) (hp : g.port.pos ≤ g.port.src.length) : (g.fresh m).EncInv B :=
  have hrun : (g.fresh m).EncRun B :=
    { Engine.fresh_flagInv hlt hp with ready := rfl, residue := ⟨Nat.zero_le 7, Nat.one_pos⟩ }
  hrun.encInv (g.fresh_dictInv hmaxw hm) (.inl rfl)

theorem Engine.fresh_decInv {B : Config.Build} {m : Nat} {g : Engine} (hmaxw : 9 ≤ B.maxw) (hm : m = 0 ∨ 257 ≤ m)
    (hlt : m < 2 ^ 28) (hp : g.port.pos ≤ g.port.src.length) : (g.fresh m).DecInv B :=
  have hrun : (g.fresh m).DecRun B :=
    { Engine.fresh_flagInv hlt hp with ready := rfl, noEoi := rfl, residue := ⟨Nat.zero_le 7, Nat.one_pos⟩ }
  hrun.decInv (g.fresh_dictInv hmaxw hm) (.inl rfl) fun _ => by show firstFree < 2 ^ initWidth; decide

/-- A decoder right after `DEC_INIT m` with nothing read and nothing written. -/
def Engine.StartsWith (m : Nat) (D : Engine) : Prop :=
  (∃ g : Engine, D = g.fresh m) ∧ D.port.pos = 0 ∧ D.port.snk = []

/-! ### What has been written decodes (43 R191) -/

/-- Any fresh decoder whose stream begins with the bits `bs` decodes its way into lockstep with an encoder that has
consumed `x` and stands at dictionary `d` and cursor `n`, and has the rest of the stream still unread; provided that the
encoder's dictionary has room, without which the decoder would raise (43 R182, 95 V32). -/
def Decodable (B : Config.Build) (m : Nat) (x : List Byte) (d : Dict) (n : NodeId) (bs : List Bool) : Prop :=
  d.Room B.maxw → ∀ (D : Engine) (rest : List Bool), D.StartsWith m → D.unreadBits = bs ++ rest →
    ∃ D', Relation.ReflTransGen (DecodesTo B) D D' ∧ D'.unreadBits = rest ∧ Lockstep B x d n D'

/-- A fresh encoder and a fresh decoder are in lockstep. -/
theorem Engine.fresh_decodable {B : Config.Build} {m : Nat} (g : Engine) (hmaxw : 9 ≤ B.maxw) (hm : m = 0 ∨ 257 ≤ m)
    (hlt : m < 2 ^ 28) : Decodable B m [] (g.fresh m).dict none [] := by
  rintro - D rest ⟨⟨h, rfl⟩, hpos, hsnk⟩ hu
  refine ⟨_, .refl, hu, Engine.fresh_decInv hmaxw hm hlt ?_, rfl, Dict.init_decSchedule _, ⟨rfl, ?_⟩, ?_⟩
  · exact (Nat.le_of_eq hpos).trans (Nat.zero_le _)
  · rintro p ⟨⟩
  · rw [hsnk]; rfl

/-- An encoder in `READY` that has consumed the bytes `x`, all it has written being decodable. -/
structure Engine.Codes (B : Config.Build) (m : Nat) (x : List Byte) (g : Engine) : Prop where
  inv : g.EncInv B
  ready : g.st = .ready
  schedule : g.dict.EncSchedule
  decodable : Decodable B m x g.dict g.node g.writtenBits

/-- A match writes nothing: the decoder stays as it is. -/
theorem Engine.Codes.matched {B : Config.Build} {m : Nat} {x : List Byte} {g : Engine} (h : g.Codes B m x) {c : Byte}
    {k : Nat} (hc : g.dict.child g.node c = some k) : Decodable B m (x ++ [c]) g.dict (some k) g.writtenBits := by
  intro hroom D rest hD hu
  have hd := h.inv.dictInv h.ready
  obtain ⟨D', hsteps, hu', hl⟩ := h.decodable hroom D rest hD hu
  refine ⟨D', hsteps, hu', hl.inv, hl.ready, hl.schedule, hl.ahead.of_child hd hc, ?_⟩
  rw [Dict.nodeSeq, hd.seq_child hc, ← List.append_assoc, hl.output]

/-- An emission writes the pending code, on which the decoder catches up; the encoder's insertion puts it one behind. -/
theorem Engine.Codes.emitted {B : Config.Build} {m : Nat} {x : List Byte} {g : Engine} (h : g.Codes B m x) {c : Byte}
    {d : Dict} (hc : g.dict.child g.node c = none) (hg : (g.dict.extend g.node c).2.grow B.maxw = some d)
    (hd' : d.Inv B.maxw) (hroom : d.Room B.maxw → g.dict.Room B.maxw) :
    Decodable B m (x ++ [c]) d (some c.toNat) (g.writtenBits ++ g.pendingBits) := by
  intro hroom' D rest hD hu
  have hd := h.inv.dictInv h.ready
  rw [List.append_assoc] at hu
  obtain ⟨D1, hsteps, hu1, hl⟩ := h.decodable (hroom hroom') D _ hD hu
  obtain ⟨D2, hmore, hu2, hcaught⟩ := hl.catchUp h.inv h.ready (hroom hroom') hu1
  refine ⟨D2, hsteps.trans hmore, hu2, ?_⟩
  rcases hn : g.node with _ | k <;> rw [hn] at hc hg hcaught
  · rw [hd.child_root] at hc; cases hc
  · exact hcaught.lockstep hd hc hg hd' (h.schedule.extend_grow hg)

/-- A byte that completes. -/
theorem Engine.Codes.encByte {B : Config.Build} {m : Nat} {x : List Byte} {g g' : Engine} {c : Byte}
    (h : g.Codes B m x) (he : g.encByte B c = .ok () g') : g'.Codes B m (x ++ [c]) := by
  have hinv := h.inv.encByte h.ready c
  have hgrow := h.inv.encByte_dict h.ready he
  have hgrows := g.encByte_grows B c
  rw [he] at hinv hgrows
  obtain ⟨hinv', hr'⟩ := hinv
  refine ⟨hinv', hr', h.schedule.extend_grow hgrow, ?_⟩
  rcases hc : g.dict.child g.node c with _ | k
  · obtain ⟨g1, hw, hok, -⟩ := h.inv.encByte_emits h.ready hc
    have hd' := hinv'.dictInv hr'
    have hdec := h.emitted hc hgrow hd' fun hroom => hroom.of_grows hgrows hd'
    have hbits : g1.writtenBits = g.writtenBits ++ g.pendingBits := hw.writtenBits
    rw [← hbits] at hdec
    obtain ⟨-, heq⟩ := Res.ok.inj ((hok _ hgrow).symm.trans he)
    rw [← heq]
    exact hdec
  · rw [Engine.encByte_of_child hc] at he
    cases he
    exact h.matched hc

/-! Counted reads, the latch of `EOI`, `RESULT` and the flags of acceptance leave it so. -/

theorem Engine.Codes.afterRead {B : Config.Build} {m : Nat} {x : List Byte} {g : Engine} (h : g.Codes B m x)
    (hlt : g.port.pos < g.port.src.length) : (g.afterRead B).Codes B m x :=
  ⟨h.inv.afterRead hlt, h.ready, h.schedule, h.decodable⟩

theorem Engine.Codes.latchEoi {B : Config.Build} {m : Nat} {x : List Byte} {g : Engine} (h : g.Codes B m x) :
    ({ g with port := g.port.answeredNone } : Engine).latchEoi.Codes B m x :=
  ⟨{ h.inv with uninit := fun hu => by cases h.ready.symm.trans hu }, h.ready, h.schedule, h.decodable⟩

theorem Engine.Codes.setResult {B : Config.Build} {m : Nat} {x : List Byte} {g : Engine} (h : g.Codes B m x) {n : Nat}
    (hn : n < 2 ^ 28) : (g.setResult (BitVec.ofNat 32 n)).Codes B m x :=
  ⟨h.inv.setResult h.ready hn, h.ready, h.schedule, h.decodable⟩

theorem Engine.Codes.accept {B : Config.Build} {m : Nat} {x : List Byte} {g : Engine} (h : g.Codes B m x) :
    g.accept.Codes B m x := ⟨h.inv.accept, h.ready, h.schedule, h.decodable⟩

/-! ### ENC_CHUNK (42 R161, R162) -/

/-- An encoder in `READY` that has consumed the bytes of `src` it has read; `EOI` is latched at the end only. -/
structure Engine.Streams (B : Config.Build) (m : Nat) (src : List Byte) (g : Engine) : Prop where
  codes : g.Codes B m (src.take g.port.pos)
  source : g.port.src = src
  eoi : g.eoi = true → src.length ≤ g.port.pos

/-- How a command that reads up to `n` bytes leaves the encoder: in `ERROR`, or with `n` bytes less to read. -/
def Engine.ReadsOn (B : Config.Build) (m : Nat) (src : List Byte) (n : Nat) (g g' : Engine) : Prop :=
  g'.st = .error ∨ (g'.Streams B m src ∧ src.length - g'.port.pos ≤ src.length - g.port.pos - n)

theorem Engine.Streams.encLoop {B : Config.Build} {m : Nat} {src : List Byte} (left count : Nat) {g : Engine}
    (h : g.Streams B m src) (hc : count + left < 2 ^ 28) : g.ReadsOn B m src left (g.encLoop B left count) := by
  induction left generalizing count g with
  | zero => exact .inr ⟨h, Nat.le_refl _⟩
  | succ left ih =>
    cases heoi : g.eoi
    · rcases hread : g.port.src[g.port.pos]? with _ | c
      · have hend := List.getElem?_eq_none_iff.1 hread
        have hstop := h.source ▸ hend
        rw [Engine.encLoop_of_end heoi hend]
        refine .inr ⟨⟨h.codes.latchEoi, h.source, fun _ => hstop⟩, ?_⟩
        show src.length - g.port.pos ≤ _
        omega
      · obtain ⟨hlt, -⟩ := List.getElem?_eq_some_iff.1 hread
        rcases hb : (g.afterRead B).encByte B c with ⟨_, g'⟩ | g'
        · have hcodes := (h.codes.afterRead hlt).encByte hb
          obtain ⟨⟨p, rfl⟩, -⟩ := Engine.encByte_ok hb
          have htake : src.take g.port.pos ++ [c] = src.take (g.port.pos + 1) := by
            rw [List.take_add_one, ← h.source, hread, Option.toList_some]
          rw [htake] at hcodes
          rw [Engine.encLoop_of_ok heoi hread hb]
          have hnext := ih (count + 1) (g := ((g.afterRead B).withPart p).setResult (BitVec.ofNat 32 (count + 1)))
            ⟨hcodes.setResult (by omega), h.source, fun he => by rw [show g.eoi = true from he] at heoi; cases heoi⟩
            (by omega)
          refine hnext.imp_right fun ⟨hs, hle⟩ => ⟨hs, hle.trans ?_⟩
          show src.length - (g.port.pos + 1) - left ≤ _
          omega
        · rw [Engine.encLoop_of_raised heoi hread hb]
          obtain ⟨⟨p, x, rfl⟩, -⟩ := Engine.encByte_raised hb
          exact .inl rfl
    · have hend := h.eoi heoi
      rw [Engine.encLoop_of_eoi heoi]
      exact .inr ⟨h, by omega⟩

theorem Engine.Streams.encChunk {B : Config.Build} {m : Nat} {src : List Byte} {g : Engine} (h : g.Streams B m src)
    (n : BitVec 28) : g.ReadsOn B m src n.toNat (g.whenReady (Engine.encChunk B n.toNat)) := by
  rw [g.whenReady_ready _ h.codes.ready]
  exact Engine.Streams.encLoop n.toNat 0 (g := g.accept.setResult 0)
    ⟨h.codes.accept.setResult (n := 0) (by decide), h.source, h.eoi⟩ (by omega)

/-- `ERROR` is left by no stream command (60 R218). -/
theorem Engine.whenReady_of_error {f : Engine → Engine} {g : Engine} (h : g.st = .error) :
    (g.whenReady f).st = .error := by
  rw [g.whenReady_other f (by simp [h])]
  exact h

/-- A chunk command for each of the sizes, one after the other. -/
def Engine.encChunks (B : Config.Build) (es : List (BitVec 28)) (g : Engine) : Engine :=
  es.foldl (fun g n => g.whenReady (Engine.encChunk B n.toNat)) g

theorem Engine.encChunks_of_error {B : Config.Build} (es : List (BitVec 28)) {g : Engine} (h : g.st = .error) :
    (g.encChunks B es).st = .error := by
  induction es generalizing g with
  | nil => exact h
  | cons n es ih => exact ih (Engine.whenReady_of_error h)

/-- Chunks read as many bytes as their sizes add up to. -/
theorem Engine.Streams.encChunks {B : Config.Build} {m : Nat} {src : List Byte} (es : List (BitVec 28)) {g : Engine}
    (h : g.Streams B m src) : g.ReadsOn B m src (es.map BitVec.toNat).sum (g.encChunks B es) := by
  induction es generalizing g with
  | nil => exact .inr ⟨h, Nat.le_refl _⟩
  | cons n es ih =>
    rcases h.encChunk n with herr | ⟨hs, hle⟩
    · exact .inl (Engine.encChunks_of_error es herr)
    · refine (ih hs).imp_right fun ⟨hs', hle'⟩ => ⟨hs', ?_⟩
      rw [List.map_cons, List.sum_cons]
      exact hle'.trans (by omega)

/-! ### ENC_END (42 R163) -/

/-- Any fresh decoder of the finished stream catches up with the encoder and has the pad left. -/
theorem Engine.Codes.encEnd {B : Config.Build} {m : Nat} {x : List Byte} {g : Engine} (h : g.Codes B m x)
    (hroom : (g.encEnd B).dict.Room B.maxw) {D : Engine} (hD : D.StartsWith m)
    (hu : D.unreadBits = streamBits (g.encEnd B).port.snk) :
    ∃ D' pad, pad ≤ 7 ∧ Relation.ReflTransGen (DecodesTo B) D D' ∧ D'.unreadBits = List.replicate pad false ∧
      CaughtUp B x g.dict g.node D' := by
  rw [Engine.encEnd_dict] at hroom
  obtain ⟨g', pad, hpad, he, h0, hw⟩ := (h.inv.canEmit h.ready).encEnd
  have hbits : g'.writtenBits = g.writtenBits ++ (g.pendingBits ++ List.replicate pad false) := hw.writtenBits
  rw [Engine.writtenBits, h0, codeBits_zero_left, List.append_nil] at hbits
  rw [he, hbits] at hu
  obtain ⟨D1, hsteps, hu1, hl⟩ := h.decodable hroom D _ hD hu
  obtain ⟨D2, hmore, hu2, hcaught⟩ := hl.catchUp h.inv h.ready hroom hu1
  exact ⟨D2, pad, hpad, hsteps.trans hmore, hu2, hcaught⟩

end Sys2Proof.Machine
end

section
/-! SUPPORT. A decoder run in chunks to the end of a stream, host programs as runs of commands on one engine, and the
round trip (30 R105; spec/43_decoder.md R188, R189, R192); O59. -/

namespace Sys2Proof.Machine

/-! ### Steps to the end of the stream (43 R188) -/

/-- How `DEC.STEP` completes: it writes its part of the engine, and does the same for every `RESULT`. -/
theorem Engine.decStep_ok {B : Config.Build} {a : StepResult} {g g' : Engine} (h : g.decStep B = .ok a g') :
    (∃ p, g' = g.withDecPart p) ∧ ∀ r, (g.setResult r).decStep B = .ok a (g'.setResult r) := by
  obtain ⟨x, p, hok | ⟨y, n, hraise⟩⟩ := decAnswers_decStep B g
  · obtain ⟨rfl, rfl⟩ := Res.ok.inj ((hok g.result).symm.trans h)
    exact ⟨⟨p, rfl⟩, hok⟩
  · cases (hraise g.result).symm.trans h

/-- After `n` code words the stream ends, with all of `out` written and a residue of less than a byte, all zero. -/
inductive Engine.Finishes (B : Config.Build) (out : List Byte) : Nat → Engine → Prop
  | stop {g g' : Engine} (h : g.decStep B = .ok .endOfStream g') (hbits : g'.bits < 8) (hbuf : g'.buf = 0)
      (hout : g'.port.snk = out) : Engine.Finishes B out 0 g
  | step {g g' : Engine} {a : StepResult} {n : Nat} (h : g.decStep B = .ok a g') (ha : a ≠ .endOfStream)
      (hn : Engine.Finishes B out n g') : Engine.Finishes B out (n + 1) g

theorem Engine.Finishes.setResult {B : Config.Build} {out : List Byte} {n : Nat} {g : Engine} (h : g.Finishes B out n)
    (r : Word) : (g.setResult r).Finishes B out n := by
  induction h with
  | stop h hbits hbuf hout => exact .stop ((Engine.decStep_ok h).2 r) hbits hbuf hout
  | step h ha _ ih => exact .step ((Engine.decStep_ok h).2 r) ha ih

/-- A code word takes at least 9 bits, so there are no more of them than that. -/
theorem finishes_of_decodesTo {B : Config.Build} {out : List Byte} {D D' : Engine}
    (h : Relation.ReflTransGen (DecodesTo B) D D') (hD' : D'.Finishes B out 0) :
    ∃ n, 9 * n ≤ D.unreadBits.length ∧ D.Finishes B out n := by
  induction h using Relation.ReflTransGen.head_induction_on with
  | refl => exact ⟨0, Nat.zero_le _, hD'⟩
  | head hstep _ ih =>
    obtain ⟨a, ha, hs, hlen⟩ := hstep
    obtain ⟨n, hn, hfin⟩ := ih
    exact ⟨n + 1, by omega, .step hs ha hfin⟩

/-- A decoder that has caught up and has only the pad left finds the end of the stream (41 R147). -/
theorem CaughtUp.finishes {B : Config.Build} {x : List Byte} {d : Dict} {n : NodeId} {D : Engine} {pad : Nat}
    (h : CaughtUp B x d n D) (hpad : pad ≤ 7) (hu : D.unreadBits = List.replicate pad false) : D.Finishes B x 0 := by
  have hwidth := (h.inv.dict (.inl h.ready)).width.1
  have hbuf := h.inv.buffer (by simp [h.ready])
  obtain ⟨y, q, c, u, b, hsnk, hpull⟩ := D.pull_eq B D.dict.codeWidth
  cases y with
  | none =>
    have hstep : D.decStep B = .ok .endOfStream (D.withReader q c u b) := by simp only [Engine.decStep, hpull]
    obtain ⟨hbits, hzero⟩ := Engine.residue_of_zeros (Nat.lt_succ_of_le hpad) (Engine.pull_buf_lt hbuf hpull)
      ((Engine.unreadBits_of_pull_none hpull).trans hu)
    exact .stop hstep (hbits.trans_lt (Nat.lt_succ_of_le hpad)) hzero (hsnk.trans h.output)
  | some v =>
    have hlen := congrArg List.length (Engine.unreadBits_of_pull_some hpull)
    rw [hu, List.length_replicate, List.length_append, length_codeBits] at hlen
    omega

/-! ### DEC_CHUNK to the end of the stream (43 R189) -/

/-- A decoder with `n` code words before the end of its stream, and no refusal to clear. -/
structure Engine.Decoding (B : Config.Build) (out : List Byte) (n : Nat) (g : Engine) : Prop where
  ready : g.st = .ready
  refused : g.refused = false
  rsn : g.rsn = .none
  err : g.err = .none
  finishes : g.Finishes B out n

/-- A decoder that has finished its stream. -/
structure Engine.Decoded (out : List Byte) (g : Engine) : Prop where
  done : g.st = .done
  err : g.err = .none
  bits : g.bits < 8
  buf : g.buf = 0
  output : g.port.snk = out

theorem Engine.Decoding.setResult {B : Config.Build} {out : List Byte} {n : Nat} {g : Engine} (h : g.Decoding B out n)
    (r : Word) : (g.setResult r).Decoding B out n :=
  ⟨h.ready, h.refused, h.rsn, h.err, h.finishes.setResult r⟩

/-- The loop decodes one code word a round; one round more finds the end. -/
theorem Engine.Decoding.decLoop {B : Config.Build} {out : List Byte} (left count : Nat) {n : Nat} {g : Engine}
    (h : g.Decoding B out n) :
    (left ≤ n → (g.decLoop B left count).Decoding B out (n - left)) ∧
    (n < left → (g.decLoop B left count).Decoded out) := by
  induction left generalizing count n g with
  | zero => exact ⟨fun _ => h, fun hlt => absurd hlt (Nat.not_lt_zero n)⟩
  | succ left ih =>
    rcases h.finishes with ⟨hs, hbits, hbuf, hout⟩ | ⟨hs, ha, hfin⟩ <;> obtain ⟨⟨p, rfl⟩, -⟩ := Engine.decStep_ok hs
    · rw [Engine.decLoop_of_end h.ready hs]
      exact ⟨fun hle => absurd hle (Nat.not_succ_le_zero left), fun _ => ⟨rfl, h.err, hbits, hbuf, hout⟩⟩
    · rw [Engine.decLoop_of_code h.ready hs ha, Nat.add_sub_add_right]
      have hnext : (g.withDecPart p).Decoding B out _ := ⟨h.ready, h.refused, h.rsn, h.err, hfin⟩
      obtain ⟨hmore, hend⟩ := ih (count + 1) (hnext.setResult (BitVec.ofNat 32 (count + 1)))
      exact ⟨fun hle => hmore (Nat.le_of_succ_le_succ hle), fun hlt => hend (Nat.lt_of_succ_lt_succ hlt)⟩

/-- A chunk command for each of the sizes, one after the other. -/
def Engine.decChunks (B : Config.Build) (ds : List (BitVec 28)) (g : Engine) : Engine :=
  ds.foldl (fun g n => g.whenReady (Engine.decChunk B n.toNat)) g

/-- In `DONE` a chunk is refused. -/
theorem Engine.Decoded.decChunks {B : Config.Build} {out : List Byte} (ds : List (BitVec 28)) {g : Engine}
    (h : g.Decoded out) : (g.decChunks B ds).Decoded out := by
  induction ds generalizing g with
  | nil => exact h
  | cons n ds ih =>
    have hrefused : (g.whenReady (Engine.decChunk B n.toNat)).Decoded out := by
      rw [g.whenReady_other _ (by simp [h.done])]
      exact ⟨h.done, h.err, h.bits, h.buf, h.output⟩
    exact ih hrefused

/-- Chunks whose sizes add up to more than the code words that are left finish the stream. -/
theorem Engine.Decoding.decChunks {B : Config.Build} {out : List Byte} (ds : List (BitVec 28)) {n : Nat} {g : Engine}
    (h : g.Decoding B out n) (hn : n < (ds.map BitVec.toNat).sum) : (g.decChunks B ds).Decoded out := by
  induction ds generalizing n g with
  | nil => cases hn
  | cons k ds ih =>
    have hchunk : g.whenReady (Engine.decChunk B k.toNat) = (g.setResult 0).decLoop B k.toNat 0 := by
      rw [g.whenReady_ready _ h.ready, Engine.accept_of_not_refused h.refused h.rsn]
      rfl
    have hround := (h.setResult 0).decLoop k.toNat 0
    rw [← hchunk] at hround
    rw [List.map_cons, List.sum_cons] at hn
    rcases Nat.lt_or_ge n k.toNat with hlt | hge
    · exact (hround.2 hlt).decChunks ds
    · exact ih (hround.1 hge) (by omega)

/-! ### Host programs on one engine (30 R105) -/

theorem core_run_of_step {s t : State} (h : step s = .next t) (k : Nat) :
    Sys2Proof.core.run (k + 1) s = Sys2Proof.core.run k t := by
  have hstep : Sys2Proof.core.step s = .next t := h
  simp only [Host.Core.run, hstep]

theorem runCommands_cons {w : Word} {ws : List Word} {s t : State}
    (h : exec (decode w) { s with cmds := ws } = .next t) (ht : t.cmds = ws) :
    runCommands (w :: ws) s = runCommands ws t := by
  have hstep : step { s with cmds := w :: ws } = .next t := h
  have hcmds : ({ t with cmds := ws } : State) = t := by rw [← ht]
  rw [runCommands, runCommands, hcmds]
  exact core_run_of_step hstep ws.length

/-- What a command of the host does to the engine it is issued to; `*_DESTROY` and the reserved opcodes are left out. -/
def Engine.command (B : Config.Build) : Instr → Engine → Engine
  | .encInit m | .decInit m => Engine.initCmd m.toNat
  | .encChunk n => Engine.whenReady (Engine.encChunk B n.toNat)
  | .encEnd _ => Engine.whenReady (Engine.encEnd B)
  | .encClear _ => Engine.whenReady (Engine.encClear B)
  | .decChunk n => Engine.whenReady (Engine.decChunk B n.toNat)
  | _ => id

/-- A program of such commands to one engine runs them one after the other on it. -/
theorem runCommands_eq_foldl {B : Config.Build} (z : EngineId) (ws : List Word) {s : State} (hB : s.build = B)
    (hws : ∀ w ∈ ws, ∀ t : State, t.build = B →
      exec (decode w) t = .next (t.onEng z (Engine.command B (decode w)))) :
    runCommands ws s =
      .next { s.setEng z (ws.foldl (fun g w => Engine.command B (decode w) g) (s.eng z)) with cmds := [] } := by
  induction ws generalizing s with
  | nil => cases z <;> rfl
  | cons w ws ih =>
    obtain ⟨hw, hws⟩ := List.forall_mem_cons.1 hws
    have hrest := ih (s := ({ s with cmds := ws } : State).onEng z (Engine.command B (decode w)))
      ((State.setEng_build ..).trans hB) hws
    rw [runCommands_cons (hw { s with cmds := ws } hB) (State.setEng_cmds ..), hrest]
    cases z <;> rfl

theorem runCommands_encodeProgram (s : State) (m : BitVec 28) (es : List (BitVec 28)) :
    runCommands (encodeProgram m es) s = .next { s with
      enc := ((s.enc.initCmd m.toNat).encChunks s.build es).whenReady (Engine.encEnd s.build)
      cmds := [] } := by
  have hinit : decode (0x1#4 ++ m) = .encInit m := decode_of_encode rfl
  have hchunk (n : BitVec 28) : decode (0x2#4 ++ n) = .encChunk n := decode_of_encode rfl
  have hend : decode (0x3#4 ++ 0#28) = .encEnd 0#28 := decode_of_encode rfl
  rw [runCommands_eq_foldl .enc _ rfl]
  · simp only [encodeProgram, List.foldl_append, List.foldl_map, List.foldl_cons, List.foldl_nil, hinit, hchunk, hend]
    rfl
  · intro w hw t ht
    simp only [encodeProgram, List.mem_append, List.mem_map, List.mem_singleton] at hw
    rcases hw with (rfl | ⟨n, -, rfl⟩) | rfl
    · rw [hinit]; rfl
    · rw [hchunk, ← ht]; rfl
    · rw [hend, ← ht]; rfl

theorem runCommands_decodeProgram (s : State) (m : BitVec 28) (ds : List (BitVec 28)) :
    runCommands (decodeProgram m ds) s = .next { s with
      dec := (s.dec.initCmd m.toNat).decChunks s.build ds
      cmds := [] } := by
  have hinit : decode (0x9#4 ++ m) = .decInit m := decode_of_encode rfl
  have hchunk (n : BitVec 28) : decode (0xA#4 ++ n) = .decChunk n := decode_of_encode rfl
  rw [runCommands_eq_foldl .dec _ rfl]
  · simp only [decodeProgram, List.foldl_append, List.foldl_map, List.foldl_cons, List.foldl_nil, hinit, hchunk]
    rfl
  · intro w hw t ht
    simp only [decodeProgram, List.mem_append, List.mem_map, List.mem_singleton] at hw
    rcases hw with rfl | ⟨n, -, rfl⟩
    · rw [hinit]; rfl
    · rw [hchunk, ← ht]; rfl

/-! ### The round trip (43 R192) -/

/-- A fresh decoder of a finished stream, run for more code words than the stream can hold, writes what the encoder
consumed. -/
theorem Engine.Codes.decoded {B : Config.Build} {m : Nat} {x : List Byte} {g : Engine} (h : g.Codes B m x)
    (hroom : (g.encEnd B).dict.Room B.maxw) {D : Engine} (hD : D.StartsWith m)
    (hsrc : D.port.src = (g.encEnd B).port.snk) {ds : List (BitVec 28)}
    (hds : 8 * (g.encEnd B).port.snk.length / 9 + 1 ≤ (ds.map BitVec.toNat).sum) :
    (D.decChunks B ds).Decoded x := by
  obtain ⟨⟨D0, rfl⟩, hpos, hsnk⟩ := hD
  have hu : (D0.fresh m).unreadBits = streamBits (g.encEnd B).port.snk := by
    rw [← hsrc, Engine.unreadBits, hpos]
    rfl
  obtain ⟨D', pad, hpad, hsteps, hrest, hcaught⟩ := h.encEnd hroom ⟨⟨D0, rfl⟩, hpos, hsnk⟩ hu
  obtain ⟨n, hn, hfin⟩ := finishes_of_decodesTo hsteps (hcaught.finishes hpad hrest)
  rw [hu, length_streamBits] at hn
  exact Engine.Decoding.decChunks ds ⟨rfl, rfl, rfl, rfl, hfin⟩ (by omega)

/-- Chunks that read the whole source and do not raise, and the end of the stream after them. -/
theorem Engine.Streams.encoded {B : Config.Build} {m : Nat} {src : List Byte} {es : List (BitVec 28)} {g : Engine}
    (h : g.Streams B m src) (hes : src.length ≤ (es.map BitVec.toNat).sum)
    (hst : ((g.encChunks B es).whenReady (Engine.encEnd B)).st ≠ .error) :
    ∃ g' : Engine, g'.Codes B m src ∧ (g.encChunks B es).whenReady (Engine.encEnd B) = g'.encEnd B := by
  rcases h.encChunks es with herr | ⟨hs, hread⟩
  · exact absurd (Engine.whenReady_of_error herr) hst
  · have hcodes := hs.codes.accept
    rw [List.take_of_length_le (by omega)] at hcodes
    exact ⟨_, hcodes, Engine.whenReady_ready _ _ hs.codes.ready⟩

/-- Settles O59: what the encoder writes is decodable after every byte, and its end leaves only the pad to decode. -/
theorem roundTrip : Obligations.RoundTrip := by
  intro s s' m es ds src hlegal hbuild hm hes
  have hm' : m.toNat = 0 ∨ 257 ≤ m.toNat := hm.imp_left fun h => by rw [h]; rfl
  have hgood : ¬badMaxCode m.toNat := by rintro ⟨h1, h256⟩; omega
  refine ⟨_, runCommands_encodeProgram _ m es, fun hst hroom hds => ⟨_, runCommands_decodeProgram _ m ds, ?_⟩⟩
  simp only [Engine.initCmd_good _ _ hgood] at hst hroom hds ⊢
  have hstart : ((s.bindEnc src).enc.fresh m.toNat).Streams (s.bindEnc src).build m.toNat src :=
    ⟨⟨Engine.fresh_encInv hlegal.1 hm' m.isLt (Nat.zero_le _), rfl, Dict.init_encSchedule _,
      Engine.fresh_decodable _ hlegal.1 hm' m.isLt⟩, rfl, fun h => by cases h⟩
  obtain ⟨g, hcodes, heq⟩ := hstart.encoded hes hst
  rw [heq] at hroom hds ⊢
  have hdone := hcodes.decoded hroom (D := (s'.bindDec (g.encEnd _).port.snk).dec.fresh m.toNat)
    ⟨⟨_, rfl⟩, rfl, rfl⟩ rfl hds
  rw [show (s'.bindDec (g.encEnd _).port.snk).build = (s.bindEnc src).build from hbuild]
  exact ⟨hdone.output, hdone.done, hdone.err, hdone.bits, hdone.buf⟩

end Sys2Proof.Machine
end

section
/-! SUPPORT. The clear-code protocol (spec/44_clear_code.md R196 to R199): what ENC_CLEAR writes and what a clear code
resets; O40, O41 and O46. -/

namespace Sys2Proof.Machine

/-- Every width holds the clear code and the first learned code (10 R43 item 1). -/
theorem firstFree_lt_two_pow {w : Nat} (h : 9 ≤ w) : firstFree < 2 ^ w :=
  Nat.lt_of_lt_of_le (by decide) (Nat.pow_le_pow_right (by decide) h)

/-! ### ENC_CLEAR (44 R196 to R198) -/

theorem exec_encClear {s : State} (hr : s.enc.st = .ready) (a : BitVec 28) :
    exec (.encClear a) s = .next { s with enc := s.enc.accept.encClear s.build } := by
  show Host.Outcome.next (s.onEng .enc _) = _
  rw [State.onEng_eq, State.eng_enc, s.enc.whenReady_ready _ hr]
  rfl

theorem Engine.encClear_of_eoi {B : Config.Build} {g : Engine} (h : g.eoi = true) : g.encClear B = g := by
  rw [Engine.encClear, if_pos h]

/-- The pending bits, the clear code at the same width and the pad; then the dictionary is reset. -/
theorem Engine.CanEmit.encClear {B : Config.Build} {g : Engine} (h : g.CanEmit B) (heoi : g.eoi = false)
    (h9 : 9 ≤ g.dict.codeWidth) :
    ∃ (g' : Engine) (pad : Nat), pad ≤ 7 ∧ g.encClear B = { g' with dict := g.dict.init } ∧ g'.bits = 0 ∧
      ({ g with node := none } : Engine).Writes B
        (g.pendingBits ++ codeBits g.dict.codeWidth 256 ++ List.replicate pad false) g' := by
  obtain ⟨g1, hpending, hw⟩ := h.encPending
  have hw1 := hw.setNode none
  have hd1 : g1.dict = g.dict := hw.dict
  have h9' : 9 ≤ g1.dict.codeWidth := hd1 ▸ h9
  have h256 : clearCode < 2 ^ g1.dict.codeWidth := Nat.lt_of_succ_lt (firstFree_lt_two_pow h9')
  obtain ⟨g2, hpush, hw2⟩ := Engine.writes_push (by omega) (hd1 ▸ h.width.2) h256 hw1.residue.2
  have hw3 := (hw1.trans hw2).trans (Engine.writes_flush B hw2.residue)
  rw [hd1] at hw3
  have hd3 : (g2.flush B).dict = g.dict := hw3.dict
  have hn3 : (g2.flush B).node = none := hw3.node
  refine ⟨g2.flush B, _, Nat.le_of_lt_succ (Nat.mod_lt _ (by decide)), ?_, Engine.flush_bits B g2, hw3⟩
  simp only [Engine.encClear, heoi, Bool.false_eq_true, if_false, hpending, hpush, hd3, Dict.reset_eq_init]
  rw [← hn3]

/-- Settles O40: the pending code, the clear code and the pad are written, and no bit stays in the buffer. -/
theorem encClearWritesTheClearCode : Obligations.EncClearWritesTheClearCode := by
  intro s a _ h hr heoi
  obtain ⟨g', pad, hpad, he, h0, out, bits, buf, rfl, ⟨-, hbuf⟩, hbits⟩ :=
    (h.accept.canEmit hr).encClear heoi (h.dictInv hr).width.1
  obtain rfl : bits = 0 := h0
  obtain rfl : buf = 0 := Nat.lt_one_iff.1 hbuf
  refine ⟨out, pad, ?_, hpad, ?_⟩
  · rw [← countUp_iterate _ _ _ h.counters.2, exec_encClear hr, he]
    rfl
  · have hpending : s.enc.accept.pendingBits = s.enc.pendingBits := rfl
    simpa [Engine.writtenBits, hpending] using hbits

/-- Settles O41: once `EOI` is set the command is its acceptance alone. -/
theorem encClearAfterEndOfInput : Obligations.EncClearAfterEndOfInput := by
  intro s a hr heoi
  rw [exec_encClear hr, Engine.encClear_of_eoi (g := s.enc.accept) heoi]
  rfl

/-! ### DEC.CLEAR (44 R199) -/

/-- Settles O46: the code word and the primitive both leave `Engine.decClear`, whose dictionary is the initial one. -/
theorem clearCodeResetsTheDecoder : Obligations.ClearCodeResetsTheDecoder := fun _ => ⟨rfl, rfl⟩

end Sys2Proof.Machine
end

section
/-! SUPPORT. The decoder across a clear code (spec/44_clear_code.md R199 to R201): outside the boundary condition both
engines are at one width, and the decoder comes out of the clear code in lockstep with the reset encoder; for O60. -/

namespace Sys2Proof.Machine

/-! ### The width outside the boundary condition (44 R201) -/

/-- The dictionary is full, or its next insertion stays within the current width. -/
def Dict.KeepsWidth (d : Dict) : Prop := d.full = true ∨ d.nextCode < 2 ^ d.codeWidth

theorem Dict.KeepsWidth.room {maxw : Nat} {d : Dict} (h : d.KeepsWidth) (hd : d.Inv maxw) : d.Room maxw :=
  h.imp_right fun hlt => hlt.trans_le (Nat.pow_le_pow_right (by decide) hd.width.2)

/-- There the decoder, whose schedule is one insertion ahead of the encoder's, has the encoder's width. -/
theorem CaughtUp.codeWidth {B : Config.Build} {x : List Byte} {d : Dict} {n : NodeId} {D : Engine}
    (h : CaughtUp B x d n D) (hd : d.Inv B.maxw) (hs : d.EncSchedule) (hk : d.KeepsWidth) :
    D.dict.codeWidth = d.codeWidth := by
  have hw : D.dict.codeWidth = leastWidth (capped d.maxCode (d.nextCode + 1)) := by
    have hsched := h.schedule
    rw [h.dict] at hsched
    exact hsched
  rw [hw, hs]
  cases hf : d.full
  · have hlt : d.nextCode < 2 ^ leastWidth d.nextCode := by
      rw [← hs]
      exact hk.resolve_left (by simp [hf])
    rw [capped_of_not_full hf, leastWidth_succ, if_pos (Nat.succ_le_of_lt hlt)]
  · have hfull := d.full_iff.1 hf
    rw [capped_of_full hf, Nat.le_antisymm hfull.2 (hd.capNext hfull.1)]

/-! ### The clear code decoded (44 R199) -/

/-- The residue that a clear code discards is the pad, where whole bytes follow the pad in the stream. -/
theorem Engine.decClear_unreadBits {g : Engine} {pad rest : List Bool} (hbits : g.bits ≤ 7) (hpad : pad.length ≤ 7)
    (hrest : rest.length % 8 = 0) (hu : g.unreadBits = pad ++ rest) : g.decClear.unreadBits = rest := by
  have hlen := g.length_unreadBits
  rw [hu, List.length_append] at hlen
  exact (List.append_inj hu (by rw [length_codeBits]; omega)).2

/-- A decoder that has caught up takes the clear code and the pad, and is in lockstep with the reset encoder. -/
theorem CaughtUp.decodesClear {B : Config.Build} {x : List Byte} {d : Dict} {n : NodeId} {D : Engine}
    {pad rest : List Bool} (h : CaughtUp B x d n D) (hpad : pad.length ≤ 7) (hrest : rest.length % 8 = 0)
    (hu : D.unreadBits = codeBits D.dict.codeWidth 256 ++ (pad ++ rest)) :
    ∃ D', DecodesTo B D D' ∧ D'.unreadBits = rest ∧ Lockstep B x d.init none D' := by
  have h9 : 9 ≤ D.dict.codeWidth := (h.inv.dict (.inl h.ready)).width.1
  have h256 : clearCode < 2 ^ D.dict.codeWidth := Nat.lt_of_succ_lt (firstFree_lt_two_pow h9)
  obtain ⟨D1, hpull, -, -, hu1⟩ :=
    Engine.pull_of_codeBits (B := B) (h.inv.buffer (by simp [h.ready])) h.inv.source h256 hu
  have hrest' := Engine.decClear_unreadBits (Engine.pull_residue (h.inv.ready h.ready) hpull) hpad hrest hu1
  obtain ⟨y, q, c, u, b, hsnk, hframe⟩ := D.pull_eq B D.dict.codeWidth
  obtain ⟨rfl, rfl⟩ := Prod.mk.inj (hpull.symm.trans hframe)
  have hstep : D.decStep B = .ok .cleared (D.withReader q c u b).decClear := by
    have hclass := ((D.withReader q c u b).classOf_eq_clear_iff 256).2 rfl
    simp only [Engine.decStep, hpull, Engine.codeWord, hclass]
  have hinv := h.inv.decStep h.ready
  rw [hstep] at hinv
  have hdict : D.dict.init = d.init := by rw [h.dict]; rfl
  have hout : q.snk ++ [] = x := by rw [List.append_nil, hsnk, h.output]
  refine ⟨_, ⟨.cleared, by decide, hstep, ?_⟩, hrest', ⟨hinv.1, hinv.2, D.dict.init_decSchedule, ⟨hdict, nofun⟩, hout⟩⟩
  rw [hrest', hu, List.length_append, List.length_append, length_codeBits]
  omega

/-! ### ENC_CLEAR on a decodable stream (44 R200, R201) -/

/-- What has been written up to and with a clear code decodes, if the clear code was issued outside the boundary
condition; of the dictionary before the clear no more room is asked. -/
theorem Engine.Codes.cleared {B : Config.Build} {m pad : Nat} {x : List Byte} {g : Engine} {out : List Byte}
    (h : g.Codes B m x) (hk : g.dict.KeepsWidth) (hpad : pad ≤ 7)
    (hbits : streamBits out =
      g.writtenBits ++ (g.pendingBits ++ codeBits g.dict.codeWidth 256 ++ List.replicate pad false)) :
    Decodable B m x g.dict.init none (streamBits out) := by
  intro _ D rest hD hu
  have hd := h.inv.dictInv h.ready
  have haligned : rest.length % 8 = 0 := by
    obtain ⟨⟨D0, rfl⟩, -, -⟩ := hD
    have hlen := (D0.fresh m).length_unreadBits
    rw [hu, List.length_append, length_streamBits, D0.fresh_bits] at hlen
    omega
  rw [hbits] at hu
  simp only [List.append_assoc] at hu
  obtain ⟨D1, hsteps, hu1, hl⟩ := h.decodable (hk.room hd) D _ hD hu
  obtain ⟨D2, hmore, hu2, hcaught⟩ := hl.catchUp h.inv h.ready (hk.room hd) hu1
  rw [← hcaught.codeWidth hd h.schedule hk] at hu2
  obtain ⟨D3, hclear, hu3, hl3⟩ := hcaught.decodesClear (by rwa [List.length_replicate]) haligned hu2
  exact ⟨D3, (hsteps.trans hmore).tail hclear, hu3, hl3⟩

/-- An effective `ENC_CLEAR` outside the boundary condition keeps the stream decodable, reads nothing and resets the
dictionary. -/
theorem Engine.Codes.encClear {B : Config.Build} {m : Nat} {x : List Byte} {g : Engine} (h : g.Codes B m x)
    (hk : g.dict.KeepsWidth) (heoi : g.eoi = false) :
    (g.encClear B).Codes B m x ∧ (∃ out, (g.encClear B).port = g.port.gained out) ∧ (g.encClear B).eoi = false ∧
      (g.encClear B).dict = g.dict.init := by
  have hinv := h.inv.encClear h.ready
  obtain ⟨g', pad, hpad, he, h0, hw⟩ :=
    (h.inv.canEmit h.ready).encClear heoi (h.inv.dictInv h.ready).width.1
  have hbits : g'.writtenBits = _ := hw.writtenBits
  rw [Engine.writtenBits, h0, codeBits_zero_left, List.append_nil] at hbits
  obtain ⟨out, bits, buf, rfl, -⟩ := hw
  obtain rfl : bits = 0 := h0
  rw [he] at hinv ⊢
  refine ⟨⟨hinv, h.ready, g.dict.init_encSchedule, ?_⟩, ⟨out, rfl⟩, heoi, rfl⟩
  have hdec := h.cleared hk hpad hbits
  rw [← List.append_nil (streamBits _)] at hdec
  exact hdec

end Sys2Proof.Machine
end

section
/-! SUPPORT. A host that chunks, clears and ends the stream where it likes (spec/44_clear_code.md R200, R201;
spec/70_reset_and_hazards.md R241); O60. -/

namespace Sys2Proof.Machine

/-! ### The cursor at the root -/

/-- At the root the dictionary has its initial size: a cursor leaves the root with the first byte after `ENC_INIT` or
`ENC_CLEAR`, and goes back to it with a reset only. -/
def Engine.FreshAtRoot (g : Engine) : Prop := g.node = none → g.dict.nextCode = firstFree

/-- A byte that completes leaves the cursor at a code (42 R157). -/
theorem Engine.encByte_node_ne_root {B : Config.Build} {c : Byte} {g g' : Engine} (h : g.encByte B c = .ok () g') :
    g'.node ≠ none := by
  rcases g.encByte_cases B c with ⟨k, -, he⟩ | ⟨-, he⟩ <;> rw [he] at h
  · cases h
    exact Option.some_ne_none k
  · rw [Engine.emitAndRestart] at h
    split at h
    · cases h
    · split at h <;> cases h
      exact Option.some_ne_none c.toNat

/-- A chunk that leaves the cursor at the root has read no byte, or ended in `ERROR`. -/
theorem Engine.encLoop_root {B : Config.Build} (left count : Nat) {g : Engine}
    (hst : (g.encLoop B left count).st ≠ .error) (hn : (g.encLoop B left count).node = none) :
    g.node = none ∧ (g.encLoop B left count).dict = g.dict := by
  induction left generalizing count g with
  | zero => exact ⟨hn, rfl⟩
  | succ left ih =>
    cases heoi : g.eoi
    · rcases hread : g.port.src[g.port.pos]? with _ | c
      · rw [Engine.encLoop_of_end heoi (List.getElem?_eq_none_iff.1 hread)] at hn ⊢
        exact ⟨hn, rfl⟩
      · rcases hb : (g.afterRead B).encByte B c with ⟨_, g'⟩ | g'
        · rw [Engine.encLoop_of_ok heoi hread hb] at hst hn
          exact absurd (show g'.node = none from (ih (count + 1) hst hn).1) (Engine.encByte_node_ne_root hb)
        · rw [Engine.encLoop_of_raised heoi hread hb] at hst
          obtain ⟨⟨p, x, rfl⟩, -⟩ := Engine.encByte_raised hb
          exact absurd rfl hst
    · rw [Engine.encLoop_of_eoi heoi] at hn ⊢
      exact ⟨hn, rfl⟩

theorem Engine.FreshAtRoot.encLoop {B : Config.Build} (left count : Nat) {g : Engine} (h : g.FreshAtRoot)
    (hst : (g.encLoop B left count).st ≠ .error) : (g.encLoop B left count).FreshAtRoot := fun hn => by
  obtain ⟨hroot, hdict⟩ := Engine.encLoop_root left count hst hn
  rw [hdict]
  exact h hroot

/-- Outside the boundary condition of 44 R201 the next insertion keeps the width, at the root too. -/
theorem Engine.FreshAtRoot.keepsWidth {maxw : Nat} {g : Engine} (h : g.FreshAtRoot) (hd : g.dict.Inv maxw)
    (hz : ¬g.clearHazard) : g.dict.KeepsWidth := by
  by_cases hn : g.node = none
  · refine .inr ?_
    rw [h hn]
    exact firstFree_lt_two_pow hd.width.1
  · by_cases hf : g.dict.full = true
    · exact .inl hf
    · exact .inr (Nat.lt_of_le_of_ne hd.next.2 fun hw => hz ⟨hn, hw, Bool.not_eq_true _ ▸ hf⟩)

/-! ### Actions on a live encoder (70 R241) -/

/-- What an action does to the encoder. -/
def EncAction.run (B : Config.Build) : EncAction → Engine → Engine
  | .chunk n => Engine.whenReady (Engine.encChunk B n.toNat)
  | .clear => Engine.whenReady (Engine.encClear B)

/-- The actions of a host, one after the other. -/
def Engine.encActions (B : Config.Build) (acts : List EncAction) (g : Engine) : Engine :=
  acts.foldl (fun g a => a.run B g) g

theorem EncAction.run_of_error {B : Config.Build} (a : EncAction) {g : Engine} (h : g.st = .error) :
    (a.run B g).st = .error := by
  cases a <;> exact Engine.whenReady_of_error h

theorem Engine.encActions_of_error {B : Config.Build} (acts : List EncAction) {g : Engine} (h : g.st = .error) :
    (g.encActions B acts).st = .error := by
  induction acts generalizing g with
  | nil => exact h
  | cons a acts ih => exact ih (a.run_of_error h)

/-- An encoder in `READY` that has consumed what it has read of `src`, with a fresh dictionary at the root. -/
structure Engine.ClearStreams (B : Config.Build) (m : Nat) (src : List Byte) (g : Engine) : Prop
    extends Engine.Streams B m src g where
  fresh : g.FreshAtRoot

theorem Engine.ClearStreams.encChunk {B : Config.Build} {m : Nat} {src : List Byte} {g : Engine}
    (h : g.ClearStreams B m src) (n : BitVec 28) :
    ((EncAction.chunk n).run B g).st = .error ∨ ((EncAction.chunk n).run B g).ClearStreams B m src := by
  have hrun : (EncAction.chunk n).run B g = (g.accept.setResult 0).encLoop B n.toNat 0 :=
    g.whenReady_ready _ h.codes.ready
  by_cases hst : ((EncAction.chunk n).run B g).st = .error
  · exact .inl hst
  · refine .inr ⟨((h.toStreams.encChunk n).resolve_left hst).1, ?_⟩
    rw [hrun] at hst ⊢
    exact Engine.FreshAtRoot.encLoop n.toNat 0 (g := g.accept.setResult 0) h.fresh hst

theorem Engine.ClearStreams.encClear {B : Config.Build} {m : Nat} {src : List Byte} {g : Engine}
    (h : g.ClearStreams B m src) (hz : g.eoi = true ∨ ¬g.clearHazard) :
    (EncAction.clear.run B g).ClearStreams B m src := by
  have hcodes := h.codes.accept
  rw [show EncAction.clear.run B g = g.accept.encClear B from g.whenReady_ready _ h.codes.ready]
  by_cases heoi : g.eoi = true
  · rw [Engine.encClear_of_eoi (g := g.accept) heoi]
    exact ⟨⟨hcodes, h.source, h.eoi⟩, h.fresh⟩
  · have hk := h.fresh.keepsWidth (h.codes.inv.dictInv h.codes.ready) (hz.resolve_left heoi)
    obtain ⟨hcleared, ⟨out, hport⟩, heoi', hdict⟩ := hcodes.encClear hk (Bool.not_eq_true _ ▸ heoi)
    refine ⟨⟨?_, ?_, fun he => by rw [heoi'] at he; cases he⟩, fun _ => by rw [hdict]; rfl⟩ <;> rw [hport]
    · exact hcleared
    · exact h.source

/-- Actions without a clear in the boundary condition keep the stream decodable, or end in `ERROR`. -/
theorem Engine.ClearStreams.encActions {B : Config.Build} {m : Nat} {src : List Byte} (acts : List EncAction)
    {g : Engine} (h : g.ClearStreams B m src)
    (hz : ∀ pre post, acts = pre ++ .clear :: post →
      (g.encActions B pre).eoi = true ∨ ¬(g.encActions B pre).clearHazard) :
    (g.encActions B acts).st = .error ∨ (g.encActions B acts).ClearStreams B m src := by
  induction acts generalizing g with
  | nil => exact .inr h
  | cons a acts ih =>
    have hnext : (a.run B g).st = .error ∨ (a.run B g).ClearStreams B m src := by
      cases a with
      | chunk n => exact h.encChunk n
      | clear => exact .inr (h.encClear (hz [] acts rfl))
    rcases hnext with herr | hs
    · exact .inl (Engine.encActions_of_error acts herr)
    · exact ih hs fun pre post he => hz (a :: pre) post (congrArg (a :: ·) he)

theorem Engine.fresh_clearStreams {B : Config.Build} {m : Nat} {g : Engine} (hmaxw : 9 ≤ B.maxw)
    (hm : m = 0 ∨ 257 ≤ m) (hlt : m < 2 ^ 28) (hpos : g.port.pos = 0) (hsnk : g.port.snk = []) :
    (g.fresh m).ClearStreams B m g.port.src where
  codes := by
    have hbits : (g.fresh m).writtenBits = [] := by rw [Engine.writtenBits, g.fresh_port, hsnk]; rfl
    have hdec := g.fresh_decodable (B := B) hmaxw hm hlt
    rw [← hbits] at hdec
    rw [g.fresh_port, hpos]
    exact ⟨Engine.fresh_encInv hmaxw hm hlt (by omega), rfl, Dict.init_encSchedule _, hdec⟩
  source := rfl
  eoi := nofun
  fresh _ := rfl

/-! ### Programs of actions (30 R105) -/

/-- The words of `ENC_INIT m`, the actions, and an `ENC_END` for each of `ends`. -/
theorem runCommands_openProgram (s : State) (m : BitVec 28) (acts : List EncAction) (ends : List (BitVec 28)) :
    runCommands (openProgram m acts ++ ends.map (fun a => 0x3#4 ++ a)) s = .next { s with
      enc := ends.foldl (fun g _ => g.whenReady (Engine.encEnd s.build))
        ((s.enc.initCmd m.toNat).encActions s.build acts)
      cmds := [] } := by
  have hinit : decode (0x1#4 ++ m) = .encInit m := decode_of_encode rfl
  have hchunk (n : BitVec 28) : decode (EncAction.chunk n).word = .encChunk n := decode_of_encode rfl
  have hclear : decode EncAction.clear.word = .encClear 0#28 := decode_of_encode rfl
  have hend (a : BitVec 28) : decode (0x3#4 ++ a) = .encEnd a := decode_of_encode rfl
  have haction (a : EncAction) : Engine.command s.build (decode a.word) = a.run s.build := by
    cases a with
    | chunk n => rw [hchunk]; rfl
    | clear => rw [hclear]; rfl
  rw [runCommands_eq_foldl .enc _ rfl]
  · simp only [openProgram, List.foldl_append, List.foldl_map, List.foldl_cons, hinit, haction, hend]
    rfl
  · intro w hw t ht
    simp only [openProgram, List.mem_append, List.mem_cons, List.mem_map] at hw
    rcases hw with (rfl | ⟨a, -, rfl⟩) | ⟨a, -, rfl⟩
    · rw [hinit]; rfl
    · cases a with
      | chunk n => rw [hchunk, ← ht]; rfl
      | clear => rw [hclear, ← ht]; rfl
    · rw [hend, ← ht]; rfl

/-! ### The round trip with clear codes (44 R200) -/

/-- `ENC_END` reads nothing. -/
theorem Engine.CanEmit.encEnd_pos {B : Config.Build} {g : Engine} (h : g.CanEmit B) :
    (g.encEnd B).port.pos = g.port.pos := by
  obtain ⟨g', -, -, he, -, out, bits, buf, rfl, -⟩ := h.encEnd
  rw [he]
  rfl

/-- Settles O60: outside the boundary condition a clear code leaves the decoder in lockstep with the reset encoder, so
what the encoder writes is decodable after every action, and its end leaves only the pad to decode. -/
theorem roundTripWithClears : Obligations.RoundTripWithClears := by
  intro s s' m a acts ds src hlegal hbuild hm hz
  have hm' : m.toNat = 0 ∨ 257 ≤ m.toNat := hm.imp_left fun h => by rw [h]; rfl
  have hgood : ¬badMaxCode m.toNat := by rintro ⟨h1, h256⟩; omega
  have hstart : ((s.bindEnc src).enc.fresh m.toNat).ClearStreams (s.bindEnc src).build m.toNat src :=
    Engine.fresh_clearStreams (g := (s.bindEnc src).enc) hlegal.1 hm' m.isLt rfl rfl
  have hz' (pre post : List EncAction) (he : acts = pre ++ .clear :: post) :
      let g := ((s.bindEnc src).enc.fresh m.toNat).encActions (s.bindEnc src).build pre
      g.eoi = true ∨ ¬g.clearHazard := by
    obtain ⟨p, hp, hclear⟩ := hz pre post he
    have hrun := runCommands_openProgram (s.bindEnc src) m pre []
    rw [List.map_nil, List.append_nil, hp, Engine.initCmd_good _ _ hgood] at hrun
    cases hrun
    exact hclear
  refine ⟨_, runCommands_openProgram _ m acts [a], fun hst hroom hds => ⟨_, runCommands_decodeProgram _ m ds, ?_⟩⟩
  simp only [Engine.initCmd_good _ _ hgood, List.foldl_cons, List.foldl_nil] at hst hroom hds ⊢
  rcases hstart.encActions acts hz' with herr | hs
  · exact absurd (Engine.whenReady_of_error herr) hst
  · have hcodes := hs.codes.accept
    rw [Engine.whenReady_ready _ _ hs.codes.ready] at hroom hds ⊢
    have hdone := hcodes.decoded hroom (D := (s'.bindDec (Engine.encEnd _ _).port.snk).dec.fresh m.toNat)
      ⟨⟨_, rfl⟩, rfl, rfl⟩ rfl hds
    rw [show (s'.bindDec (Engine.encEnd _ _).port.snk).build = (s.bindEnc src).build from hbuild,
      (hcodes.inv.canEmit hcodes.ready).encEnd_pos]
    exact ⟨hdone.output, hdone.done, hdone.err, hdone.bits, hdone.buf⟩

end Sys2Proof.Machine
end

section
/-! SUPPORT. What an instruction writes outside its engine, which commands are refused, and the lifecycle of an engine
(spec/60_exceptions.md R205, R211, R215, R228); O6, O14 and O55. -/

namespace Sys2Proof.Machine

/-! ### What an instruction writes (10 R46, 20 R74, 60 R205) -/

theorem State.afterPrim_eq (s : State) (z : EngineId) (r : Res PrimResult) :
    s.afterPrim z r = { s.setEng z r.engine with ret := r.ret } := by
  cases r <;> rfl

theorem State.afterPrim_eng_other (s : State) (z y : EngineId) (r : Res PrimResult) (h : y ≠ z) :
    (s.afterPrim z r).eng y = s.eng y := by
  have hs := s.setEng_eng_other z y r.engine h
  rw [State.afterPrim_eq]
  cases y <;> exact hs

@[simp] theorem State.afterPrim_build (s : State) (z : EngineId) (r : Res PrimResult) :
    (s.afterPrim z r).build = s.build := by
  rw [State.afterPrim_eq]; exact s.setEng_build z r.engine

@[simp] theorem State.afterPrim_cmds (s : State) (z : EngineId) (r : Res PrimResult) :
    (s.afterPrim z r).cmds = s.cmds := by
  rw [State.afterPrim_eq]; exact s.setEng_cmds z r.engine

/-- The three things an instruction can do to the state: replace its engine, destroy it, or, in a primitive run alone,
replace it and leave a tagged value. -/
inductive Completes (i : Instr) (s : State) : State → Prop
  | setEng (g : Engine) : Completes i s (s.setEng i.engine g)
  | destroy : Completes i s (s.destroy i.engine)
  | afterPrim (h : i.format = .prim) (r : Res PrimResult) : Completes i s (s.afterPrim i.engine r)

/-- A code word run alone replaces the decoder, whichever operation its class selects (log 10). -/
theorem completes_codeWord {i : Instr} (hi : i.engine = .dec) (s : State) {c : Prop} [Decidable c]
    (r q : Res StepResult) :
    ∃ t, (if c then .next (s.afterCode r) else .next (s.afterCode q) : Host.Outcome State Fault Refusal) = .next t ∧
      Completes i s t := by
  have hset (r : Res StepResult) : Completes i s (s.afterCode r) := by
    rw [State.afterCode_eq, ← hi]; exact .setEng r.engine
  split
  · exact ⟨_, rfl, hset r⟩
  · exact ⟨_, rfl, hset q⟩

/-- Every instruction completes in one of the three ways, on its own engine (60 R205). -/
theorem exec_completes (i : Instr) (s : State) : ∃ t, exec i s = .next t ∧ Completes i s t := by
  cases i with
  | encInit _ | encChunk _ | encEnd _ | encClear _ | decInit _ | decChunk _ => exact ⟨_, rfl, .setEng _⟩
  | encDestroy _ =>
    by_cases hst : s.enc.st = .uninit
    · exact ⟨_, if_pos hst, .setEng _⟩
    · exact ⟨_, if_neg hst, .destroy⟩
  | decDestroy _ => exact ⟨_, rfl, .destroy⟩
  | reserved0 _ | reserved6 _ | reserved7 _ | reserved8 _ | reservedB _ | reservedC _ | reservedE _ | reservedF _ =>
    exact ⟨_, rfl, .setEng _⟩
  | clear => exact ⟨_, rfl, .setEng _⟩
  | literal _ | string _ | kwkwk _ | invalid _ => exact completes_codeWord rfl s _ _
  | dictGrow z => exact ⟨_, execDictGrow_eq z s, .afterPrim rfl _⟩
  | bwPush v w => exact ⟨_, execBwPush_eq v w s, .afterPrim rfl _⟩
  | encByte c => exact ⟨_, execEncByte_eq c s, .afterPrim rfl _⟩
  | encPending => exact ⟨_, execEncPending_eq s, .afterPrim rfl _⟩
  | decStep => exact ⟨_, execDecStep_eq s, .afterPrim rfl _⟩
  | decGrow => exact ⟨_, execDecGrow_eq s, .afterPrim rfl _⟩
  | dictInit _ | dictExtend _ _ _ | dictSeq _ _ | dictReset _ | bwFlush | brPull _ | decClear | srcRead _
  | snkWrite _ _ => exact ⟨_, rfl, .afterPrim rfl _⟩

/-- Settles O6: none of the three ways to complete writes the other engine, the build or the waiting commands, and only
a primitive writes the tagged value. -/
theorem everyInstructionTouchesOneEngine : Obligations.EveryInstructionTouchesOneEngine := by
  intro i s
  obtain ⟨t, ht, hc⟩ := exec_completes i s
  refine ⟨t, ht, ?_⟩
  cases hc with
  | setEng g =>
    exact ⟨fun y => s.setEng_eng_other _ y g, s.setEng_build _ g, s.setEng_cmds _ g, fun _ => s.setEng_ret _ g⟩
  | destroy =>
    exact ⟨(s.destroy_destroyedFrom _).other, s.destroy_build _, s.destroy_cmds _, fun _ => s.destroy_ret _⟩
  | afterPrim h r =>
    exact ⟨fun y => s.afterPrim_eng_other _ y r, s.afterPrim_build _ r, s.afterPrim_cmds _ r, fun hp => absurd h hp⟩

/-! ### Refused commands (40 R136, 60 R211, R215) -/

theorem State.onEng_whenReady_other (s : State) (z : EngineId) (f : Engine → Engine) (h : (s.eng z).st ≠ .ready) :
    s.onEng z (Engine.whenReady f) = s.setEng z ((s.eng z).refuse .wrongState) := by
  rw [State.onEng_eq, Engine.whenReady_other f _ h]

/-- A stream command outside `READY` is refused and does nothing else. -/
theorem exec_stream_refused (s : State) (a : BitVec 28) (z : EngineId) (i : Instr)
    (hi : (z = .enc ∧ (i = .encChunk a ∨ i = .encEnd a ∨ i = .encClear a)) ∨ (z = .dec ∧ i = .decChunk a))
    (hst : (s.eng z).st ≠ .ready) : exec i s = .next (s.setEng z ((s.eng z).refuse .wrongState)) := by
  obtain ⟨rfl, rfl | rfl | rfl⟩ | ⟨rfl, rfl⟩ := hi <;>
    exact congrArg Host.Outcome.next (s.onEng_whenReady_other _ _ hst)

/-- Settles O14: both refusals write `REFUSED` and `RSN` of the addressed engine. -/
theorem refusedCommandsChangeNothingElse : Obligations.RefusedCommandsChangeNothingElse := by
  refine ⟨fun s m z i hi h1 h256 => ?_, exec_stream_refused⟩
  rw [execInit_eq s m z i hi, Engine.initCmd_bad _ _ ⟨h1, h256⟩]
  rfl

/-! ### The lifecycle of a chunk command (42 R161, R162; 43 R188, R189; 60 R228) -/

/-- The rounds of `ENC_CHUNK` write `ST` by a raise only, and refuse nothing. -/
theorem Engine.encLoop_lifecycle (B : Config.Build) (left count : Nat) (g : Engine) :
    (g.encLoop B left count).refused = g.refused ∧
      ((g.encLoop B left count).st = g.st ∨ (g.encLoop B left count).st = .error) := by
  induction left generalizing count g with
  | zero => exact ⟨rfl, .inl rfl⟩
  | succ left ih =>
    rcases g.encLoop_succ B left count with ⟨-, h⟩ | ⟨-, -, h⟩ | ⟨-, _, ⟨g2, hb, h⟩ | ⟨g2, hb, h⟩⟩ <;> rw [h]
    · exact ⟨rfl, .inl rfl⟩
    · exact ⟨rfl, .inl rfl⟩
    · obtain ⟨⟨p, x, rfl⟩, -⟩ := Engine.encByte_raised hb
      exact ⟨rfl, .inr rfl⟩
    · obtain ⟨⟨p, rfl⟩, -⟩ := Engine.encByte_ok hb
      exact ih (count + 1) _

/-- The rounds of `DEC_CHUNK` write `ST` by a raise or at the end of the stream only, and refuse nothing. -/
theorem Engine.decLoop_lifecycle (B : Config.Build) (left count : Nat) (g : Engine) :
    (g.decLoop B left count).refused = g.refused ∧
      ((g.decLoop B left count).st = g.st ∨ (g.decLoop B left count).st = .error ∨
        (g.decLoop B left count).st = .done) := by
  induction left generalizing count g with
  | zero => exact ⟨rfl, .inl rfl⟩
  | succ left ih =>
    by_cases hr : g.st = .ready
    · obtain ⟨x, p, hok | ⟨y, n, hraise⟩⟩ := decAnswers_decStep B g
      · have hs : g.decStep B = .ok x (g.withDecPart p) := hok g.result
        by_cases hx : x = .endOfStream
        · rw [Engine.decLoop_of_end hr (hx ▸ hs)]
          exact ⟨rfl, .inr (.inr rfl)⟩
        · rw [Engine.decLoop_of_code hr hs hx]
          exact ih (count + 1) _
      · have hs : g.decStep B = .raised ((g.withDecPart p).raise y n) := hraise g.result
        rw [Engine.decLoop_of_raised hr hs]
        exact ⟨rfl, .inr (.inl rfl)⟩
    · rw [Engine.decLoop_of_not_ready hr]
      exact ⟨rfl, .inl rfl⟩

/-- `ENC_CHUNK` in `READY` stays there, or ends in `ERROR` with the error named. -/
theorem Engine.EncInv.encChunk_lifecycle {B : Config.Build} {g : Engine} (h : g.EncInv B) (hr : g.st = .ready) {n : Nat}
    (hn : n < 2 ^ 28) :
    (g.encChunk B n).refused = g.refused ∧
      ((g.encChunk B n).st = .ready ∨ (g.encChunk B n).st = .error ∧ (g.encChunk B n).err ≠ .none) := by
  have hinv := h.encChunk hr hn
  obtain ⟨href, hst⟩ := Engine.encLoop_lifecycle B n 0 { g with result := 0 }
  exact ⟨href, hst.imp (fun hsame => hsame.trans hr) fun herr => ⟨herr, hinv.errState.2 herr⟩⟩

/-- `DEC_CHUNK` in `READY` stays there, or ends in `ERROR` with the error named, or in `DONE` with `EOI` latched. -/
theorem Engine.DecInv.decChunk_lifecycle {B : Config.Build} {g : Engine} (h : g.DecInv B) (hr : g.st = .ready) {n : Nat}
    (hn : n < 2 ^ 28) :
    (g.decChunk B n).refused = g.refused ∧
      ((g.decChunk B n).st = .ready ∨ (g.decChunk B n).st = .error ∧ (g.decChunk B n).err ≠ .none ∨
        (g.decChunk B n).st = .done ∧ (g.decChunk B n).eoi = true) := by
  have hinv := h.decChunk hr hn
  obtain ⟨href, hst⟩ := Engine.decLoop_lifecycle B n 0 { g with result := 0 }
  exact ⟨href, hst.imp (fun hsame => hsame.trans hr)
    (Or.imp (fun herr => ⟨herr, hinv.errState.2 herr⟩) fun hdone => ⟨hdone, hinv.eoiDone.2 hdone⟩)⟩

/-! ### The lifecycle of ENC_END and ENC_CLEAR (42 R163, 44 R196; 60 R206) -/

theorem Engine.CanEmit.encEnd_lifecycle {B : Config.Build} {g : Engine} (h : g.CanEmit B) :
    (g.encEnd B).st = .done ∧ (g.encEnd B).refused = g.refused ∧ (g.encEnd B).err = g.err := by
  obtain ⟨g', -, -, he, -, out, bits, buf, rfl, -⟩ := h.encEnd
  rw [he]
  exact ⟨rfl, rfl, rfl⟩

theorem Engine.CanEmit.encClear_lifecycle {B : Config.Build} {g : Engine} (h : g.CanEmit B) (h9 : 9 ≤ g.dict.codeWidth) :
    (g.encClear B).st = g.st ∧ (g.encClear B).refused = g.refused ∧ (g.encClear B).err = g.err := by
  cases heoi : g.eoi
  · obtain ⟨g', -, -, he, -, out, bits, buf, rfl, -⟩ := h.encClear heoi h9
    rw [he]
    exact ⟨rfl, rfl, rfl⟩
  · rw [Engine.encClear_of_eoi heoi]
    exact ⟨rfl, rfl, rfl⟩

/-! ### The lifecycle table (60 R228) -/

/-- Settles O55: row by row, each command from what it does in `READY` and its refusal elsewhere. -/
theorem lifecycleTable : Obligations.LifecycleTable := by
  intro s m n a h
  refine ⟨fun z i hi => ?_, fun z i hi => ?_, fun i st hi => ?_, fun z i hi => ?_, fun w hw => ?_⟩
  · refine ⟨_, execInit_eq s m z i hi, ?_⟩
    rw [State.setEng_eng]
    split
    next hbad => rw [Engine.initCmd_bad _ _ hbad]; exact ⟨rfl, rfl, rfl⟩
    next hgood => rw [Engine.initCmd_good _ _ hgood]; exact ⟨rfl, rfl⟩
  · split
    next hr =>
      obtain ⟨rfl, rfl⟩ | ⟨rfl, rfl⟩ := hi
      · obtain ⟨href, hst⟩ := h.enc.accept.encChunk_lifecycle hr n.isLt
        exact ⟨_, exec_encChunk hr n, href, hst.imp_right .inl⟩
      · obtain ⟨href, hst⟩ := h.dec.accept.decChunk_lifecycle hr n.isLt
        exact ⟨_, exec_decChunk hr n, href, hst.imp_right (Or.imp_right (And.intro rfl))⟩
    next hr =>
      refine ⟨_, exec_stream_refused s n z i (hi.imp_left (And.imp_right .inl)) hr, ?_⟩
      rw [State.setEng_eng]
      exact ⟨rfl, rfl, rfl⟩
  · split
    next hr =>
      have hemit := h.enc.accept.canEmit hr
      have herr : s.enc.err = .none := h.enc.err_none (by simp [hr])
      obtain ⟨rfl, rfl⟩ | ⟨rfl, rfl⟩ := hi
      · obtain ⟨hst, href, he⟩ := hemit.encEnd_lifecycle
        exact ⟨_, exec_encEnd hr a, hst, href, he.trans herr⟩
      · obtain ⟨hst, href, he⟩ := hemit.encClear_lifecycle (h.enc.dictInv hr).width.1
        exact ⟨_, exec_encClear hr a, hst.trans hr, href, he.trans herr⟩
    next hr =>
      have hrow : i = .encChunk a ∨ i = .encEnd a ∨ i = .encClear a := .inr (hi.imp And.left And.left)
      exact ⟨_, exec_stream_refused s a .enc i (.inl ⟨rfl, hrow⟩) hr, rfl, rfl, rfl⟩
  · obtain ⟨t, ht, hv, -⟩ := exec_destroy s a z i hi
    exact ⟨t, ht, hv.st, hv.refused⟩
  · refine ⟨_, reservedOpcodesRefused.1 s w hw, ?_⟩
    rw [State.setEng_eng]
    exact ⟨rfl, rfl, rfl⟩

end Sys2Proof.Machine
end

section
/-! SUPPORT. The decoder on any bytes whatever comes to the end of its stream or to an error (spec/41_bitstream.md R147;
spec/43_decoder.md R188; spec/70_reset_and_hazards.md R253); O50. -/

namespace Sys2Proof.Machine

/-! ### The unread bits under DEC.STEP (41 R146, R147; 43 R177, R188) -/

/-- A pull finds nothing only where fewer bits than it asks for are left (41 R147). -/
theorem Engine.length_unreadBits_of_pull_none {B : Config.Build} {w : Nat} {g g' : Engine}
    (hp : g.port.pos ≤ g.port.src.length) (h : g.pull B w = (none, g')) : g'.unreadBits.length < w := by
  have hlen := g.length_unreadBits
  rw [Engine.unreadBits_of_pull_none h]
  obtain ⟨m, v, -, -, ⟨hshort, hend, -⟩ | ⟨-, hsome⟩⟩ := g.pull_cases B w hp
  · omega
  · cases hsome.symm.trans h

/-- A data code reads nothing. -/
theorem Engine.dataCode_unreadBits (B : Config.Build) (s : List Byte) (b : Byte) (v : Nat) (g : Engine) :
    (((g.emitAll B s).mirror b).finishCode B v).engine.unreadBits = g.unreadBits := by
  by_cases h : (g.mirror b).dict.DecOverflows B.maxw
  · rw [Engine.dataCode_raised s v h]; rfl
  · rw [Engine.dataCode_ok s v h]; rfl

/-- After the pull a code word takes no bit back: only a clear code changes the unread bits, by discarding the residue. -/
theorem Engine.codeWord_unreadBits_le (B : Config.Build) (v : Nat) (g : Engine) :
    (g.codeWord B v).engine.unreadBits.length ≤ g.unreadBits.length := by
  have hlookup : (g.lookupCode B v).engine.unreadBits = g.unreadBits := g.dataCode_unreadBits B _ _ v
  have hkwkwk : (g.kwkwkCode B v).engine.unreadBits = g.unreadBits := g.dataCode_unreadBits B _ _ v
  rcases g.codeWord_cases B v with ⟨-, h⟩ | ⟨-, h⟩ | ⟨-, h⟩ | ⟨-, h⟩ | ⟨-, h⟩ <;> rw [h]
  · have hclear : g.decClear.unreadBits.length = 0 + 8 * (g.port.src.length - g.port.pos) :=
      g.decClear.length_unreadBits
    rw [Res.engine_ok, hclear, g.length_unreadBits]
    omega
  · rw [hlookup]
  · rw [hlookup]
  · rw [hkwkwk]
  · exact Nat.le_refl _

/-- A step that raises leaves the engine in `ERROR` (60 R212). -/
theorem Engine.decStep_raised {B : Config.Build} {g g' : Engine} (h : g.decStep B = .raised g') : g'.st = .error := by
  obtain ⟨x, p, hok | ⟨y, n, hraise⟩⟩ := decAnswers_decStep B g
  · cases (hok g.result).symm.trans h
  · cases (hraise g.result).symm.trans h
    rfl

/-- A step of a sound decoder finds the end of the stream, with less than a code left; or it decodes a code word; or it
raises. -/
theorem Engine.DecInv.decStep_cases {B : Config.Build} {g : Engine} (h : g.DecInv B) (hr : g.st = .ready) :
    (∃ g', g.decStep B = .ok .endOfStream g' ∧ g'.unreadBits.length < g'.dict.codeWidth) ∨
    (∃ g', DecodesTo B g g' ∧ g'.DecInv B ∧ g'.st = .ready) ∨
    (∃ g', g.decStep B = .raised g' ∧ g'.st = .error) := by
  rcases h.pull hr with ⟨v, g1, hpull, h1, hr1⟩ | ⟨g1, hpull, -⟩
  · have hstep : g.decStep B = g1.codeWord B v := by simp only [Engine.decStep, hpull]
    have hkeeps := h1.codeWord hr1 v
    have hread := g1.codeWord_unreadBits_le B v
    rcases hcode : g1.codeWord B v with ⟨a, g'⟩ | g' <;> rw [hcode] at hkeeps hread hstep
    · obtain ⟨ha, h', hr'⟩ := hkeeps
      refine .inr (.inl ⟨g', ⟨a, ha, hstep, ?_⟩, h', hr'⟩)
      have hpulled : g.unreadBits.length = g.dict.codeWidth + g1.unreadBits.length := by
        rw [Engine.unreadBits_of_pull_some hpull, List.length_append, length_codeBits]
      have hwidth := (h.dict (.inl hr)).width.1
      rw [Res.engine_ok] at hread
      omega
    · exact .inr (.inr ⟨g', hstep, Engine.decStep_raised hstep⟩)
  · have hshort := Engine.length_unreadBits_of_pull_none h.source hpull
    have hdict : g1.dict = g.dict := by rw [← g.pull_dict B g.dict.codeWidth, hpull]
    exact .inl ⟨g1, by simp only [Engine.decStep, hpull], hdict ▸ hshort⟩

/-! ### DEC_CHUNK to the end of any stream (70 R253) -/

/-- Each round but the last takes 9 bits or more, so with more rounds to go than codes of 9 bits are left the loop ends
in `DONE` or in `ERROR`. -/
theorem Engine.DecInv.decLoop_ends {B : Config.Build} (left count : Nat) {g : Engine} (h : g.DecInv B)
    (hr : g.st = .ready) (hc : count + left < 2 ^ 28) (hleft : g.unreadBits.length / 9 < left) :
    ((g.decLoop B left count).st = .done ∧
      (g.decLoop B left count).unreadBits.length < (g.decLoop B left count).dict.codeWidth) ∨
    (g.decLoop B left count).st = .error := by
  induction left generalizing count g with
  | zero => exact absurd hleft (Nat.not_lt_zero _)
  | succ left ih =>
    rcases h.decStep_cases hr with ⟨g', hs, hshort⟩ | ⟨g', ⟨a, ha, hs, htaken⟩, h', hr'⟩ | ⟨g', hs, herr⟩
    · rw [Engine.decLoop_of_end hr hs]
      exact .inl ⟨rfl, hshort⟩
    · rw [Engine.decLoop_of_code hr hs ha]
      exact ih (count + 1) (h'.setResult hr' (by omega)) hr' (by omega)
        (show g'.unreadBits.length / 9 < left by omega)
    · rw [Engine.decLoop_of_raised hr hs]
      exact .inr herr

/-- Settles O50: the loop ends, and the decoder invariants say what `EOI` and `ERR` hold there. -/
theorem decChunkReachesTheEnd : Obligations.DecChunkReachesTheEnd := by
  intro s n _ h hr hn
  have hstart : (s.dec.accept.setResult 0).DecInv s.build := h.accept.setResult hr (n := 0) (by decide)
  have hinv := Engine.DecInv.decLoop n.toNat 0 hstart (by omega)
  refine ⟨_, exec_decChunk hr n, ?_⟩
  rcases hstart.decLoop_ends n.toNat 0 hr (by omega) hn with ⟨hdone, hshort⟩ | herror
  · exact .inl ⟨hdone, hinv.eoiDone.2 hdone, hinv.err_none (by rw [hdone]; decide), hshort⟩
  · refine .inr ⟨herror, ?_, hinv.errState.2 herror⟩
    rw [← Bool.not_eq_true, hinv.eoiDone, herror]
    decide

end Sys2Proof.Machine
end

section
/-! SUPPORT. The step by what waits on the command port; O5. -/

namespace Sys2Proof.Machine

/-- 60 R225: with no word waiting the block is idle. -/
theorem step_of_cmds_nil {s : State} (h : s.cmds = []) : step s = .next s := by
  simp only [step, s.takeCommand_nil h]

/-- 00 R16: the first waiting word is taken, and its command runs on the state without it. -/
theorem step_of_cmds_cons {s : State} {w : Word} {ws : List Word} (h : s.cmds = w :: ws) :
    step s = exec (decode w) { s with cmds := ws } := by
  simp only [step, s.takeCommand_cons w ws h]

/-- A word of the table's 32 bits is placed as it is, before the words that wait. -/
theorem State.withFetchWord_cmds (s : State) {w : Nat} (hw : w < 2 ^ 32) :
    (s.withFetchWord 32 w).cmds = BitVec.ofNat 32 w :: s.cmds := by
  simp only [State.withFetchWord, Nat.mod_eq_of_lt hw]

/-- Every word of 32 bits selects a row of the table. -/
theorem decodeTableWord_of_lt {w : Nat} (hw : w < 2 ^ 32) :
    decodeTableWord 32 w = some (decode (BitVec.ofNat 32 w)) := by
  simp only [decodeTableWord, Nat.le_refl, if_true, Nat.mod_eq_of_lt hw]

/-- Settles O5: taking the word that the host placed leaves the state it was placed on. -/
theorem stepRunsTheDecodedCommand : Obligations.StepRunsTheDecodedCommand :=
  ⟨fun _ _ _ => step_of_cmds_cons, fun _ => step_of_cmds_nil,
    fun s _ hw => ⟨step_of_cmds_cons (s.withFetchWord_cmds hw), decodeTableWord_of_lt hw⟩⟩

end Sys2Proof.Machine
end
